-- ==== Sys2Proof/Word.lean ====
section
/-! DEFINITION. The two word types of the wire and of the process image (R9, R91): an 8-bit field and a 16-bit field. -/

namespace Sys2Proof

/-- A field of type `u8` (R9, R91). -/
abbrev Byte := BitVec 8

/-- A field of type `u16` (R9, R91); also one register of the process image (R34, R64). -/
abbrev U16 := BitVec 16

end Sys2Proof
end

