-- ==== Sys2Proof/Config.lean ====
section
/-! DEFINITION. The implementation parameters of R8. Those with one value are constants; those the spec leaves to an
instance (sizes, file table, `MAX_READ_REGS`, `DIAG_HANDLER`, `MEI_TABLE`, `N_ENGINES`) are the fields of `Params`, which
State holds and no step changes (R35, R47); `HEX_FORMAT` is a function without a body. -/

namespace Sys2Proof

namespace Config

/-- `MAX_READ_BITS` (R8): the largest count of ReadCoils and ReadInputDiscretes. -/
def maxReadBits : Nat := 2000

/-- `MAX_FIFO` (R8). -/
def maxFifo : Nat := 31

/-- `MAX_EVENTS` (R8): event bytes of ReadCommEventLog. -/
def maxEvents : Nat := 64

/-- `MAX_DEVICE_DATA` (R8): device-data bytes of ReportSlaveID. -/
def maxDeviceData : Nat := 249

/-- `MAX_MEI_FIELDS` (R8). -/
def maxMeiFields : Nat := 64

/-- `MAX_FILE_REQ` (R8): the largest data length of a file-record request at construction. -/
def maxFileReq : Nat := 248

/-- `MAX_RECORD` (R8): the largest record number. -/
def maxRecord : Nat := 9999

/-- `FILE_REF_TYPE` (R8). -/
def fileRefType : Byte := 6

/-- `MEI_SUBCODE` (R8). -/
def meiSubcode : Byte := 0x0E

/-- `HEX_FORMAT` (R137, decision D30): the text of a message's diagnostic hex dump. The spec gives no format, so this has no
body and nothing can be proved of its value (log entry 11). -/
opaque hexFormat : List Byte → String

end Config

namespace Machine

/-- `count` consecutive records of `words` registers each (log entry 10). -/
structure RecordRun where
  count : Nat
  words : Nat
deriving DecidableEq, Repr

/-- `count` consecutive files with the same records (log entry 10). -/
structure FileRun where
  count   : Nat
  records : List RecordRun
deriving DecidableEq, Repr

/-- One row of `DIAG_HANDLER` that is not the identity (R205, log entry 9). -/
structure DiagRow where
  subFunction : U16
  data        : U16
  subFunction' : U16
  data'        : U16
deriving DecidableEq, Repr

/-- One field of a ReadMEI response (R240). -/
structure MeiField where
  id   : Byte
  text : List Byte
deriving DecidableEq, Repr

/-- An answer of `MEI_TABLE` (R242): `Exc(2)`, `Exc(3)` or the tuple. -/
inductive MeiAnswer where
  | illegalAddress
  | illegalValue
  | objects (conformity moreFollows nextFieldId : Byte) (fields : List MeiField)
deriving DecidableEq, Repr

/-- One row of `MEI_TABLE` (R242, log entry 9). -/
structure MeiRow where
  fieldLevel : Byte
  fieldId    : Byte
  answer     : MeiAnswer
deriving DecidableEq, Repr

/-- The parameters an engine instance is attached with (R8, R35). -/
structure Params where
  /-- `N_DI`. -/
  nDI : Nat
  /-- `N_COIL`. -/
  nCOIL : Nat
  /-- `N_IR`. -/
  nIR : Nat
  /-- `N_HR`. -/
  nHR : Nat
  /-- `N_FILES`, `RECORDS` and `WORDS`, as runs of equal files and equal records. -/
  files : List FileRun
  /-- `MAX_READ_REGS`. -/
  maxReadRegs : Nat
  /-- `DIAG_HANDLER`: the identity but for these rows; the first row that matches decides. -/
  diagRows : List DiagRow
  /-- `MEI_TABLE`: the first row that matches decides. -/
  meiRows : List MeiRow
  /-- `MEI_TABLE` where no row matches. -/
  meiDefault : MeiAnswer
  /-- `N_ENGINES`. -/
  nEngines : Nat
deriving DecidableEq, Repr

end Machine

end Sys2Proof
end

