-- ==== Sys2Proof/Syntax.lean ====
section
/-! DEFINITION. The instructions of the engine: the decoded request records of the 19 function codes of
spec/opcode_table.json (R2, R94), one constructor of `Instr` each. A byte count is no field: it is the length of the
data it counts (R94, R98), and the decoder and encoder compute it. -/

namespace Sys2Proof

/-- A sub-request of ReadFileRecord, 7 bytes on the wire (R94, R220). -/
structure FileRead where
  refType   : Byte
  file      : U16
  record    : U16
  wordCount : U16
deriving DecidableEq, Repr

/-- A sub-request of WriteFileRecord: the 7-byte header and its payload words (R94, R225). The `wordCount` of the wire
is `data.length`. -/
structure FileWrite where
  refType : Byte
  file    : U16
  record  : U16
  data    : List U16
deriving DecidableEq, Repr

/-- One constructor per row of the opcode table, with the operands the row's rule names, in wire order. -/
inductive Instr where
  /-- 0x01 (R150). -/
  | readCoils (reference count : U16)
  /-- 0x02 (R152). -/
  | readInputDiscretes (reference count : U16)
  /-- 0x03 (R154). -/
  | readMultipleRegisters (reference count : U16)
  /-- 0x04 (R156). -/
  | readInputRegisters (reference count : U16)
  /-- 0x05 (R170). -/
  | writeCoil (reference value : U16)
  /-- 0x06 (R173). -/
  | writeSingleRegister (reference value : U16)
  /-- 0x07 (R200). -/
  | readExceptionStatus
  /-- 0x08 (R205). -/
  | readSerialDiagnostics (subFunction data : U16)
  /-- 0x0B (R210). -/
  | readCommEventCounter
  /-- 0x0C (R213). -/
  | readCommEventLog
  /-- 0x0F (R176); `data` is the packed bytes as sent, its length the byteCount. -/
  | writeMultipleCoils (reference count : U16) (data : List Byte)
  /-- 0x10 (R180); the words assembled from the data bytes (R96), their number the count. -/
  | writeMultipleRegisters (reference : U16) (values : List U16)
  /-- 0x11 (R216). -/
  | reportSlaveID
  /-- 0x14 (R220). -/
  | readFileRecord (subs : List FileRead)
  /-- 0x15 (R225). -/
  | writeFileRecord (subs : List FileWrite)
  /-- 0x16 (R185). -/
  | maskWriteRegister (reference andMask orMask : U16)
  /-- 0x17 (R190); `values` as for 0x10, their number the writeCount. -/
  | readWriteMultiple (readRef readCount writeRef : U16) (values : List U16)
  /-- 0x18 (R230). -/
  | readFIFOQueue (reference : U16)
  /-- 0x2B (R240). -/
  | readMEI (subCode fieldLevel fieldId : Byte)
deriving DecidableEq, Repr

end Sys2Proof
end

