-- ==== Sys2Proof/WellFormed.lean ====
section
/-! DEFINITION. What makes a request record one that a PDU can carry: its counts and byte counts fit their fields and agree
(R91, R94, R98). A field's own range is in its type. Values that are legal on the wire but refused at dispatch (a coil
value, a reference type, a sub-code: R102) are no matter of well-formedness. -/

namespace Sys2Proof

/-- How many bytes `n` packed booleans take: ceil(n / 8) (R14). -/
def packedLength (n : Nat) : Nat := (n + 7) / 8

/-- The wire length of one WriteFileRecord sub-request (R225). -/
def FileWrite.wireLength (s : FileWrite) : Nat := 7 + 2 * s.data.length

/-- The byteCount of a WriteFileRecord with these sub-requests (R225). -/
def fileWriteBytes : List FileWrite → Nat
  | [] => 0
  | s :: rest => s.wireLength + fileWriteBytes rest

/-- The request can be carried by a PDU and its count fields agree (R98). -/
def Instr.wellFormed : Instr → Bool
  | .readCoils _ _ => true
  | .readInputDiscretes _ _ => true
  | .readMultipleRegisters _ _ => true
  | .readInputRegisters _ _ => true
  | .writeCoil _ _ => true
  | .writeSingleRegister _ _ => true
  | .readExceptionStatus => true
  | .readSerialDiagnostics _ _ => true
  | .readCommEventCounter => true
  | .readCommEventLog => true
  | .writeMultipleCoils _ count data => data.length == packedLength count.toNat && decide (data.length ≤ 255)
  | .writeMultipleRegisters _ values => decide (2 * values.length ≤ 255)
  | .reportSlaveID => true
  | .readFileRecord subs => decide (1 ≤ subs.length) && decide (7 * subs.length ≤ 255)
  | .writeFileRecord subs => decide (1 ≤ subs.length) && decide (fileWriteBytes subs ≤ 255)
  | .maskWriteRegister _ _ _ => true
  | .readWriteMultiple _ _ _ values => decide (2 * values.length ≤ 255)
  | .readFIFOQueue _ => true
  | .readMEI _ _ _ => true

end Sys2Proof
end

