-- ==== Sys2Proof/Decode.lean ====
section
/-! DEFINITION. Decoding a request PDU, total on any bytes (R90 to R99, R260, R261), and after it the encoder of a
well-formed request. The byte-order and bit-packing helpers that every codec of the model uses stand here too
(R10, R11, R14). -/

namespace Sys2Proof

/-- Decode-error reasons (R272). -/
inductive DecodeReason where
  /-- A field or byte run extends past the end of the input. -/
  | truncated
  /-- Bytes remain after a complete message. -/
  | trailing
  /-- The framed length field disagrees with the input. -/
  | lengthMismatch
  /-- A byte-count field disagrees with what it describes (R98). -/
  | byteCountMismatch
  /-- A response field outside its stated value set. -/
  | fieldValue
deriving DecidableEq, Repr

/-- Why a request PDU is no instruction: its function code is in no row (R99, R261), or its body is malformed. -/
inductive Reject where
  | illegalFunction (functionCode : Byte)
  | malformed (reason : DecodeReason)
deriving DecidableEq, Repr

/-! ## Byte order and bit packing -/

/-- `be16` (R10). -/
def be16 (hi lo : Byte) : U16 := hi ++ lo

/-- `bytes16` (R10): the most significant byte first (R60). -/
def bytes16 (v : U16) : List Byte := [v.extractLsb' 8 8, v.extractLsb' 0 8]

/-- The words of a byte run, two bytes each (R96). -/
def wordsOf : List Byte → List U16
  | hi :: lo :: rest => be16 hi lo :: wordsOf rest
  | _ => []

/-- `bytes16(v[0]) ++ bytes16(v[1]) ++ …` (R10). -/
def bytesOf : List U16 → List Byte
  | [] => []
  | v :: rest => bytes16 v ++ bytesOf rest

/-- A length or count as a `u8` field. Every use is guarded by a check that it fits. -/
def u8Field (n : Nat) : Byte := BitVec.ofNat 8 n

/-- A length or count as a `u16` field. -/
def u16Field (n : Nat) : U16 := BitVec.ofNat 16 n

/-- The number whose bit k is the k-th boolean. -/
def bitsValue : List Bool → Nat
  | [] => 0
  | b :: rest => b.toNat + 2 * bitsValue rest

/-- One byte of `pack_lsb`: bit k is element k, 0 past the end (R14, padding decision D9). -/
def packByte (bits : List Bool) : Byte := BitVec.ofNat 8 (bitsValue (bits.take 8))

/-- `pack_lsb(b, n)` (R14). -/
def packLsb (bits : List Bool) : Nat → List Byte
  | 0 => []
  | n + 1 => packByte bits :: packLsb (bits.drop 8) n

/-- The eight booleans of one byte, least significant first (R14). -/
def unpackByte (x : Byte) : List Bool :=
  [x.getLsbD 0, x.getLsbD 1, x.getLsbD 2, x.getLsbD 3, x.getLsbD 4, x.getLsbD 5, x.getLsbD 6, x.getLsbD 7]

/-- `unpack_lsb(s)` (R14). -/
def unpackLsb : List Byte → List Bool
  | [] => []
  | x :: rest => unpackByte x ++ unpackLsb rest

/-! ## Decoding primitives (R11)

The cursor is what is left of the input: each primitive takes the bytes from the cursor on and gives back those after it. -/

/-- `u8()` (R11). -/
def u8 : List Byte → Except DecodeReason (Byte × List Byte)
  | x :: rest => .ok (x, rest)
  | [] => .error .truncated

/-- `u16()` (R11). -/
def u16 : List Byte → Except DecodeReason (U16 × List Byte)
  | hi :: lo :: rest => .ok (be16 hi lo, rest)
  | _ => .error .truncated

/-- `bytes(n)` (R11). -/
def bytes (n : Nat) (input : List Byte) : Except DecodeReason (List Byte × List Byte) :=
  if n ≤ input.length then .ok (input.take n, input.drop n) else .error .truncated

/-- `end()` (R11). -/
def atEnd : List Byte → Except DecodeReason Unit
  | [] => .ok ()
  | _ :: _ => .error .trailing

/-- A consistency check of a decode (R98, R272). -/
def require (holds : Bool) (otherwise : DecodeReason) : Except DecodeReason Unit :=
  if holds then .ok () else .error otherwise

/-! ## The request bodies, one decode per format and function code -/

/-- The body of `F_N`: nothing (R93). -/
def decodeNone (body : List Byte) : Except DecodeReason Unit := atEnd body

/-- The body of `F_R` (R93). -/
def decodeR (body : List Byte) : Except DecodeReason U16 := do
  let (a, rest) ← u16 body
  atEnd rest
  return a

/-- The body of `F_RC` and `F_RRC` (R93). -/
def decodeRC (body : List Byte) : Except DecodeReason (U16 × U16) := do
  let (a, rest) ← u16 body
  let (b, rest) ← u16 rest
  atEnd rest
  return (a, b)

/-- The body of `F_MW` (R93). -/
def decodeMW (body : List Byte) : Except DecodeReason (U16 × U16 × U16) := do
  let (a, rest) ← u16 body
  let (b, rest) ← u16 rest
  let (c, rest) ← u16 rest
  atEnd rest
  return (a, b, c)

/-- The body of `F_BC` (R93): the counted bytes. -/
def decodeBC (body : List Byte) : Except DecodeReason (List Byte) := do
  let (n, rest) ← u8 body
  let (data, rest) ← bytes n.toNat rest
  atEnd rest
  return data

/-- The body of `F_RCB` (R93): reference, count, data; the byteCount is the data's length. -/
def decodeRCB (body : List Byte) : Except DecodeReason (U16 × U16 × List Byte) := do
  let (reference, rest) ← u16 body
  let (count, rest) ← u16 rest
  let data ← decodeBC rest
  return (reference, count, data)

/-- R150. -/
def decodeReadCoils (body : List Byte) : Except DecodeReason Instr := do
  let (reference, count) ← decodeRC body
  return .readCoils reference count

/-- R152. -/
def decodeReadInputDiscretes (body : List Byte) : Except DecodeReason Instr := do
  let (reference, count) ← decodeRC body
  return .readInputDiscretes reference count

/-- R154. -/
def decodeReadMultipleRegisters (body : List Byte) : Except DecodeReason Instr := do
  let (reference, count) ← decodeRC body
  return .readMultipleRegisters reference count

/-- R156. -/
def decodeReadInputRegisters (body : List Byte) : Except DecodeReason Instr := do
  let (reference, count) ← decodeRC body
  return .readInputRegisters reference count

/-- R170: the value is not checked here, so that dispatch can answer code 3 (R171). -/
def decodeWriteCoil (body : List Byte) : Except DecodeReason Instr := do
  let (reference, value) ← decodeRC body
  return .writeCoil reference value

/-- R173. -/
def decodeWriteSingleRegister (body : List Byte) : Except DecodeReason Instr := do
  let (reference, value) ← decodeRC body
  return .writeSingleRegister reference value

/-- R200. -/
def decodeReadExceptionStatus (body : List Byte) : Except DecodeReason Instr := do
  decodeNone body
  return .readExceptionStatus

/-- R205. -/
def decodeReadSerialDiagnostics (body : List Byte) : Except DecodeReason Instr := do
  let (subFunction, data) ← decodeRC body
  return .readSerialDiagnostics subFunction data

/-- R210. -/
def decodeReadCommEventCounter (body : List Byte) : Except DecodeReason Instr := do
  decodeNone body
  return .readCommEventCounter

/-- R213. -/
def decodeReadCommEventLog (body : List Byte) : Except DecodeReason Instr := do
  decodeNone body
  return .readCommEventLog

/-- R176. -/
def decodeWriteMultipleCoils (body : List Byte) : Except DecodeReason Instr := do
  let (reference, count, data) ← decodeRCB body
  require (data.length == packedLength count.toNat) .byteCountMismatch
  return .writeMultipleCoils reference count data

/-- R180. -/
def decodeWriteMultipleRegisters (body : List Byte) : Except DecodeReason Instr := do
  let (reference, count, data) ← decodeRCB body
  require (data.length == 2 * count.toNat) .byteCountMismatch
  return .writeMultipleRegisters reference (wordsOf data)

/-- R216. -/
def decodeReportSlaveID (body : List Byte) : Except DecodeReason Instr := do
  decodeNone body
  return .reportSlaveID

/-- The sub-requests of a ReadFileRecord body (R220); a rest of fewer than 7 bytes is no multiple of 7. -/
def fileReads : List Byte → Except DecodeReason (List FileRead)
  | [] => .ok []
  | refType :: f1 :: f0 :: r1 :: r0 :: w1 :: w0 :: rest => do
    let subs ← fileReads rest
    return ⟨refType, be16 f1 f0, be16 r1 r0, be16 w1 w0⟩ :: subs
  | _ => .error .byteCountMismatch

/-- R220. -/
def decodeReadFileRecord (body : List Byte) : Except DecodeReason Instr := do
  let data ← decodeBC body
  require (!data.isEmpty) .byteCountMismatch
  let subs ← fileReads data
  return .readFileRecord subs

/-- The sub-requests of a WriteFileRecord body (R225). Each takes at least one byte, so the body's length is fuel enough. -/
def fileWrites : Nat → List Byte → Except DecodeReason (List FileWrite)
  | _, [] => .ok []
  | fuel + 1, refType :: f1 :: f0 :: r1 :: r0 :: w1 :: w0 :: rest => do
    let n := 2 * (be16 w1 w0).toNat
    require (decide (n ≤ rest.length)) .byteCountMismatch
    let subs ← fileWrites fuel (rest.drop n)
    return ⟨refType, be16 f1 f0, be16 r1 r0, wordsOf (rest.take n)⟩ :: subs
  | _, _ => .error .byteCountMismatch

/-- The counted sub-requests of a WriteFileRecord request or response (R225, R226). -/
def decodeFileWrites (body : List Byte) : Except DecodeReason (List FileWrite) := do
  let data ← decodeBC body
  let subs ← fileWrites data.length data
  require (!subs.isEmpty) .byteCountMismatch
  return subs

/-- R225. -/
def decodeWriteFileRecord (body : List Byte) : Except DecodeReason Instr := do
  let subs ← decodeFileWrites body
  return .writeFileRecord subs

/-- R185. -/
def decodeMaskWriteRegister (body : List Byte) : Except DecodeReason Instr := do
  let (reference, andMask, orMask) ← decodeMW body
  return .maskWriteRegister reference andMask orMask

/-- R190. -/
def decodeReadWriteMultiple (body : List Byte) : Except DecodeReason Instr := do
  let (readRef, rest) ← u16 body
  let (readCount, rest) ← u16 rest
  let (writeRef, writeCount, data) ← decodeRCB rest
  require (data.length == 2 * writeCount.toNat) .byteCountMismatch
  return .readWriteMultiple readRef readCount writeRef (wordsOf data)

/-- R230. -/
def decodeReadFIFOQueue (body : List Byte) : Except DecodeReason Instr := do
  let reference ← decodeR body
  return .readFIFOQueue reference

/-- R240: the sub-code is not checked here (R100). -/
def decodeReadMEI (body : List Byte) : Except DecodeReason Instr := do
  let (subCode, rest) ← u8 body
  let (fieldLevel, rest) ← u8 rest
  let (fieldId, rest) ← u8 rest
  atEnd rest
  return .readMEI subCode fieldLevel fieldId

/-! ## The function-code table (R99, R260) -/

/-- The request side of the table: every function code with its decode. -/
def requestTable : List (Byte × (List Byte → Except DecodeReason Instr)) :=
  [ (0x01, decodeReadCoils),
    (0x02, decodeReadInputDiscretes),
    (0x03, decodeReadMultipleRegisters),
    (0x04, decodeReadInputRegisters),
    (0x05, decodeWriteCoil),
    (0x06, decodeWriteSingleRegister),
    (0x07, decodeReadExceptionStatus),
    (0x08, decodeReadSerialDiagnostics),
    (0x0B, decodeReadCommEventCounter),
    (0x0C, decodeReadCommEventLog),
    (0x0F, decodeWriteMultipleCoils),
    (0x10, decodeWriteMultipleRegisters),
    (0x11, decodeReportSlaveID),
    (0x14, decodeReadFileRecord),
    (0x15, decodeWriteFileRecord),
    (0x16, decodeMaskWriteRegister),
    (0x17, decodeReadWriteMultiple),
    (0x18, decodeReadFIFOQueue),
    (0x2B, decodeReadMEI) ]

/-- `createModbusRequest(functionCode)` (R260): the decoder of exactly this byte, if there is one. -/
def createModbusRequest (functionCode : Byte) : Option (List Byte → Except DecodeReason Instr) :=
  requestTable.lookup functionCode

/-- `DecodeRequest` (R261). A PDU has at least its function code (R90); a body after an unrecognized one is ignored. -/
def decode : List Byte → Except Reject Instr
  | [] => .error (.malformed .truncated)
  | functionCode :: body =>
    match createModbusRequest functionCode with
    | none => .error (.illegalFunction functionCode)
    | some decodeBody =>
      match decodeBody body with
      | .ok i => .ok i
      | .error reason => .error (.malformed reason)

/-! ## The encoder -/

/-- The function-code byte of a request (R94). -/
def Instr.functionCode : Instr → Byte
  | .readCoils _ _ => 0x01
  | .readInputDiscretes _ _ => 0x02
  | .readMultipleRegisters _ _ => 0x03
  | .readInputRegisters _ _ => 0x04
  | .writeCoil _ _ => 0x05
  | .writeSingleRegister _ _ => 0x06
  | .readExceptionStatus => 0x07
  | .readSerialDiagnostics _ _ => 0x08
  | .readCommEventCounter => 0x0B
  | .readCommEventLog => 0x0C
  | .writeMultipleCoils _ _ _ => 0x0F
  | .writeMultipleRegisters _ _ => 0x10
  | .reportSlaveID => 0x11
  | .readFileRecord _ => 0x14
  | .writeFileRecord _ => 0x15
  | .maskWriteRegister _ _ _ => 0x16
  | .readWriteMultiple _ _ _ _ => 0x17
  | .readFIFOQueue _ => 0x18
  | .readMEI _ _ _ => 0x2B

/-- A byte-count byte and the bytes it counts (`F_BC`, R93). -/
def counted (data : List Byte) : List Byte := u8Field data.length :: data

/-- The 7 bytes of a ReadFileRecord sub-request (R94). -/
def FileRead.encode (s : FileRead) : List Byte :=
  s.refType :: (bytes16 s.file ++ bytes16 s.record ++ bytes16 s.wordCount)

/-- All the sub-requests, in order. -/
def encodeFileReads : List FileRead → List Byte
  | [] => []
  | s :: rest => s.encode ++ encodeFileReads rest

/-- The header and payload of a WriteFileRecord sub-request (R94). -/
def FileWrite.encode (s : FileWrite) : List Byte :=
  s.refType :: (bytes16 s.file ++ bytes16 s.record ++ bytes16 (u16Field s.data.length) ++ bytesOf s.data)

/-- All the sub-requests, in order. -/
def encodeFileWrites : List FileWrite → List Byte
  | [] => []
  | s :: rest => s.encode ++ encodeFileWrites rest

/-- The body of a request (R94). -/
def encodeBody : Instr → List Byte
  | .readCoils reference count => bytes16 reference ++ bytes16 count
  | .readInputDiscretes reference count => bytes16 reference ++ bytes16 count
  | .readMultipleRegisters reference count => bytes16 reference ++ bytes16 count
  | .readInputRegisters reference count => bytes16 reference ++ bytes16 count
  | .writeCoil reference value => bytes16 reference ++ bytes16 value
  | .writeSingleRegister reference value => bytes16 reference ++ bytes16 value
  | .readExceptionStatus => []
  | .readSerialDiagnostics subFunction data => bytes16 subFunction ++ bytes16 data
  | .readCommEventCounter => []
  | .readCommEventLog => []
  | .writeMultipleCoils reference count data => bytes16 reference ++ bytes16 count ++ counted data
  | .writeMultipleRegisters reference values =>
    bytes16 reference ++ bytes16 (u16Field values.length) ++ counted (bytesOf values)
  | .reportSlaveID => []
  | .readFileRecord subs => counted (encodeFileReads subs)
  | .writeFileRecord subs => counted (encodeFileWrites subs)
  | .maskWriteRegister reference andMask orMask => bytes16 reference ++ bytes16 andMask ++ bytes16 orMask
  | .readWriteMultiple readRef readCount writeRef values =>
    bytes16 readRef ++ bytes16 readCount ++ bytes16 writeRef ++ bytes16 (u16Field values.length) ++
      counted (bytesOf values)
  | .readFIFOQueue reference => bytes16 reference
  | .readMEI subCode fieldLevel fieldId => [subCode, fieldLevel, fieldId]

/-- The request PDU of a well-formed request (R90, R94). -/
def encode (i : Instr) : List Byte := i.functionCode :: encodeBody i

/-! ## A word of the opcode table as a message -/

/-- The length of a request PDU, read off its function code and its byte count as R97 says; a byte not there counts as 0. An
unrecognized code is a whole PDU by itself (R261). -/
def requestLength (pdu : List Byte) : Nat :=
  let byteAt (k : Nat) : Nat := (pdu.getD k 0).toNat
  match byteAt 0 with
  | 0x01 => 5
  | 0x02 => 5
  | 0x03 => 5
  | 0x04 => 5
  | 0x05 => 5
  | 0x06 => 5
  | 0x07 => 1
  | 0x08 => 5
  | 0x0B => 1
  | 0x0C => 1
  | 0x0F => 6 + byteAt 5
  | 0x10 => 6 + byteAt 5
  | 0x11 => 1
  | 0x14 => 2 + byteAt 1
  | 0x15 => 2 + byteAt 1
  | 0x16 => 7
  | 0x17 => 10 + byteAt 9
  | 0x18 => 3
  | 0x2B => 4
  | _ => 1

/-- The bytes of `w`, the first byte its bits 7 to 0 (the table's numbering), `nbits` of them in whole bytes. -/
def tableWordBytes (nbits w : Nat) : List Byte :=
  (List.range ((nbits + 7) / 8)).map fun k => BitVec.ofNat 8 ((w % 2 ^ nbits) >>> (8 * k))

/-- The request PDU whose first bits are `w` and whose other bits are 0, as long as its own fields say it is (R97). -/
def tableWordPdu (nbits w : Nat) : List Byte :=
  let given := tableWordBytes nbits w
  given ++ List.replicate (requestLength given - given.length) 0

/-- What the decoder reads from that PDU. -/
def decodeTableWord (nbits w : Nat) : Option Instr :=
  match decode (tableWordPdu nbits w) with
  | .ok i => some i
  | .error _ => none

end Sys2Proof
end

