-- ==== Sys2Proof/Machine/Message.lean ====
section
/-! DEFINITION. The records the engine's commands take and give (R40, R42, R45): headers, requests, responses, outcomes. -/

namespace Sys2Proof.Machine

/-- Construct-error reasons (R273). -/
inductive ConstructReason where
  /-- A count above its cap. -/
  | countCap
  /-- A response record's byte count disagrees with its data. -/
  | byteCountMismatch
  /-- A byte count would exceed 255. -/
  | byteCountOverflow
  /-- A field outside its value set. -/
  | fieldValue
  /-- More than 64 event bytes. -/
  | eventCap
  /-- More than 249 device-data bytes. -/
  | deviceDataCap
  /-- A file-record request's data length is above 248. -/
  | fileRequestCap
  /-- A file-record message with no sub-request. -/
  | noSubRequests
  /-- More than 64 MEI fields. -/
  | meiFieldCap
  /-- The framed length would not fit its field (R135). -/
  | lengthOverflow
deriving DecidableEq, Repr

/-- The three exception kinds (R13, R265, R301). -/
inductive ExceptionKind where
  | illegalFunction
  | illegalAddress
  | illegalValue
deriving DecidableEq, Repr

/-- The mode of a message (R45) and the ids that only a framed one has (R130, R131, R133). -/
inductive Framing where
  | headless
  | framed (transactionID protocolID : U16)
deriving DecidableEq, Repr

/-- The header record of a message (R45). -/
structure Header where
  framing      : Framing
  unitID       : Byte
  functionCode : Byte
deriving DecidableEq, Repr

/-- The five header fields a caller can get and set (R136), as ENC_REQ and ENC_RSP take them. The ids are used only when framed
(R267), and the command's own flag stands for `headless` (R136). -/
structure HeaderFields where
  transactionID : U16
  protocolID    : U16
  unitID        : Byte
  functionCode  : Byte
  headless      : Bool
deriving DecidableEq, Repr

/-- The request record DEC_REQ gives (R261): one of the 19, or the Illegal-Function placeholder. -/
inductive Request where
  | instr (i : Instr)
  | illegalFunction (functionCode : Byte)
deriving DecidableEq, Repr

/-- The request record ENC_REQ takes (R267), with the fields each master-side rule names; counts and byte counts of a multiple
write are computed from its values, as in the written forms of R104 and R105. -/
inductive RequestRecord where
  /-- R151. -/
  | readCoils (reference count : U16)
  /-- R153. -/
  | readInputDiscretes (reference count : U16)
  /-- R155. -/
  | readMultipleRegisters (reference count : U16)
  /-- R157. -/
  | readInputRegisters (reference count : U16)
  /-- R171. -/
  | writeCoil (reference value : U16)
  /-- R174. -/
  | writeSingleRegister (reference value : U16)
  /-- R201. -/
  | readExceptionStatus
  /-- R206. -/
  | readSerialDiagnostics (subFunction data : U16)
  /-- R211. -/
  | readCommEventCounter
  /-- R214. -/
  | readCommEventLog
  /-- R177. -/
  | writeMultipleCoils (reference : U16) (bits : List Bool)
  /-- R181. -/
  | writeMultipleRegisters (reference : U16) (values : List U16)
  /-- R217. -/
  | reportSlaveID
  /-- R222. -/
  | readFileRecord (subs : List FileRead)
  /-- R226. -/
  | writeFileRecord (subs : List FileWrite)
  /-- R186. -/
  | maskWriteRegister (reference andMask orMask : U16)
  /-- R191. -/
  | readWriteMultiple (readRef readCount writeRef : U16) (values : List U16)
  /-- R231. -/
  | readFIFOQueue (reference : U16)
  /-- R241. -/
  | readMEI (subCode fieldLevel fieldId : Byte)
deriving DecidableEq, Repr

/-- The response record (R268, R270): a normal response of each function code, an exception response, or the generic shell of an
unrecognized code. -/
inductive Response where
  /-- The packed bytes as sent (R151). -/
  | readCoils (byteCount : Byte) (data : List Byte)
  /-- R153. -/
  | readInputDiscretes (byteCount : Byte) (data : List Byte)
  /-- R155. -/
  | readMultipleRegisters (values : List U16)
  /-- R157. -/
  | readInputRegisters (values : List U16)
  /-- R171. -/
  | writeCoil (reference value : U16)
  /-- R174. -/
  | writeSingleRegister (reference value : U16)
  /-- R201. -/
  | readExceptionStatus (status : Byte)
  /-- R206. -/
  | readSerialDiagnostics (subFunction data : U16)
  /-- R211. -/
  | readCommEventCounter (status eventCount : U16)
  /-- R214. -/
  | readCommEventLog (status eventCount messageCount : U16) (events : List Byte)
  /-- R177. -/
  | writeMultipleCoils (reference count : U16)
  /-- R181. -/
  | writeMultipleRegisters (reference count : U16)
  /-- R217. -/
  | reportSlaveID (slaveId runStatus : Byte) (deviceData : List Byte)
  /-- One word list per sub-request (R222). -/
  | readFileRecord (records : List (List U16))
  /-- The echo (R226). -/
  | writeFileRecord (subs : List FileWrite)
  /-- R186. -/
  | maskWriteRegister (reference andMask orMask : U16)
  /-- R191. -/
  | readWriteMultiple (values : List U16)
  /-- R231. -/
  | readFIFOQueue (values : List U16)
  /-- R241. -/
  | readMEI (subCode fieldLevel conformity moreFollows nextFieldId : Byte) (fields : List MeiField)
  /-- `ExceptionResponse{fc, code}` (R270). -/
  | exception (functionCode code : Byte)
  /-- `UnknownResponse{fc, body}` (R271). -/
  | unknown (functionCode : Byte) (body : List Byte)
deriving DecidableEq, Repr

/-- What a command gives with status `OK` (R42). -/
inductive Output where
  /-- SERVE, ENC_RSP and ENC_REQ give bytes. -/
  | bytes (adu : List Byte)
  /-- DEC_REQ gives a header and a request record. -/
  | request (header : Header) (record : Request)
  /-- DEC_RSP gives a header and a response record. -/
  | response (header : Header) (record : Response)
deriving DecidableEq, Repr

/-- The outcome of a command: its status and what the status carries (R42). -/
inductive Result where
  | ok (output : Output)
  | decodeError (reason : DecodeReason)
  | constructError (reason : ConstructReason)
deriving DecidableEq, Repr

/-- A command at the command port with its inputs (R40, R41). -/
inductive Command where
  | serve  (headless : Bool) (input : List Byte)
  | decReq (headless : Bool) (input : List Byte)
  | encRsp (headless : Bool) (header : HeaderFields) (record : Response)
  | encReq (headless : Bool) (header : HeaderFields) (record : RequestRecord)
  | decRsp (headless : Bool) (input : List Byte)
deriving DecidableEq, Repr

end Sys2Proof.Machine
end

