-- ==== Sys2Proof/Machine/State.lean ====
section
/-! DEFINITION. The state of the machine as plain data (R34, R43, R44, R47), the reasons a step can stop, and the state after
reset. INVENTORY.md lists every field with its rule and its reset value. -/

namespace Sys2Proof.Machine

/-- One space of the process image: the listed references with their elements. -/
abbrev Memory (β : Type) := List (Nat × β)

/-- What an unlisted reference reads as: false, or 0. The spec gives no initial content (R38); a state may list any content,
and only `State.reset`, which lists none, rests on this choice. DESIGN CHOICE, unsafe (log entry 1). -/
abbrev Memory.blank {β : Type} [Inhabited β] : β := default

/-- The process image (R34). A FILE element's reference is `fileKey` of its file, record and register number. -/
structure Image where
  /-- `DI`. -/
  di : Memory Bool
  /-- `COIL`. -/
  coil : Memory Bool
  /-- `IR`. -/
  ir : Memory U16
  /-- `HR`. -/
  hr : Memory U16
  /-- `FILE`. -/
  file : Memory U16
deriving DecidableEq, Repr

/-- The device-status inputs as they stand now (R44). -/
structure Device where
  exceptionStatus : Byte
  commStatus      : U16
  eventCount      : U16
  messageCount    : U16
  events          : List Byte
  slaveId         : Byte
  runStatus       : Byte
  deviceData      : List Byte
deriving DecidableEq, Repr

/-- Who, other than this engine, writes the image (R36, R39, R68). Engine instances have no identifier (R315): this model counts
itself as number 0 and the others from 1 (log entry 6). -/
inductive Agent where
  | engine (number : Nat)
  | application
deriving DecidableEq, Repr

/-- One element write (R12, R64, R66). -/
inductive ElementWrite where
  | di (reference : Nat) (value : Bool)
  | coil (reference : Nat) (value : Bool)
  | ir (reference : Nat) (value : U16)
  | hr (reference : Nat) (value : U16)
  | file (file record register : Nat) (value : U16)
deriving DecidableEq, Repr

/-- What can happen outside this engine between two of its accesses. Reads by other agents change nothing (R67) and are no
events. -/
inductive Event where
  /-- Another agent writes an element (R68). -/
  | write (agent : Agent) (access : ElementWrite)
  /-- The device-status inputs take new values (R44). -/
  | device (inputs : Device)
  /-- The host resets this engine (R340). -/
  | reset
deriving DecidableEq, Repr

/-- The transaction latches (R43): none is readable by a command and none survives a transaction. -/
structure Latches where
  header   : Header
  request  : Option Request
  response : Option Response
  cursor   : Nat
  output   : List Byte
deriving DecidableEq, Repr

/-- The latches of an engine that runs no transaction. The spec leaves their values unspecified and no rule reads them before a
write (R43, R47). DESIGN CHOICE, safe (log entry 4). -/
def Latches.idle : Latches where
  header := { framing := .headless, unitID := 0, functionCode := 0 }
  request := none
  response := none
  cursor := 0
  output := []

/-- The machine: the engine, the image and inputs it is attached to, and its ports (R7, R47). -/
structure State where
  /-- The configuration parameters (R8); no step changes them (R35). -/
  cfg : Params
  /-- The process image (R34). -/
  image : Image
  /-- The device-status input port (R44). -/
  dev : Device
  /-- What the other agents do (R68, R71): the n-th slot takes effect at the n-th point from now at which another agent's access
  may fall. The model's own field; empty means no other agent is active (log entry 5). -/
  schedule : List (List Event)
  /-- The commands the host has still to issue, the next one first (R40); the engine itself queues nothing (R46). -/
  commands : List Command
  /-- The transaction latches (R43). -/
  latches : Latches
  /-- The output interface (R42): the outcome of the last command, if it had one. -/
  outcome : Option Result
deriving DecidableEq, Repr

/-- Why the machine stops. No transaction of the engine reaches this (R65, R275); it is there so that the model says it rather
than assumes it. -/
inductive Fault where
  /-- Raised by the element accessors of Machine/Ops.lean when asked for an element outside its space ("fail with an
  address-range error", R6, R65). Safe: the machine stops where the spec performs no access (log entry 17). -/
  | addressRange
deriving DecidableEq, Repr

/-- Why an instruction has no meaning. -/
inductive Refusal where
  /-- Raised by `exec` for an instruction of the table that has no meaning yet. Safe. No arm raises it. -/
  | notModelled (mnemonic : String)
deriving DecidableEq, Repr

/-- The configuration of the model's reset state: every space at its largest (CFG-A of 95_test_vectors.md), the file table of
CFG-F, `MAX_READ_REGS` 125 and the identity `DIAG_HANDLER` (R8). The sizes, the file table, the MEI answers and the number of
engines are DESIGN CHOICE, unsafe (log entry 2). -/
def Params.reset : Params where
  nDI := 65536
  nCOIL := 65536
  nIR := 65536
  nHR := 65536
  files := [⟨10, [⟨10000, 200⟩]⟩]
  maxReadRegs := 125
  diagRows := []
  meiRows := []
  meiDefault := .illegalAddress
  nEngines := 1

/-- The device inputs of the model's reset state. DESIGN CHOICE, unsafe (log entry 3). -/
def Device.reset : Device where
  exceptionStatus := 0
  commStatus := 0
  eventCount := 0
  messageCount := 0
  events := []
  slaveId := 0
  runStatus := 0
  deviceData := []

/-- The engine right after reset: idle, no transaction in progress (R47, R340). The engine does not reset the image, the device
inputs or the configuration (R341); the values they have here are the model's (log entries 1 to 3). -/
def State.reset : State where
  cfg := Params.reset
  image := { di := [], coil := [], ir := [], hr := [], file := [] }
  dev := Device.reset
  schedule := []
  commands := []
  latches := Latches.idle
  outcome := none

end Sys2Proof.Machine
end

