-- ==== Sys2Proof/Machine/Params.lean ====
section
/-! DEFINITION. Reading the configuration parameters (R8): the sizes of the spaces and of the file table, `DIAG_HANDLER` and
`MEI_TABLE`, and the value sets the spec requires of them. -/

namespace Sys2Proof.Machine

/-- The spaces of single booleans (R34). -/
inductive BitSpace where
  | di
  | coil
deriving DecidableEq, Repr

/-- The spaces of 16-bit registers (R34). -/
inductive WordSpace where
  | ir
  | hr
deriving DecidableEq, Repr

/-- `N_S` of a space of booleans (R34). -/
def Params.bitSize (p : Params) : BitSpace → Nat
  | .di => p.nDI
  | .coil => p.nCOIL

/-- `N_S` of a space of registers (R34). -/
def Params.wordSize (p : Params) : WordSpace → Nat
  | .ir => p.nIR
  | .hr => p.nHR

/-- The files of a run-length table. -/
def fileTotal : List FileRun → Nat
  | [] => 0
  | run :: rest => run.count + fileTotal rest

/-- The records of a run-length table. -/
def recordTotal : List RecordRun → Nat
  | [] => 0
  | run :: rest => run.count + recordTotal rest

/-- The records of file `f`; none if there is no such file. -/
def fileAt : List FileRun → Nat → List RecordRun
  | [], _ => []
  | run :: rest, f => if f < run.count then run.records else fileAt rest (f - run.count)

/-- The registers of record `r`; none if there is no such record. -/
def recordAt : List RecordRun → Nat → Nat
  | [], _ => 0
  | run :: rest, r => if r < run.count then run.words else recordAt rest (r - run.count)

/-- `N_FILES` (R8). -/
def Params.nFiles (p : Params) : Nat := fileTotal p.files

/-- `RECORDS(f)` (R8). -/
def Params.records (p : Params) (f : Nat) : Nat := recordTotal (fileAt p.files f)

/-- `WORDS(f, r)` (R8). -/
def Params.words (p : Params) (f r : Nat) : Nat := recordAt (fileAt p.files f) r

/-- `DIAG_HANDLER` (R205): the first row that matches, or the identity. -/
def diagLookup (subFunction data : U16) : List DiagRow → U16 × U16
  | [] => (subFunction, data)
  | row :: rest =>
    if row.subFunction = subFunction ∧ row.data = data then (row.subFunction', row.data')
    else diagLookup subFunction data rest

/-- `DIAG_HANDLER` of an instance (R8, R205). -/
def Params.diagHandler (p : Params) (subFunction data : U16) : U16 × U16 := diagLookup subFunction data p.diagRows

/-- The first row of an `MEI_TABLE` that matches, or the default answer (R242). -/
def meiLookup (fieldLevel fieldId : Byte) (otherwise : MeiAnswer) : List MeiRow → MeiAnswer
  | [] => otherwise
  | row :: rest =>
    if row.fieldLevel = fieldLevel ∧ row.fieldId = fieldId then row.answer
    else meiLookup fieldLevel fieldId otherwise rest

/-- `MEI_TABLE` of an instance (R8, R242). -/
def Params.meiTable (p : Params) (fieldLevel fieldId : Byte) : MeiAnswer :=
  meiLookup fieldLevel fieldId p.meiDefault p.meiRows

/-- An answer in the domain R242 gives. -/
def MeiAnswer.wf : MeiAnswer → Bool
  | .illegalAddress => true
  | .illegalValue => true
  | .objects _ moreFollows _ fields =>
    (moreFollows == 0x00 || moreFollows == 0xFF) && decide (fields.length ≤ Config.maxMeiFields) &&
      fields.all fun f => decide (f.text.length ≤ 255)

/-- A run of files with at most 10000 records each of at most 65535 registers (R8). -/
def FileRun.wf (run : FileRun) : Bool :=
  decide (recordTotal run.records ≤ 10000) && run.records.all fun r => decide (r.words ≤ 65535)

/-- Every parameter is in the range R8 gives it. -/
def Params.wf (p : Params) : Bool :=
  decide (p.nDI ≤ 65536) && decide (p.nCOIL ≤ 65536) && decide (p.nIR ≤ 65536) && decide (p.nHR ≤ 65536) &&
    decide (p.nFiles ≤ 65536) && p.files.all FileRun.wf && decide (p.maxReadRegs ≤ 127) &&
    p.meiRows.all (fun row => row.answer.wf) && p.meiDefault.wf && decide (1 ≤ p.nEngines)

end Sys2Proof.Machine
end

