-- ==== Sys2Proof/Machine/Flags.lean ====
section
/-! DEFINITION. The engine has no flags and no condition codes (R33), and no instruction computes one. This file holds the
flag-like single-bit values of messages that R33 names (the exception bit of the function-code byte and the two-valued
moreFollows byte; the headless flag is a field of `Header`) and the other two-valued fields. -/

namespace Sys2Proof.Machine

/-- Bit 7 of a function-code byte marks an exception response (R92, R101). -/
def isException (functionCode : Byte) : Bool := functionCode &&& 0x80 != 0

/-- `fc | 0x80` (R301). -/
def withExceptionBit (functionCode : Byte) : Byte := functionCode ||| 0x80

/-- `byte & 0x7F` (R101). -/
def withoutExceptionBit (functionCode : Byte) : Byte := functionCode &&& 0x7F

/-- moreFollows ∈ {0x00, 0xFF} (R33, R240). -/
def moreFollowsLegal (v : Byte) : Bool := v == 0x00 || v == 0xFF

/-- runStatus ∈ {0x00, 0xFF} (R216). -/
def runStatusLegal (v : Byte) : Bool := v == 0x00 || v == 0xFF

/-- commStatus ∈ {0x0000, 0xFFFF} (R210). -/
def commStatusLegal (v : U16) : Bool := v == 0x0000 || v == 0xFFFF

/-- The wire constant of a coil that is on (R96), `ON` in R105. -/
def coilOn : U16 := 0xFF00

/-- The wire constant of a coil that is off (R96), `OFF` in R105. -/
def coilOff : U16 := 0x0000

/-- A WriteCoil value is one of the two constants (R170). -/
def coilValueLegal (v : U16) : Bool := v == coilOn || v == coilOff

end Sys2Proof.Machine
end

