-- ==== Sys2Proof/Machine/Operands.lean ====
section
/-! DEFINITION. The address validator (R262 to R264, R221) and the operand computations of the instructions. A reference and a
count are natural numbers here, so no sum wraps (R9, R96). -/

namespace Sys2Proof.Machine

/-- `ValidRead(S, ref, n)` for a space of size `size` (R262). -/
def validRead (size ref n : Nat) : Bool := decide (ref + n < 65536) && (n == 0 || decide (ref + n ≤ size))

/-- `ValidWrite(S, ref, n)` (R263). -/
def validWrite (size ref n : Nat) : Bool := n == 0 || decide (ref + n ≤ size)

/-- `ValidOne(S, ref)` (R264). -/
def validOne (size ref : Nat) : Bool := decide (ref < size)

/-- A file element exists (R78). -/
def Params.fileExists (p : Params) (f r i : Nat) : Bool :=
  decide (f < p.nFiles) && decide (r ≤ Config.maxRecord) && decide (r < p.records f) && decide (i < p.words f r)

/-- `CheckSub` (R221): the exception of the first check that fails, if one does. -/
def checkSub (p : Params) (refType : Byte) (f r wordCount : Nat) : Option ExceptionKind :=
  if refType ≠ Config.fileRefType then some .illegalValue
  else if p.nFiles ≤ f then some .illegalAddress
  else if Config.maxRecord < r ∨ p.records f ≤ r then some .illegalAddress
  else if p.words f r < wordCount then some .illegalAddress
  else none

/-- `CheckSub` of a ReadFileRecord sub-request. -/
def checkFileRead (p : Params) (s : FileRead) : Option ExceptionKind :=
  checkSub p s.refType s.file.toNat s.record.toNat s.wordCount.toNat

/-- `CheckSub` of a WriteFileRecord sub-request; its wordCount is the number of its words. -/
def checkFileWrite (p : Params) (s : FileWrite) : Option ExceptionKind :=
  checkSub p s.refType s.file.toNat s.record.toNat s.data.length

/-- The byteCount of a ReadFileRecord response (R220): the sum of `2 + 2 * wordCount`. -/
def fileReadTotal : List FileRead → Nat
  | [] => 0
  | s :: rest => 2 + 2 * s.wordCount.toNat + fileReadTotal rest

/-- The mask-write function (R185): `(v & andMask) | (orMask & ~andMask)`. -/
def maskWrite (v andMask orMask : U16) : U16 := (v &&& andMask) ||| (orMask &&& ~~~andMask)

/-- The reference of a FILE element in `Image.file`: its file, record and register number side by side. -/
def fileKey (f r i : Nat) : Nat := (f * 65536 + r) * 65536 + i

end Sys2Proof.Machine
end

