-- ==== Sys2Proof/Machine/Header.lean ====
section
/-! DEFINITION. The message header and the wrapping of a PDU into an ADU (40_header.md, R130 to R137). -/

namespace Sys2Proof.Machine

/-- The headless flag of a header (R45). -/
def Header.headless (h : Header) : Bool :=
  match h.framing with
  | .headless => true
  | .framed _ _ => false

/-- The transactionID, none when headless (R133). -/
def Header.transactionID (h : Header) : Option U16 :=
  match h.framing with
  | .headless => none
  | .framed tid _ => some tid

/-- The protocolID, none when headless (R133). -/
def Header.protocolID (h : Header) : Option U16 :=
  match h.framing with
  | .headless => none
  | .framed _ pid => some pid

/-- The header a command encodes with: the record's fields and the command's own headless flag (R136, R267, R268). The record's function
code is not encoded: the PDU begins with its own (log entry 22). -/
def headerFor (headless : Bool) (h : HeaderFields) : Header where
  framing := if headless then .headless else .framed h.transactionID h.protocolID
  unitID := h.unitID
  functionCode := h.functionCode

/-- The header of a response: the request's, with the function code that the response PDU begins with (R269). -/
def responseHeader (h : Header) (pdu : List Byte) : Header :=
  match pdu with
  | [] => h
  | functionCode :: _ => { h with functionCode := functionCode }

/-- The part of `DecodeADU` after the framed fields (R133): the unit id and a PDU of at least one byte. -/
def decodeUnit (framing : Framing) (input : List Byte) : Except DecodeReason (Header × List Byte) := do
  let (unit, pdu) ← u8 input
  let (functionCode, _) ← u8 pdu
  return ({ framing := framing, unitID := unit, functionCode := functionCode }, pdu)

/-- `DecodeADU` (R133). A framed message of 6 or 7 bytes whose length field is wrong is LengthMismatch (log entry 23). -/
def decodeADU (headless : Bool) (input : List Byte) : Except DecodeReason (Header × List Byte) :=
  if headless then decodeUnit .headless input
  else do
    let (tid, rest) ← u16 input
    let (pid, rest) ← u16 rest
    let (len, rest) ← u16 rest
    require (len.toNat == input.length - 6) .lengthMismatch
    decodeUnit (.framed tid pid) rest

/-- `EncodeADU` (R135). The overflow check stands for both modes (log entry 16). -/
def encodeADU (h : Header) (pdu : List Byte) : Except ConstructReason (List Byte) :=
  if 65535 < 1 + pdu.length then .error .lengthOverflow
  else
    match h.framing with
    | .headless => .ok (h.unitID :: pdu)
    | .framed tid pid =>
      .ok (bytes16 tid ++ bytes16 pid ++ bytes16 (u16Field (1 + pdu.length)) ++ h.unitID :: pdu)

/-- `getDataLength` of the message with this PDU (R134). -/
def getDataLength (pdu : List Byte) : Nat := pdu.length - 1

/-- `getMessage` of the message with this PDU (R134). -/
def getMessage (pdu : List Byte) : List Byte := pdu.tail

/-- `getHexMessage` of a message's bytes, in the open format (R137). -/
def getHexMessage (message : List Byte) : String := Config.hexFormat message

end Sys2Proof.Machine
end

