-- ==== Sys2Proof/Machine/Response.lean ====
section
/-! DEFINITION. The response codec: ENC_RSP's PDU of each response record (R268) and DEC_RSP's record of each response PDU (R270),
by the master-side rules of the three families. Several construct errors of one record are checked in the order its rule lists
them (log entry 12). -/

namespace Sys2Proof.Machine

/-- A construct check (R273). -/
def constructRequire (holds : Bool) (otherwise : ConstructReason) : Except ConstructReason Unit :=
  if holds then .ok () else .error otherwise

/-- A file sub-request's field checks at construction, for both sides (R222, R226, R273 with decision D27). -/
def fileFieldsLegal (refType : Byte) (record : U16) : Bool :=
  refType == Config.fileRefType && decide (record.toNat ≤ Config.maxRecord)

/-! ## Encoding -/

/-- `{byteCount, data}` of a bit read (R151, R153). A byteCount of 251 to 255, more than the 2000 bits of R273's CountCap take, is
accepted: the model's choice, log entry 27. -/
def encodeBits (functionCode byteCount : Byte) (data : List Byte) : Except ConstructReason (List Byte) := do
  constructRequire (data.length == byteCount.toNat) .byteCountMismatch
  return functionCode :: byteCount :: data

/-- `{values}` of a register read (R155, R157, R191). Values above MAX_READ_REGS, a cap of R273's CountCap, are accepted up to the 127
that a byteCount can carry: the model's choice, log entry 27. -/
def encodeWords (functionCode : Byte) (values : List U16) : Except ConstructReason (List Byte) := do
  constructRequire (decide (2 * values.length ≤ 255)) .byteCountMismatch
  return functionCode :: counted (bytesOf values)

/-- One sub-response of ReadFileRecord (R95, R220). -/
def encodeRecord (words : List U16) : List Byte :=
  u8Field (1 + 2 * words.length) :: Config.fileRefType :: bytesOf words

/-- All the sub-responses, in order. -/
def encodeRecords : List (List U16) → List Byte
  | [] => []
  | words :: rest => encodeRecord words ++ encodeRecords rest

/-- The byteCount of a ReadFileRecord response. -/
def recordsTotal : List (List U16) → Nat
  | [] => 0
  | words :: rest => 2 + 2 * words.length + recordsTotal rest

/-- The fields of a ReadMEI response (R240). -/
def encodeMeiFields : List MeiField → List Byte
  | [] => []
  | f :: rest => f.id :: u8Field f.text.length :: (f.text ++ encodeMeiFields rest)

/-- The function codes of the table (R99). -/
def recognized (functionCode : Byte) : Bool := (requestTable.lookup functionCode).isSome

/-- The PDU ENC_RSP builds from a response record, or its construct error (R268, R273). That CountCap and FileRequestCap are checked
only where the record's own rule names them is the model's choice, log entry 27. -/
def encodeResponse : Response → Except ConstructReason (List Byte)
  -- R151
  | .readCoils byteCount data => encodeBits 0x01 byteCount data
  -- R153
  | .readInputDiscretes byteCount data => encodeBits 0x02 byteCount data
  -- R155
  | .readMultipleRegisters values => encodeWords 0x03 values
  -- R157
  | .readInputRegisters values => encodeWords 0x04 values
  -- R171
  | .writeCoil reference value => do
    constructRequire (coilValueLegal value) .fieldValue
    return 0x05 :: (bytes16 reference ++ bytes16 value)
  -- R174
  | .writeSingleRegister reference value => .ok (0x06 :: (bytes16 reference ++ bytes16 value))
  -- R201
  | .readExceptionStatus status => .ok [0x07, status]
  -- R206
  | .readSerialDiagnostics subFunction data => .ok (0x08 :: (bytes16 subFunction ++ bytes16 data))
  -- R211
  | .readCommEventCounter status eventCount => do
    constructRequire (commStatusLegal status) .fieldValue
    return 0x0B :: (bytes16 status ++ bytes16 eventCount)
  -- R214
  | .readCommEventLog status eventCount messageCount events => do
    constructRequire (decide (events.length ≤ Config.maxEvents)) .eventCap
    constructRequire (commStatusLegal status) .fieldValue
    return 0x0C :: counted (bytes16 status ++ bytes16 eventCount ++ bytes16 messageCount ++ events)
  -- R177
  | .writeMultipleCoils reference count => .ok (0x0F :: (bytes16 reference ++ bytes16 count))
  -- R181
  | .writeMultipleRegisters reference count => .ok (0x10 :: (bytes16 reference ++ bytes16 count))
  -- R217
  | .reportSlaveID slaveId runStatus deviceData => do
    constructRequire (decide (deviceData.length ≤ Config.maxDeviceData)) .deviceDataCap
    constructRequire (runStatusLegal runStatus) .fieldValue
    return 0x11 :: counted (slaveId :: runStatus :: deviceData)
  -- R222; an empty list is no record of that rule (log entry 13)
  | .readFileRecord records => do
    constructRequire (!records.isEmpty) .noSubRequests
    constructRequire (decide (recordsTotal records ≤ 255)) .byteCountOverflow
    return 0x14 :: counted (encodeRecords records)
  -- R226 with R273 and D27; the first and the last check are those of log entry 13, the order is that of log entry 25
  | .writeFileRecord subs => do
    constructRequire (!subs.isEmpty) .noSubRequests
    constructRequire (subs.all fun s => fileFieldsLegal s.refType s.record) .fieldValue
    constructRequire (decide (fileWriteBytes subs ≤ 255)) .byteCountOverflow
    return 0x15 :: counted (encodeFileWrites subs)
  -- R186
  | .maskWriteRegister reference andMask orMask =>
    .ok (0x16 :: (bytes16 reference ++ bytes16 andMask ++ bytes16 orMask))
  -- R191
  | .readWriteMultiple values => encodeWords 0x17 values
  -- R231
  | .readFIFOQueue values => do
    constructRequire (decide (values.length ≤ Config.maxFifo)) .countCap
    return 0x18 :: (bytes16 (u16Field (2 + 2 * values.length)) ++ bytes16 (u16Field values.length) ++ bytesOf values)
  -- R241; the sub-code check is that of log entry 14
  | .readMEI subCode fieldLevel conformity moreFollows nextFieldId fields => do
    constructRequire (decide (fields.length ≤ Config.maxMeiFields)) .meiFieldCap
    constructRequire (subCode == Config.meiSubcode && moreFollowsLegal moreFollows &&
      fields.all fun f => decide (f.text.length ≤ 255)) .fieldValue
    return 0x2B :: subCode :: fieldLevel :: conformity :: moreFollows :: nextFieldId :: u8Field fields.length ::
      encodeMeiFields fields
  -- R268
  | .exception functionCode code => do
    constructRequire (!isException functionCode) .fieldValue
    return [withExceptionBit functionCode, code]
  -- R268, R271; a code that is recognized or has bit 7 set is no record of R271 (log entry 15)
  | .unknown functionCode body => do
    constructRequire (!isException functionCode && !recognized functionCode) .fieldValue
    return functionCode :: body

/-! ## Decoding -/

/-- The words of an even-length `F_BC` response (R155). The byte count's parity is checked before the words are read, as the steps of
R155 have it and R306 and the convention of 42_write.md do not: log entry 26. -/
def decodeWords (body : List Byte) : Except DecodeReason (List U16) := do
  let (n, rest) ← u8 body
  require (n.toNat % 2 == 0) .byteCountMismatch
  let (data, rest) ← bytes n.toNat rest
  atEnd rest
  return wordsOf data

/-- The sub-responses of a ReadFileRecord response (R222). Each takes at least two bytes, so the body's length is fuel enough. -/
def decodeRecords : Nat → List Byte → Except DecodeReason (List (List U16))
  | _, [] => .ok []
  | fuel + 1, len :: rest => do
    require (len.toNat % 2 == 1 && decide (len.toNat ≤ rest.length)) .byteCountMismatch
    let (refType, words) ← u8 (rest.take len.toNat)
    require (refType == Config.fileRefType) .fieldValue
    let records ← decodeRecords fuel (rest.drop len.toNat)
    return wordsOf words :: records
  | 0, _ :: _ => .error .byteCountMismatch

/-- `fieldCount` fields of a ReadMEI response (R241). -/
def decodeMeiFields : Nat → List Byte → Except DecodeReason (List MeiField × List Byte)
  | 0, input => .ok ([], input)
  | n + 1, input => do
    let (id, rest) ← u8 input
    let (len, rest) ← u8 rest
    let (text, rest) ← bytes len.toNat rest
    let (fields, rest) ← decodeMeiFields n rest
    return (⟨id, text⟩ :: fields, rest)

/-- R151. -/
def decodeReadCoilsResponse (body : List Byte) : Except DecodeReason Response := do
  let data ← decodeBC body
  return .readCoils (u8Field data.length) data

/-- R153. -/
def decodeReadInputDiscretesResponse (body : List Byte) : Except DecodeReason Response := do
  let data ← decodeBC body
  return .readInputDiscretes (u8Field data.length) data

/-- R155. -/
def decodeReadMultipleRegistersResponse (body : List Byte) : Except DecodeReason Response := do
  let values ← decodeWords body
  return .readMultipleRegisters values

/-- R157. -/
def decodeReadInputRegistersResponse (body : List Byte) : Except DecodeReason Response := do
  let values ← decodeWords body
  return .readInputRegisters values

/-- R171. -/
def decodeWriteCoilResponse (body : List Byte) : Except DecodeReason Response := do
  let (reference, value) ← decodeRC body
  require (coilValueLegal value) .fieldValue
  return .writeCoil reference value

/-- R174. -/
def decodeWriteSingleRegisterResponse (body : List Byte) : Except DecodeReason Response := do
  let (reference, value) ← decodeRC body
  return .writeSingleRegister reference value

/-- R201. -/
def decodeReadExceptionStatusResponse (body : List Byte) : Except DecodeReason Response := do
  let (status, rest) ← u8 body
  atEnd rest
  return .readExceptionStatus status

/-- R206. -/
def decodeReadSerialDiagnosticsResponse (body : List Byte) : Except DecodeReason Response := do
  let (subFunction, data) ← decodeRC body
  return .readSerialDiagnostics subFunction data

/-- R211. -/
def decodeReadCommEventCounterResponse (body : List Byte) : Except DecodeReason Response := do
  let (status, eventCount) ← decodeRC body
  require (commStatusLegal status) .fieldValue
  return .readCommEventCounter status eventCount

/-- R214. -/
def decodeReadCommEventLogResponse (body : List Byte) : Except DecodeReason Response := do
  let data ← decodeBC body
  require (decide (6 ≤ data.length) && decide (data.length ≤ 6 + Config.maxEvents)) .byteCountMismatch
  let (status, rest) ← u16 data
  let (eventCount, rest) ← u16 rest
  let (messageCount, events) ← u16 rest
  require (commStatusLegal status) .fieldValue
  return .readCommEventLog status eventCount messageCount events

/-- R177. -/
def decodeWriteMultipleCoilsResponse (body : List Byte) : Except DecodeReason Response := do
  let (reference, count) ← decodeRC body
  return .writeMultipleCoils reference count

/-- R181. -/
def decodeWriteMultipleRegistersResponse (body : List Byte) : Except DecodeReason Response := do
  let (reference, count) ← decodeRC body
  return .writeMultipleRegisters reference count

/-- R217. -/
def decodeReportSlaveIDResponse (body : List Byte) : Except DecodeReason Response := do
  let data ← decodeBC body
  require (decide (2 ≤ data.length) && decide (data.length ≤ 2 + Config.maxDeviceData)) .byteCountMismatch
  let (slaveId, rest) ← u8 data
  let (runStatus, deviceData) ← u8 rest
  require (runStatusLegal runStatus) .fieldValue
  return .reportSlaveID slaveId runStatus deviceData

/-- R222. -/
def decodeReadFileRecordResponse (body : List Byte) : Except DecodeReason Response := do
  let data ← decodeBC body
  require (!data.isEmpty) .byteCountMismatch
  let records ← decodeRecords data.length data
  return .readFileRecord records

/-- R226. -/
def decodeWriteFileRecordResponse (body : List Byte) : Except DecodeReason Response := do
  let subs ← decodeFileWrites body
  return .writeFileRecord subs

/-- R186. -/
def decodeMaskWriteRegisterResponse (body : List Byte) : Except DecodeReason Response := do
  let (reference, andMask, orMask) ← decodeMW body
  return .maskWriteRegister reference andMask orMask

/-- R191. -/
def decodeReadWriteMultipleResponse (body : List Byte) : Except DecodeReason Response := do
  let values ← decodeWords body
  return .readWriteMultiple values

/-- R231. -/
def decodeReadFIFOQueueResponse (body : List Byte) : Except DecodeReason Response := do
  let (byteCount, rest) ← u16 body
  let (data, rest) ← bytes byteCount.toNat rest
  atEnd rest
  require (decide (2 ≤ data.length)) .byteCountMismatch
  let (count, values) ← u16 data
  require (data.length == 2 + 2 * count.toNat && decide (count.toNat ≤ Config.maxFifo)) .byteCountMismatch
  return .readFIFOQueue (wordsOf values)

/-- R241. -/
def decodeReadMEIResponse (body : List Byte) : Except DecodeReason Response := do
  let (subCode, rest) ← u8 body
  let (fieldLevel, rest) ← u8 rest
  let (conformity, rest) ← u8 rest
  let (moreFollows, rest) ← u8 rest
  let (nextFieldId, rest) ← u8 rest
  let (fieldCount, rest) ← u8 rest
  let (fields, rest) ← decodeMeiFields fieldCount.toNat rest
  atEnd rest
  require (decide (fieldCount.toNat ≤ Config.maxMeiFields) && moreFollowsLegal moreFollows &&
    subCode == Config.meiSubcode) .fieldValue
  return .readMEI subCode fieldLevel conformity moreFollows nextFieldId fields

/-- The response side of the function-code table (R260). -/
def responseTable : List (Byte × (List Byte → Except DecodeReason Response)) :=
  [ (0x01, decodeReadCoilsResponse),
    (0x02, decodeReadInputDiscretesResponse),
    (0x03, decodeReadMultipleRegistersResponse),
    (0x04, decodeReadInputRegistersResponse),
    (0x05, decodeWriteCoilResponse),
    (0x06, decodeWriteSingleRegisterResponse),
    (0x07, decodeReadExceptionStatusResponse),
    (0x08, decodeReadSerialDiagnosticsResponse),
    (0x0B, decodeReadCommEventCounterResponse),
    (0x0C, decodeReadCommEventLogResponse),
    (0x0F, decodeWriteMultipleCoilsResponse),
    (0x10, decodeWriteMultipleRegistersResponse),
    (0x11, decodeReportSlaveIDResponse),
    (0x14, decodeReadFileRecordResponse),
    (0x15, decodeWriteFileRecordResponse),
    (0x16, decodeMaskWriteRegisterResponse),
    (0x17, decodeReadWriteMultipleResponse),
    (0x18, decodeReadFIFOQueueResponse),
    (0x2B, decodeReadMEIResponse) ]

/-- `createModbusResponse(functionCode)` (R260): the decoder of exactly this byte, if there is one. -/
def createModbusResponse (functionCode : Byte) : Option (List Byte → Except DecodeReason Response) :=
  responseTable.lookup functionCode

/-- The body of an exception response: exactly one byte (R270). -/
def decodeExceptionResponse (functionCode : Byte) (body : List Byte) : Except DecodeReason Response := do
  let (code, rest) ← u8 body
  atEnd rest
  return .exception (withoutExceptionBit functionCode) code

/-- The response record of a PDU (R270): bit 7 first, then the table, then the generic shell (R271). -/
def decodeResponse : List Byte → Except DecodeReason Response
  | [] => .error .truncated
  | functionCode :: body =>
    if isException functionCode then decodeExceptionResponse functionCode body
    else
      match createModbusResponse functionCode with
      | some decodeBody => decodeBody body
      | none => .ok (.unknown functionCode body)

end Sys2Proof.Machine
end

