-- ==== Sys2Proof/Machine/Master.lean ====
section
/-! DEFINITION. The request encoder of the master side (ENC_REQ, R267), by the master-side rule of each function code. Several
construct errors of one record are checked in the order its rule lists them (log entry 12). -/

namespace Sys2Proof.Machine

/-- `ceil(count / 8)` fits a byte (R177). -/
def coilBytesFit (bits : List Bool) : Bool := decide (packedLength bits.length ≤ 255)

/-- The request a record stands for: what DEC_REQ gives back (R274 (a)). The bits of a WriteMultipleCoils come back packed. -/
def RequestRecord.instr : RequestRecord → Instr
  | .readCoils reference count => .readCoils reference count
  | .readInputDiscretes reference count => .readInputDiscretes reference count
  | .readMultipleRegisters reference count => .readMultipleRegisters reference count
  | .readInputRegisters reference count => .readInputRegisters reference count
  | .writeCoil reference value => .writeCoil reference value
  | .writeSingleRegister reference value => .writeSingleRegister reference value
  | .readExceptionStatus => .readExceptionStatus
  | .readSerialDiagnostics subFunction data => .readSerialDiagnostics subFunction data
  | .readCommEventCounter => .readCommEventCounter
  | .readCommEventLog => .readCommEventLog
  | .writeMultipleCoils reference bits =>
    .writeMultipleCoils reference (u16Field bits.length) (packLsb bits (packedLength bits.length))
  | .writeMultipleRegisters reference values => .writeMultipleRegisters reference values
  | .reportSlaveID => .reportSlaveID
  | .readFileRecord subs => .readFileRecord subs
  | .writeFileRecord subs => .writeFileRecord subs
  | .maskWriteRegister reference andMask orMask => .maskWriteRegister reference andMask orMask
  | .readWriteMultiple readRef readCount writeRef values => .readWriteMultiple readRef readCount writeRef values
  | .readFIFOQueue reference => .readFIFOQueue reference
  | .readMEI subCode fieldLevel fieldId => .readMEI subCode fieldLevel fieldId

/-- The construct checks of a request record (R151 to R241). That the cap of 2000 bits is checked for reads only, and not for
WriteMultipleCoils, is the model's choice, log entry 27. -/
def RequestRecord.check (p : Params) : RequestRecord → Except ConstructReason Unit
  -- R151, R153
  | .readCoils _ count => constructRequire (decide (count.toNat ≤ Config.maxReadBits)) .countCap
  | .readInputDiscretes _ count => constructRequire (decide (count.toNat ≤ Config.maxReadBits)) .countCap
  -- R155, R157
  | .readMultipleRegisters _ count => constructRequire (decide (count.toNat ≤ p.maxReadRegs)) .countCap
  | .readInputRegisters _ count => constructRequire (decide (count.toNat ≤ p.maxReadRegs)) .countCap
  -- R171
  | .writeCoil _ value => constructRequire (coilValueLegal value) .fieldValue
  -- R174, R201, R206, R211, R214
  | .writeSingleRegister _ _ => .ok ()
  | .readExceptionStatus => .ok ()
  | .readSerialDiagnostics _ _ => .ok ()
  | .readCommEventCounter => .ok ()
  | .readCommEventLog => .ok ()
  -- R177
  | .writeMultipleCoils _ bits => constructRequire (coilBytesFit bits) .byteCountOverflow
  -- R181
  | .writeMultipleRegisters _ values => constructRequire (decide (2 * values.length ≤ 255)) .byteCountOverflow
  -- R217
  | .reportSlaveID => .ok ()
  -- R222
  | .readFileRecord subs => do
    constructRequire (!subs.isEmpty) .noSubRequests
    constructRequire (subs.all fun s => fileFieldsLegal s.refType s.record) .fieldValue
    constructRequire (decide (1 + 7 * subs.length ≤ Config.maxFileReq)) .fileRequestCap
  -- R226
  | .writeFileRecord subs => do
    constructRequire (!subs.isEmpty) .noSubRequests
    constructRequire (subs.all fun s => fileFieldsLegal s.refType s.record) .fieldValue
    constructRequire (decide (1 + fileWriteBytes subs ≤ Config.maxFileReq)) .fileRequestCap
  -- R186
  | .maskWriteRegister _ _ _ => .ok ()
  -- R191
  | .readWriteMultiple _ readCount _ values => do
    constructRequire (decide (2 * values.length ≤ 255)) .byteCountOverflow
    constructRequire (decide (readCount.toNat ≤ p.maxReadRegs)) .countCap
  -- R231, R241
  | .readFIFOQueue _ => .ok ()
  | .readMEI _ _ _ => .ok ()

/-- The PDU ENC_REQ builds from a request record, or its construct error (R267). The layouts are those of R94, one encoder for
both sides. -/
def encodeRequest (p : Params) (record : RequestRecord) : Except ConstructReason (List Byte) := do
  record.check p
  return encode record.instr

end Sys2Proof.Machine
end

