-- ==== Sys2Proof/Machine/Ops.lean ====
section
/-! DEFINITION. The shared operations: the process-image memory, the points at which other agents act, the element accessors and
device samples (R12, R44, R66 to R71), ending a transaction (R42, R266), and taking an exception (R301, R307). -/

namespace Sys2Proof.Machine

/-! ## The memory of one space -/

/-- The element at a reference. -/
def Memory.read {β : Type} [Inhabited β] : Memory β → Nat → β
  | [], _ => Memory.blank
  | (k, v) :: rest, a => if k = a then v else Memory.read rest a

/-- The memory after writing an element; the listed references stay rising, and a blank element is not listed. -/
def Memory.write {β : Type} [Inhabited β] [DecidableEq β] : Memory β → Nat → β → Memory β
  | [], a, v => if v = Memory.blank then [] else [(a, v)]
  | (k, w) :: rest, a, v =>
    if a < k then (if v = Memory.blank then (k, w) :: rest else (a, v) :: (k, w) :: rest)
    else if a = k then (if v = Memory.blank then rest else (a, v) :: rest)
    else (k, w) :: Memory.write rest a v

/-- The canonical form: references strictly rising, no blank element listed. -/
def Memory.wf {β : Type} [Inhabited β] [DecidableEq β] (m : Memory β) : Bool :=
  decide (m.Pairwise fun c d => c.1 < d.1) && m.all fun c => decide (c.2 ≠ Memory.blank)

/-- All five spaces are in canonical form. -/
def Image.wf (im : Image) : Bool :=
  Memory.wf im.di && Memory.wf im.coil && Memory.wf im.ir && Memory.wf im.hr && Memory.wf im.file

/-- Reading a boolean element of the image, wherever it is. -/
def Image.bit (im : Image) : BitSpace → Nat → Bool
  | .di, a => Memory.read im.di a
  | .coil, a => Memory.read im.coil a

/-- Reading a register of the image. -/
def Image.word (im : Image) : WordSpace → Nat → U16
  | .ir, a => Memory.read im.ir a
  | .hr, a => Memory.read im.hr a

/-- Reading a file register of the image. -/
def Image.fileWord (im : Image) (f r i : Nat) : U16 := Memory.read im.file (fileKey f r i)

/-- The image after one element write (R12). -/
def Image.write (im : Image) : ElementWrite → Image
  | .di a v => { im with di := Memory.write im.di a v }
  | .coil a v => { im with coil := Memory.write im.coil a v }
  | .ir a v => { im with ir := Memory.write im.ir a v }
  | .hr a v => { im with hr := Memory.write im.hr a v }
  | .file f r i v => { im with file := Memory.write im.file (fileKey f r i) v }

/-- The element a write names exists (R34, R77, R78). -/
def ElementWrite.exists (p : Params) : ElementWrite → Bool
  | .di a _ => validOne p.nDI a
  | .coil a _ => validOne p.nCOIL a
  | .ir a _ => validOne p.nIR a
  | .hr a _ => validOne p.nHR a
  | .file f r i _ => p.fileExists f r i

/-- The space a function code may write (R36). -/
def ElementWrite.byFunctionCode : ElementWrite → Bool
  | .di _ _ => false
  | .coil _ _ => true
  | .ir _ _ => false
  | .hr _ _ => true
  | .file _ _ _ _ => true

/-! ## Other agents -/

/-- A write another agent can make: to an element that exists (R65), and by another engine instance only if there is one
(R315) and only to a space that some function code writes (R36). -/
def writePossible (p : Params) : Agent → ElementWrite → Bool
  | .application, w => w.exists p
  | .engine k, w => w.exists p && w.byFunctionCode && decide (1 ≤ k) && decide (k < p.nEngines)

/-- Device inputs in the domains of R44. -/
def Device.wf (d : Device) : Bool :=
  commStatusLegal d.commStatus && runStatusLegal d.runStatus && decide (d.events.length ≤ Config.maxEvents) &&
    decide (d.deviceData.length ≤ Config.maxDeviceData)

/-! ## The updates of the state -/

/-- One element write takes effect (R12). -/
def State.write (s : State) (w : ElementWrite) : State := { s with image := s.image.write w }

/-- The device inputs take new values (R44). -/
def State.withDevice (s : State) (d : Device) : State := { s with dev := d }

/-- These slots of other agents' events are still to come. -/
def State.withSchedule (s : State) (slots : List (List Event)) : State := { s with schedule := slots }

/-- Engine reset (R340): the transaction in progress ends without an outcome and the engine is idle; the image, the device inputs
and the configuration are as they were (R341). -/
def State.engineReset (s : State) : State := { s with latches := Latches.idle, outcome := none }

/-- The header and the request record are latched, and the cursor with them (R32, R43; its value is that of log entry 24). -/
def State.latchRequest (s : State) (header : Header) (request : Request) (cursor : Nat) : State :=
  { s with latches := { s.latches with header := header, request := some request, cursor := cursor } }

/-- A response record is latched (R43). -/
def State.latchResponse (s : State) (response : Response) : State :=
  { s with latches := { s.latches with response := some response } }

/-- The header and cursor of a received response are latched (R32, R43). -/
def State.latchHeader (s : State) (header : Header) (cursor : Nat) : State :=
  { s with latches := { s.latches with header := header, cursor := cursor } }

/-- The output bytes are latched (R43). -/
def State.latchOutput (s : State) (adu : List Byte) : State :=
  { s with latches := { s.latches with output := adu } }

/-- The outcome is at the output interface and no latch survives (R42, R43). -/
def State.finish (s : State) (result : Result) : State := { s with latches := Latches.idle, outcome := some result }

/-! ## Running a transaction -/

/-- What a part of a transaction comes to. -/
inductive Run (α : Type) where
  /-- It gives a value and the transaction goes on. -/
  | ok (value : α) (s : State)
  /-- A dispatch check raised an exception (R13). -/
  | raised (kind : ExceptionKind) (s : State)
  /-- An engine reset abandoned the transaction (R340). -/
  | abandoned (s : State)
  /-- An accessor was asked for an element outside its space (R65). -/
  | fault (reason : Fault)

/-- A part of a transaction. -/
abbrev Txn (α : Type) := State → Run α

/-- Giving a value and doing nothing. -/
def Txn.pure {α : Type} (a : α) : Txn α := fun s => .ok a s

/-- One part of a transaction and then the next, in program order (R69). -/
def Txn.bind {α β : Type} (m : Txn α) (next : α → Txn β) : Txn β := fun s =>
  match m s with
  | .ok a s' => next a s'
  | .raised kind s' => .raised kind s'
  | .abandoned s' => .abandoned s'
  | .fault reason => .fault reason

/-- `raise` (R13): the dispatch ends at this check. -/
def Txn.raise {α : Type} (kind : ExceptionKind) : Txn α := fun s => .raised kind s

/-- A dispatch check (R265): the exception if it fails. -/
def Txn.check (holds : Bool) (kind : ExceptionKind) : Txn Unit :=
  if holds then Txn.pure () else Txn.raise kind

/-- The events of one slot, in order. A reset ends the transaction; what is left of the slot falls at the next point. -/
def applyEvents : List Event → Txn Unit
  | [], s => .ok () s
  | .write agent w :: rest, s =>
    applyEvents rest (if writePossible s.cfg agent w then s.write w else s)
  | .device d :: rest, s => applyEvents rest (if d.wf then s.withDevice d else s)
  | .reset :: rest, s => .abandoned (s.engineReset.withSchedule (rest :: s.schedule))

/-- A point at which other agents' accesses may take effect (R68, R71): the next slot of the schedule. -/
def otherAgents : Txn Unit := fun s =>
  match s.schedule with
  | [] => .ok () s
  | slot :: rest => applyEvents slot (s.withSchedule rest)

/-! ## Element accesses and device samples

Each is one atomic access (R66), after a point at which other agents may act. -/

/-- `MemRead(S, a)`, S ∈ {DI, COIL} (R12). -/
def memReadBit (space : BitSpace) (a : Nat) : Txn Bool :=
  Txn.bind otherAgents fun _ s =>
    if validOne (s.cfg.bitSize space) a then .ok (s.image.bit space a) s else .fault .addressRange

/-- `MemRead(S, a)`, S ∈ {IR, HR} (R12). -/
def memReadWord (space : WordSpace) (a : Nat) : Txn U16 :=
  Txn.bind otherAgents fun _ s =>
    if validOne (s.cfg.wordSize space) a then .ok (s.image.word space a) s else .fault .addressRange

/-- `MemRead(FILE, f, r, i)` (R12). -/
def memReadFile (f r i : Nat) : Txn U16 :=
  Txn.bind otherAgents fun _ s =>
    if s.cfg.fileExists f r i then .ok (s.image.fileWord f r i) s else .fault .addressRange

/-- `MemWrite` of an element of COIL, HR or FILE (R12, R36). -/
def memWrite (w : ElementWrite) : Txn Unit :=
  Txn.bind otherAgents fun _ s =>
    if w.exists s.cfg then .ok () (s.write w) else .fault .addressRange

/-- `Dev.<name>`: one sample of a device-status input (R12, R44). -/
def sampleDevice {α : Type} (input : Device → α) : Txn α :=
  Txn.bind otherAgents fun _ s => .ok (input s.dev) s

/-- `n` reads from reference `a` on, in ascending order (R69). -/
def readEach {α : Type} (read : Nat → Txn α) : Nat → Nat → Txn (List α)
  | _, 0 => Txn.pure []
  | a, n + 1 => Txn.bind (read a) fun v => Txn.bind (readEach read (a + 1) n) fun vs => Txn.pure (v :: vs)

/-- The writes of these values from reference `a` on, in ascending order (R69). -/
def writeEach {α : Type} (target : Nat → α → ElementWrite) : Nat → List α → Txn Unit
  | _, [] => Txn.pure ()
  | a, v :: vs => Txn.bind (memWrite (target a v)) fun _ => writeEach target (a + 1) vs

/-- A configuration parameter, which no agent changes (R35). -/
def readConfig {α : Type} (parameter : Params → α) : Txn α := fun s => .ok (parameter s.cfg) s

/-! ## Ending a transaction -/

/-- The outcome reaches the output interface and no latch survives (R42, R43), unless a reset comes before it (R340). -/
def complete (result : Result) (s : State) : Host.Outcome State Fault Refusal :=
  match otherAgents s with
  | .ok _ s' => .next (s'.finish result)
  | .raised _ s' => .next (s'.finish result)
  | .abandoned s' => .next s'
  | .fault reason => .fault reason

/-- Encoding the ADU of a response PDU and giving it as the output of SERVE (R266, R269). -/
def emitPdu (pdu : List Byte) (s : State) : Host.Outcome State Fault Refusal :=
  match encodeADU (responseHeader s.latches.header pdu) pdu with
  | .error reason => complete (.constructError reason) s
  | .ok adu => complete (.ok (.bytes adu)) (s.latchOutput adu)

/-- Encoding a response record, as ENC_RSP does (R268), and giving it as the output of SERVE. The encoder refuses a record of a
dispatch only if the device inputs or the parameters are outside their domains (log entry 19). -/
def conclude (response : Response) (s : State) : Host.Outcome State Fault Refusal :=
  match encodeResponse response with
  | .error reason => complete (.constructError reason) (s.latchResponse response)
  | .ok pdu => emitPdu pdu (s.latchResponse response)

/-! ## Exceptions -/

/-- The exception code (R301). -/
def ExceptionKind.code : ExceptionKind → Byte
  | .illegalFunction => 1
  | .illegalAddress => 2
  | .illegalValue => 3

/-- Taking an exception (R266, R301, R307): the response is `fc | 0x80` and the code, and nothing else is saved or changed. There
is no return from one: the transaction ends with this response as its output (R308). -/
def takeException (functionCode : Byte) (kind : ExceptionKind) (s : State) : Host.Outcome State Fault Refusal :=
  conclude (.exception (withoutExceptionBit functionCode) kind.code) s

/-- Running a dispatch and answering with its response or its exception: the one boundary point at which an exception is converted
(R265, R266). -/
def respond (functionCode : Byte) (dispatch : Txn Response) (s : State) : Host.Outcome State Fault Refusal :=
  match dispatch s with
  | .ok response s' => conclude response s'
  | .raised kind s' => takeException functionCode kind s'
  | .abandoned s' => .next s'
  | .fault reason => .fault reason

end Sys2Proof.Machine
end

