-- ==== Sys2Proof/Machine/Extended.lean ====
section
/-! DEFINITION. The Extended family (43_extended.md, R200 to R242). -/

namespace Sys2Proof.Machine

/-! ## Status and diagnostics -/

/-- The dispatch of ReadExceptionStatus (R200). -/
def dispatchExceptionStatus : Txn Response :=
  Txn.bind (sampleDevice Device.exceptionStatus) fun status =>
  Txn.pure (.readExceptionStatus status)

/-- The dispatch of ReadSerialDiagnostics (R205). -/
def dispatchDiagnostics (subFunction data : U16) : Txn Response :=
  Txn.bind (readConfig fun p => p.diagHandler subFunction data) fun answer =>
  Txn.pure (.readSerialDiagnostics answer.1 answer.2)

/-- The dispatch of ReadCommEventCounter (R210). -/
def dispatchEventCounter : Txn Response :=
  Txn.bind (sampleDevice Device.commStatus) fun status =>
  Txn.bind (sampleDevice Device.eventCount) fun eventCount =>
  Txn.pure (.readCommEventCounter status eventCount)

/-- The dispatch of ReadCommEventLog (R213). The events are sampled first, since the rule reads their number first (log
entry 20). -/
def dispatchEventLog : Txn Response :=
  Txn.bind (sampleDevice Device.events) fun events =>
  Txn.bind (sampleDevice Device.commStatus) fun status =>
  Txn.bind (sampleDevice Device.eventCount) fun eventCount =>
  Txn.bind (sampleDevice Device.messageCount) fun messageCount =>
  Txn.pure (.readCommEventLog status eventCount messageCount events)

/-- The dispatch of ReportSlaveID (R216). The device data is sampled first (log entry 20). -/
def dispatchSlaveID : Txn Response :=
  Txn.bind (sampleDevice Device.deviceData) fun deviceData =>
  Txn.bind (sampleDevice Device.slaveId) fun slaveId =>
  Txn.bind (sampleDevice Device.runStatus) fun runStatus =>
  Txn.pure (.reportSlaveID slaveId runStatus deviceData)

/-! ## File records -/

/-- The sub-request checks in order, each completely (R221, R306): the first that fails decides. -/
def checkEach {α : Type} (check : Params → α → Option ExceptionKind) : List α → Txn Unit
  | [] => Txn.pure ()
  | sub :: rest =>
    Txn.bind (readConfig fun p => check p sub) fun failed =>
    match failed with
    | some kind => Txn.raise kind
    | none => checkEach check rest

/-- The reads of all sub-requests, in order (R69, R220). -/
def readRecords : List FileRead → Txn (List (List U16))
  | [] => Txn.pure []
  | sub :: rest =>
    Txn.bind (readEach (memReadFile sub.file.toNat sub.record.toNat) 0 sub.wordCount.toNat) fun words =>
    Txn.bind (readRecords rest) fun records =>
    Txn.pure (words :: records)

/-- The writes of all sub-requests, in order (R69, R225). -/
def writeRecords : List FileWrite → Txn Unit
  | [] => Txn.pure ()
  | sub :: rest =>
    Txn.bind (writeEach (.file sub.file.toNat sub.record.toNat) 0 sub.data) fun _ =>
    writeRecords rest

/-- The dispatch of ReadFileRecord (R220): every sub-request's check, the response size, the reads. -/
def dispatchReadFile (subs : List FileRead) : Txn Response :=
  Txn.bind (checkEach checkFileRead subs) fun _ =>
  Txn.bind (Txn.check (decide (fileReadTotal subs ≤ 255)) .illegalValue) fun _ =>
  Txn.bind (readRecords subs) fun records =>
  Txn.pure (.readFileRecord records)

/-- The dispatch of WriteFileRecord (R225): every sub-request's check before any write. -/
def dispatchWriteFile (subs : List FileWrite) : Txn Response :=
  Txn.bind (checkEach checkFileWrite subs) fun _ =>
  Txn.bind (writeRecords subs) fun _ =>
  Txn.pure (.writeFileRecord subs)

/-! ## FIFO queue -/

/-- The dispatch of ReadFIFOQueue (R230): the count register is read once, and the queue is not emptied. -/
def dispatchFifo (reference : U16) : Txn Response :=
  Txn.bind (readConfig Params.nHR) fun n =>
  Txn.bind (Txn.check (validOne n reference.toNat) .illegalAddress) fun _ =>
  Txn.bind (memReadWord .hr reference.toNat) fun count =>
  Txn.bind (Txn.check (decide (count.toNat ≤ Config.maxFifo)) .illegalValue) fun _ =>
  Txn.bind (Txn.check (validRead n (reference.toNat + 1) count.toNat) .illegalAddress) fun _ =>
  Txn.bind (readEach (memReadWord .hr) (reference.toNat + 1) count.toNat) fun values =>
  Txn.pure (.readFIFOQueue values)

/-! ## Modbus Encapsulated Interface -/

/-- The answer of `MEI_TABLE` as a response or an exception (R240). -/
def meiResponse (subCode fieldLevel : Byte) : MeiAnswer → Txn Response
  | .illegalAddress => Txn.raise .illegalAddress
  | .illegalValue => Txn.raise .illegalValue
  | .objects conformity moreFollows nextFieldId fields =>
    Txn.pure (.readMEI subCode fieldLevel conformity moreFollows nextFieldId fields)

/-- The dispatch of ReadMEI (R240). -/
def dispatchMEI (subCode fieldLevel fieldId : Byte) : Txn Response :=
  Txn.bind (Txn.check (subCode == Config.meiSubcode) .illegalFunction) fun _ =>
  Txn.bind (readConfig fun p => p.meiTable fieldLevel fieldId) fun answer =>
  meiResponse subCode fieldLevel answer

/-! ## The instructions -/

/-- ReadExceptionStatus (R200). -/
def execReadExceptionStatus (s : State) : Host.Outcome State Fault Refusal :=
  respond 0x07 dispatchExceptionStatus s

/-- ReadSerialDiagnostics (R205). -/
def execReadSerialDiagnostics (subFunction data : U16) (s : State) : Host.Outcome State Fault Refusal :=
  respond 0x08 (dispatchDiagnostics subFunction data) s

/-- ReadCommEventCounter (R210). -/
def execReadCommEventCounter (s : State) : Host.Outcome State Fault Refusal :=
  respond 0x0B dispatchEventCounter s

/-- ReadCommEventLog (R213). -/
def execReadCommEventLog (s : State) : Host.Outcome State Fault Refusal :=
  respond 0x0C dispatchEventLog s

/-- ReportSlaveID (R216). -/
def execReportSlaveID (s : State) : Host.Outcome State Fault Refusal :=
  respond 0x11 dispatchSlaveID s

/-- ReadFileRecord (R220). -/
def execReadFileRecord (subs : List FileRead) (s : State) : Host.Outcome State Fault Refusal :=
  respond 0x14 (dispatchReadFile subs) s

/-- WriteFileRecord (R225). -/
def execWriteFileRecord (subs : List FileWrite) (s : State) : Host.Outcome State Fault Refusal :=
  respond 0x15 (dispatchWriteFile subs) s

/-- ReadFIFOQueue (R230). -/
def execReadFIFOQueue (reference : U16) (s : State) : Host.Outcome State Fault Refusal :=
  respond 0x18 (dispatchFifo reference) s

/-- ReadMEI (R240). -/
def execReadMEI (subCode fieldLevel fieldId : Byte) (s : State) : Host.Outcome State Fault Refusal :=
  respond 0x2B (dispatchMEI subCode fieldLevel fieldId) s

end Sys2Proof.Machine
end

