-- ==== Sys2Proof/Machine/Read.lean ====
section
/-! DEFINITION. The Read family (41_read.md, R150 to R158). -/

namespace Sys2Proof.Machine

/-- The dispatch of a bit read (R150, R152): count check, range check, the reads, the packed response. -/
def dispatchReadBits (space : BitSpace) (respondWith : Byte → List Byte → Response) (reference count : U16) :
    Txn Response :=
  Txn.bind (readConfig fun p => p.bitSize space) fun size =>
  Txn.bind (Txn.check (decide (count.toNat ≤ Config.maxReadBits)) .illegalValue) fun _ =>
  Txn.bind (Txn.check (validRead size reference.toNat count.toNat) .illegalAddress) fun _ =>
  Txn.bind (readEach (memReadBit space) reference.toNat count.toNat) fun bits =>
  Txn.pure (respondWith (u8Field (packedLength count.toNat)) (packLsb bits (packedLength count.toNat)))

/-- The dispatch of a register read (R154, R156). -/
def dispatchReadWords (space : WordSpace) (respondWith : List U16 → Response) (reference count : U16) :
    Txn Response :=
  Txn.bind (readConfig fun p => p.wordSize space) fun size =>
  Txn.bind (readConfig Params.maxReadRegs) fun cap =>
  Txn.bind (Txn.check (decide (count.toNat ≤ cap)) .illegalValue) fun _ =>
  Txn.bind (Txn.check (validRead size reference.toNat count.toNat) .illegalAddress) fun _ =>
  Txn.bind (readEach (memReadWord space) reference.toNat count.toNat) fun values =>
  Txn.pure (respondWith values)

/-- ReadCoils (R150). -/
def execReadCoils (reference count : U16) (s : State) : Host.Outcome State Fault Refusal :=
  respond 0x01 (dispatchReadBits .coil .readCoils reference count) s

/-- ReadInputDiscretes (R152). -/
def execReadInputDiscretes (reference count : U16) (s : State) : Host.Outcome State Fault Refusal :=
  respond 0x02 (dispatchReadBits .di .readInputDiscretes reference count) s

/-- ReadMultipleRegisters (R154). -/
def execReadMultipleRegisters (reference count : U16) (s : State) : Host.Outcome State Fault Refusal :=
  respond 0x03 (dispatchReadWords .hr .readMultipleRegisters reference count) s

/-- ReadInputRegisters (R156). -/
def execReadInputRegisters (reference count : U16) (s : State) : Host.Outcome State Fault Refusal :=
  respond 0x04 (dispatchReadWords .ir .readInputRegisters reference count) s

end Sys2Proof.Machine
end

