-- ==== Sys2Proof/Machine/Write.lean ====
section
/-! DEFINITION. The Write family (42_write.md, R170 to R191). Every check of a dispatch precedes its first write (R70). -/

namespace Sys2Proof.Machine

/-- The dispatch of a single write (R173; R170 after its value check): reference check, the write, the echo. -/
def dispatchWriteOne (size : Params → Nat) (target : ElementWrite) (reference : U16) (echo : Response) : Txn Response :=
  Txn.bind (readConfig size) fun n =>
  Txn.bind (Txn.check (validOne n reference.toNat) .illegalAddress) fun _ =>
  Txn.bind (memWrite target) fun _ =>
  Txn.pure echo

/-- The dispatch of a multiple write (R176, R180): range check, the writes, the echo. -/
def dispatchWriteMany {α : Type} (size : Params → Nat) (target : Nat → α → ElementWrite) (reference : U16)
    (count : Nat) (values : List α) (echo : Response) : Txn Response :=
  Txn.bind (readConfig size) fun n =>
  Txn.bind (Txn.check (validWrite n reference.toNat count) .illegalAddress) fun _ =>
  Txn.bind (writeEach target reference.toNat values) fun _ =>
  Txn.pure echo

/-- The dispatch of WriteCoil (R170): the value is checked before the reference. -/
def dispatchWriteCoil (reference value : U16) : Txn Response :=
  Txn.bind (Txn.check (coilValueLegal value) .illegalValue) fun _ =>
  dispatchWriteOne Params.nCOIL (.coil reference.toNat (value == coilOn)) reference (.writeCoil reference value)

/-- The dispatch of MaskWriteRegister (R185): a read and then a separate write (R74). -/
def dispatchMaskWrite (reference andMask orMask : U16) : Txn Response :=
  Txn.bind (readConfig Params.nHR) fun n =>
  Txn.bind (Txn.check (validOne n reference.toNat) .illegalAddress) fun _ =>
  Txn.bind (memReadWord .hr reference.toNat) fun v =>
  Txn.bind (memWrite (.hr reference.toNat (maskWrite v andMask orMask))) fun _ =>
  Txn.pure (.maskWriteRegister reference andMask orMask)

/-- The dispatch of ReadWriteMultiple (R190): all checks, then all writes, then all reads. -/
def dispatchReadWrite (readRef readCount writeRef : U16) (values : List U16) : Txn Response :=
  Txn.bind (readConfig Params.nHR) fun n =>
  Txn.bind (readConfig Params.maxReadRegs) fun cap =>
  Txn.bind (Txn.check (decide (readCount.toNat ≤ cap)) .illegalValue) fun _ =>
  Txn.bind (Txn.check (validRead n readRef.toNat readCount.toNat) .illegalAddress) fun _ =>
  Txn.bind (Txn.check (validWrite n writeRef.toNat values.length) .illegalAddress) fun _ =>
  Txn.bind (writeEach .hr writeRef.toNat values) fun _ =>
  Txn.bind (readEach (memReadWord .hr) readRef.toNat readCount.toNat) fun read =>
  Txn.pure (.readWriteMultiple read)

/-- WriteCoil (R170). -/
def execWriteCoil (reference value : U16) (s : State) : Host.Outcome State Fault Refusal :=
  respond 0x05 (dispatchWriteCoil reference value) s

/-- WriteSingleRegister (R173). -/
def execWriteSingleRegister (reference value : U16) (s : State) : Host.Outcome State Fault Refusal :=
  respond 0x06
    (dispatchWriteOne Params.nHR (.hr reference.toNat value) reference (.writeSingleRegister reference value)) s

/-- WriteMultipleCoils (R176): the first `count` bits of the data; the padding is ignored. -/
def execWriteMultipleCoils (reference count : U16) (data : List Byte) (s : State) : Host.Outcome State Fault Refusal :=
  respond 0x0F
    (dispatchWriteMany Params.nCOIL .coil reference count.toNat ((unpackLsb data).take count.toNat)
      (.writeMultipleCoils reference count)) s

/-- WriteMultipleRegisters (R180). -/
def execWriteMultipleRegisters (reference : U16) (values : List U16) (s : State) : Host.Outcome State Fault Refusal :=
  respond 0x10
    (dispatchWriteMany Params.nHR .hr reference values.length values
      (.writeMultipleRegisters reference (u16Field values.length))) s

/-- MaskWriteRegister (R185). -/
def execMaskWriteRegister (reference andMask orMask : U16) (s : State) : Host.Outcome State Fault Refusal :=
  respond 0x16 (dispatchMaskWrite reference andMask orMask) s

/-- ReadWriteMultiple (R190). -/
def execReadWriteMultiple (readRef readCount writeRef : U16) (values : List U16) (s : State) :
    Host.Outcome State Fault Refusal :=
  respond 0x17 (dispatchReadWrite readRef readCount writeRef values) s

end Sys2Proof.Machine
end

