-- ==== Sys2Proof/Machine/Dispatch.lean ====
section
/-! DEFINITION. The function-code table's dispatch column (R260, R265): each instruction's meaning, one arm per row of
spec/opcode_table.json. -/

namespace Sys2Proof.Machine

def exec (i : Instr) (s : State) : Host.Outcome State Fault Refusal :=
  match i with
  | .readCoils reference count => Sys2Proof.Machine.execReadCoils reference count s
  | .readInputDiscretes reference count => Sys2Proof.Machine.execReadInputDiscretes reference count s
  | .readMultipleRegisters reference count => Sys2Proof.Machine.execReadMultipleRegisters reference count s
  | .readInputRegisters reference count => Sys2Proof.Machine.execReadInputRegisters reference count s
  | .writeCoil reference value => Sys2Proof.Machine.execWriteCoil reference value s
  | .writeSingleRegister reference value => Sys2Proof.Machine.execWriteSingleRegister reference value s
  | .readExceptionStatus => Sys2Proof.Machine.execReadExceptionStatus s
  | .readSerialDiagnostics subFunction data => Sys2Proof.Machine.execReadSerialDiagnostics subFunction data s
  | .readCommEventCounter => Sys2Proof.Machine.execReadCommEventCounter s
  | .readCommEventLog => Sys2Proof.Machine.execReadCommEventLog s
  | .writeMultipleCoils reference count data => Sys2Proof.Machine.execWriteMultipleCoils reference count data s
  | .writeMultipleRegisters reference values => Sys2Proof.Machine.execWriteMultipleRegisters reference values s
  | .reportSlaveID => Sys2Proof.Machine.execReportSlaveID s
  | .readFileRecord subs => Sys2Proof.Machine.execReadFileRecord subs s
  | .writeFileRecord subs => Sys2Proof.Machine.execWriteFileRecord subs s
  | .maskWriteRegister reference andMask orMask => Sys2Proof.Machine.execMaskWriteRegister reference andMask orMask s
  | .readWriteMultiple readRef readCount writeRef values => Sys2Proof.Machine.execReadWriteMultiple readRef readCount writeRef values s
  | .readFIFOQueue reference => Sys2Proof.Machine.execReadFIFOQueue reference s
  | .readMEI subCode fieldLevel fieldId => Sys2Proof.Machine.execReadMEI subCode fieldLevel fieldId s

end Sys2Proof.Machine
end

