-- ==== Sys2Proof/Machine/Commands.lean ====
section
/-! DEFINITION. The five commands (R40, R261, R266 to R270), and what a step fetches. -/

namespace Sys2Proof.Machine

/-- DEC_REQ's decode of an ADU (R261). -/
def decodeRequestADU (headless : Bool) (input : List Byte) : Except DecodeReason (Header × Request) :=
  match decodeADU headless input with
  | .error reason => .error reason
  | .ok (header, pdu) =>
    match decode pdu with
    | .ok i => .ok (header, .instr i)
    | .error (.illegalFunction functionCode) => .ok (header, .illegalFunction functionCode)
    | .error (.malformed reason) => .error reason

/-- DEC_RSP's decode of an ADU (R270). -/
def decodeResponseADU (headless : Bool) (input : List Byte) : Except DecodeReason (Header × Response) := do
  let (header, pdu) ← decodeADU headless input
  let response ← decodeResponse pdu
  return (header, response)

/-- ENC_REQ's bytes (R267). -/
def encodeRequestADU (p : Params) (headless : Bool) (header : HeaderFields) (record : RequestRecord) :
    Except ConstructReason (List Byte) := do
  let pdu ← encodeRequest p record
  encodeADU (headerFor headless header) pdu

/-- ENC_RSP's bytes (R268). -/
def encodeResponseADU (headless : Bool) (header : HeaderFields) (record : Response) :
    Except ConstructReason (List Byte) := do
  let pdu ← encodeResponse record
  encodeADU (headerFor headless header) pdu

/-- `Dispatch` of a decoded request (R265): an instruction's meaning, or exception code 1 for the placeholder. -/
def dispatchRequest (request : Request) (s : State) : Host.Outcome State Fault Refusal :=
  match request with
  | .instr i => exec i s
  | .illegalFunction functionCode => takeException functionCode .illegalFunction s

/-- SERVE (R266). A decode error makes no image access and gives no bytes. The cursor latch
stands at the length of the input (log entry 24). -/
def serve (headless : Bool) (input : List Byte) (s : State) : Host.Outcome State Fault Refusal :=
  match decodeRequestADU headless input with
  | .error reason => complete (.decodeError reason) s
  | .ok (header, request) => dispatchRequest request (s.latchRequest header request input.length)

/-- DEC_REQ (R261). The cursor latch is that of log entry 24. -/
def decReq (headless : Bool) (input : List Byte) (s : State) : Host.Outcome State Fault Refusal :=
  match decodeRequestADU headless input with
  | .error reason => complete (.decodeError reason) s
  | .ok (header, request) => complete (.ok (.request header request)) (s.latchRequest header request input.length)

/-- DEC_RSP (R270). The cursor latch is that of log entry 24. -/
def decRsp (headless : Bool) (input : List Byte) (s : State) : Host.Outcome State Fault Refusal :=
  match decodeResponseADU headless input with
  | .error reason => complete (.decodeError reason) s
  | .ok (header, response) =>
    complete (.ok (.response header response))
      ((s.latchHeader header input.length).latchResponse response)

/-- The end of an encode: the bytes, or the construct error (R42). -/
def completeEncode (encoded : Except ConstructReason (List Byte)) (s : State) : Host.Outcome State Fault Refusal :=
  match encoded with
  | .error reason => complete (.constructError reason) s
  | .ok adu => complete (.ok (.bytes adu)) (s.latchOutput adu)

/-- ENC_REQ (R267). -/
def encReq (headless : Bool) (header : HeaderFields) (record : RequestRecord) (s : State) :
    Host.Outcome State Fault Refusal :=
  completeEncode (encodeRequestADU s.cfg headless header record)
    (s.latchRequest (headerFor headless header) (.instr record.instr) 0)

/-- ENC_RSP (R268). -/
def encRsp (headless : Bool) (header : HeaderFields) (record : Response) (s : State) :
    Host.Outcome State Fault Refusal :=
  completeEncode (encodeResponseADU headless header record)
    ((s.latchHeader (headerFor headless header) 0).latchResponse record)

/-- One command, run to its outcome (R40, R42). -/
def runCommand (command : Command) (s : State) : Host.Outcome State Fault Refusal :=
  match command with
  | .serve headless input => serve headless input s
  | .decReq headless input => decReq headless input s
  | .encRsp headless header record => encRsp headless header record s
  | .encReq headless header record => encReq headless header record s
  | .decRsp headless input => decRsp headless input s

/-- With no command at the port the engine is idle and only other agents act (R317, R340). -/
def idle (s : State) : Host.Outcome State Fault Refusal :=
  match otherAgents s with
  | .ok _ s' => .next s'
  | .raised _ s' => .next s'
  | .abandoned s' => .next s'
  | .fault reason => .fault reason

/-- A SERVE command in headless form with unit id 0 and this request PDU (R131). -/
def serveCommandOf (pdu : List Byte) : Command := .serve true (0 :: pdu)

end Sys2Proof.Machine
end

