-- ==== Sys2Proof/Machine/Step.lean ====
section
/-! DEFINITION. One step of the machine: one command from its issue to its outcome (R7, R17, R40), or an idle step. -/

namespace Sys2Proof.Machine

/-- The next command of the host runs to its outcome; with none, the engine is idle. -/
def step (s : State) : Host.Outcome State Fault Refusal :=
  match s.commands with
  | [] => idle s
  | command :: rest => runCommand command { s with commands := rest }

/-- `s` with a SERVE of the table's word as the next command, in place of the one that was next (log entry 8). -/
def State.withFetchWord (s : State) (nbits w : Nat) : State :=
  { s with commands := serveCommandOf (tableWordPdu nbits w) :: s.commands.tail }

end Sys2Proof.Machine
end

