-- ==== Sys2Proof/Safety.lean ====
section
/-! DEFINITION. What a good state and a safe run are, and the vocabulary the statements use. -/

namespace Sys2Proof.Machine

/-- A listed element of a memory lies in a space of this size (R34). -/
def Memory.within {β : Type} (m : Memory β) (size : Nat) : Bool := m.all fun c => decide (c.1 < size)

/-- A listed FILE element exists (R78). -/
def fileWithin (p : Params) (m : Memory U16) : Bool :=
  m.all fun c => p.fileExists (c.1 / 65536 / 65536) (c.1 / 65536 % 65536) (c.1 % 65536)

/-- Every listed element of the image exists (R34, R77, R78). -/
def Image.within (p : Params) (im : Image) : Bool :=
  Memory.within im.di p.nDI && Memory.within im.coil p.nCOIL && Memory.within im.ir p.nIR &&
    Memory.within im.hr p.nHR && fileWithin p im.file

/-- The invariant of the machine: the parameters and the device inputs are in their domains (R8, R44), the image is in canonical
form and holds no element outside its spaces (R34), and no transaction is in progress (R43). -/
structure State.Good (s : State) : Prop where
  params : s.cfg.wf = true
  device : s.dev.wf = true
  canonical : s.image.wf = true
  inside : s.image.within s.cfg = true
  idle : s.latches = Latches.idle

/-- No other agent is active (95_test_vectors.md, section 3). -/
abbrev State.Quiet (s : State) : Prop := s.schedule = []

/-- No reset of this engine is to come. -/
abbrev State.NoReset (s : State) : Prop := ∀ slot ∈ s.schedule, Event.reset ∉ slot

/-- The elements of the image, by space and number (R34). -/
inductive Element where
  | di (reference : Nat)
  | coil (reference : Nat)
  | ir (reference : Nat)
  | hr (reference : Nat)
  | file (file record register : Nat)
deriving DecidableEq, Repr

/-- The element exists (R34, R77, R78). -/
def Element.present (p : Params) : Element → Bool
  | .di a => validOne p.nDI a
  | .coil a => validOne p.nCOIL a
  | .ir a => validOne p.nIR a
  | .hr a => validOne p.nHR a
  | .file f r i => p.fileExists f r i

/-- The value of one element; a boolean counts as 0 or 1. -/
def Image.element (im : Image) : Element → Nat
  | .di a => (im.bit .di a).toNat
  | .coil a => (im.bit .coil a).toNat
  | .ir a => (im.word .ir a).toNat
  | .hr a => (im.word .hr a).toNat
  | .file f r i => (im.fileWord f r i).toNat

/-- The element a write is to. -/
def ElementWrite.element : ElementWrite → Element
  | .di a _ => .di a
  | .coil a _ => .coil a
  | .ir a _ => .ir a
  | .hr a _ => .hr a
  | .file f r i _ => .file f r i

/-- No event still to come writes this element. -/
def State.LeftAlone (s : State) (e : Element) : Prop :=
  ∀ slot ∈ s.schedule, ∀ agent w, Event.write agent w ∈ slot → w.element ≠ e

/-- The elements an instruction may write (R36). -/
def writeTargets : Instr → Element → Prop
  | .readCoils _ _, _ => False
  | .readInputDiscretes _ _, _ => False
  | .readMultipleRegisters _ _, _ => False
  | .readInputRegisters _ _, _ => False
  | .writeCoil reference _, e => e = .coil reference.toNat
  | .writeSingleRegister reference _, e => e = .hr reference.toNat
  | .readExceptionStatus, _ => False
  | .readSerialDiagnostics _ _, _ => False
  | .readCommEventCounter, _ => False
  | .readCommEventLog, _ => False
  | .writeMultipleCoils reference count _, e => ∃ k < count.toNat, e = .coil (reference.toNat + k)
  | .writeMultipleRegisters reference values, e => ∃ k < values.length, e = .hr (reference.toNat + k)
  | .reportSlaveID, _ => False
  | .readFileRecord _, _ => False
  | .writeFileRecord subs, e =>
    ∃ sub ∈ subs, ∃ k < sub.data.length, e = .file sub.file.toNat sub.record.toNat k
  | .maskWriteRegister reference _ _, e => e = .hr reference.toNat
  | .readWriteMultiple _ _ writeRef values, e => ∃ k < values.length, e = .hr (writeRef.toNat + k)
  | .readFIFOQueue _, _ => False
  | .readMEI _ _ _, _ => False

/-- The ADU of a PDU under a header (R130 to R132). -/
def aduOf (h : Header) (pdu : List Byte) : List Byte :=
  match h.framing with
  | .headless => h.unitID :: pdu
  | .framed tid pid => bytes16 tid ++ bytes16 pid ++ bytes16 (u16Field (1 + pdu.length)) ++ h.unitID :: pdu

/-- The state at the end of a SERVE that leaves this image and answers with this PDU: nothing else is changed, no latch survives
and the output interface has the response ADU. -/
def State.answered (s : State) (im : Image) (pdu : List Byte) : State :=
  { s with image := im, latches := Latches.idle, outcome := some (.ok (.bytes (aduOf s.latches.header pdu))) }

/-- The PDU of an exception response (R301). -/
def exceptionPdu (functionCode code : Byte) : List Byte := [functionCode ||| 0x80, code]

/-- The machine does not stop in `k` steps from here (R275). -/
def RunsOn (s : State) (k : Nat) : Prop := ∃ t, Sys2Proof.core.run k s = .next t

end Sys2Proof.Machine
end

