-- ==== Sys2Proof/Certificates/Slice0/Obligations.lean ====
section
/-! DEFINITION. The statements for the provers. Each cites the rules of spec/ it formalises; OBLIGATIONS.json lists them with their
tiers. `s.schedule = []` says that no other agent is active (95_test_vectors.md, section 3); `State.answered` is the whole next
state of a SERVE: it names what changes and so is the frame too. The value `Latches.idle` that the latches are left with is the
model's choice wherever it stands, log entry 4. -/

open Sys2Proof Sys2Proof.Machine

/-! ## Encoding -/

/-- Words written out from the tables of R94 (and the examples of their rules) decode to the instructions they stand for. -/
def Obligations.SpecWordsDecode : Prop :=
  decode [0x01, 0x00, 0x13, 0x00, 0x13] = .ok (.readCoils 19 19) ∧
  decode [0x04, 0x12, 0x34, 0x00, 0x01] = .ok (.readInputRegisters 0x1234 1) ∧
  decode [0x05, 0x00, 0x0A, 0xFF, 0x00] = .ok (.writeCoil 10 0xFF00) ∧
  decode [0x07] = .ok .readExceptionStatus ∧
  decode [0x0F, 0x00, 0x13, 0x00, 0x0A, 0x02, 0xCD, 0x01] = .ok (.writeMultipleCoils 19 10 [0xCD, 0x01]) ∧
  decode [0x10, 0x00, 0x64, 0x00, 0x03, 0x06, 0x00, 0x01, 0x00, 0x02, 0x00, 0x03] =
    .ok (.writeMultipleRegisters 100 [1, 2, 3]) ∧
  decode [0x14, 0x0E, 0x06, 0x00, 0x04, 0x00, 0x01, 0x00, 0x02, 0x06, 0x00, 0x03, 0x00, 0x09, 0x00, 0x02] =
    .ok (.readFileRecord [⟨6, 4, 1, 2⟩, ⟨6, 3, 9, 2⟩]) ∧
  decode [0x16, 0x00, 0x04, 0xFF, 0x00, 0x00, 0xFF] = .ok (.maskWriteRegister 4 0xFF00 0x00FF) ∧
  decode [0x17, 0x00, 0x03, 0x00, 0x02, 0x00, 0x04, 0x00, 0x01, 0x02, 0x00, 0xFF] =
    .ok (.readWriteMultiple 3 2 4 [0x00FF]) ∧
  decode [0x18, 0x04, 0xDE] = .ok (.readFIFOQueue 0x04DE) ∧
  decode [0x2B, 0x0E, 0x01, 0x00] = .ok (.readMEI 0x0E 1 0)

/-- Every well-formed request comes back from its PDU, every operand at every value (R94, R98, R274). -/
def Obligations.DecodeOfEncode : Prop :=
  ∀ i : Instr, i.wellFormed = true → decode (encode i) = .ok i

/-- A PDU that decodes is the encoding of a well-formed request: no byte of it is dropped (R94, R98). -/
def Obligations.EncodeOfDecode : Prop :=
  ∀ (pdu : List Byte) (i : Instr), decode pdu = .ok i → i.wellFormed = true ∧ encode i = pdu

/-- R10: big-endian assembly and splitting of a 16-bit value. -/
def Obligations.WireIntegersAreBigEndian : Prop :=
  (∀ hi lo : Byte, (be16 hi lo).toNat = hi.toNat * 256 + lo.toNat) ∧
  (∀ v : U16, ∃ hi lo : Byte, bytes16 v = [hi, lo] ∧ hi.toNat = v.toNat / 256 ∧ lo.toNat = v.toNat % 256 ∧ be16 hi lo = v)

/-- R14: where each boolean stands in its packed bytes, 0 in the padding, and the same for unpacking. -/
def Obligations.BooleansArePackedLsbFirst : Prop :=
  (∀ (b : List Bool) (n : Nat), n = packedLength b.length →
    (packLsb b n).length = n ∧
    ∀ j < n, ∀ k < 8, ((packLsb b n).getD j 0).getLsbD k = if 8 * j + k < b.length then b.getD (8 * j + k) false else false) ∧
  (∀ s : List Byte, (unpackLsb s).length = 8 * s.length ∧
    ∀ j < s.length, ∀ k < 8, (unpackLsb s).getD (8 * j + k) false = (s.getD j 0).getLsbD k)

/-- The fixed-length request formats take exactly their body (R93, R11): shorter is Truncated, longer is Trailing; and a body of that
length decodes to its fields in the order of R94, whatever their values. -/
def Obligations.FixedFormatsCheckTheirLength : Prop :=
  (∀ (functionCode : Byte) (length : Nat) (body : List Byte),
    (functionCode, length) ∈ ([(0x01, 4), (0x02, 4), (0x03, 4), (0x04, 4), (0x05, 4), (0x06, 4), (0x07, 0), (0x08, 4), (0x0B, 0),
      (0x0C, 0), (0x11, 0), (0x16, 6), (0x18, 2), (0x2B, 3)] : List (Byte × Nat)) →
    (body.length < length → decode (functionCode :: body) = .error (.malformed .truncated)) ∧
    (length < body.length → decode (functionCode :: body) = .error (.malformed .trailing)) ∧
    (body.length = length → ∃ i, decode (functionCode :: body) = .ok i ∧ i.functionCode = functionCode)) ∧
  (∀ (x y z : U16) (a b c : Byte),
    decode (0x01 :: (bytes16 x ++ bytes16 y)) = .ok (.readCoils x y) ∧
    decode (0x02 :: (bytes16 x ++ bytes16 y)) = .ok (.readInputDiscretes x y) ∧
    decode (0x03 :: (bytes16 x ++ bytes16 y)) = .ok (.readMultipleRegisters x y) ∧
    decode (0x04 :: (bytes16 x ++ bytes16 y)) = .ok (.readInputRegisters x y) ∧
    decode (0x05 :: (bytes16 x ++ bytes16 y)) = .ok (.writeCoil x y) ∧
    decode (0x06 :: (bytes16 x ++ bytes16 y)) = .ok (.writeSingleRegister x y) ∧
    decode [0x07] = .ok .readExceptionStatus ∧
    decode (0x08 :: (bytes16 x ++ bytes16 y)) = .ok (.readSerialDiagnostics x y) ∧
    decode [0x0B] = .ok .readCommEventCounter ∧
    decode [0x0C] = .ok .readCommEventLog ∧
    decode [0x11] = .ok .reportSlaveID ∧
    decode (0x16 :: (bytes16 x ++ bytes16 y ++ bytes16 z)) = .ok (.maskWriteRegister x y z) ∧
    decode (0x18 :: bytes16 x) = .ok (.readFIFOQueue x) ∧
    decode [0x2B, a, b, c] = .ok (.readMEI a b c))

/-- The counted requests decode exactly when their byte count agrees with their count, or with their sub-requests (R98, R220, R225). A
body that ends before its counted bytes do is Truncated and one that goes on after them Trailing, whatever the counts say: both come
before the relation is checked (R176, R180, R190, R220, R225). -/
def Obligations.ByteCountsMustAgree : Prop :=
  (∀ (reference count : U16) (data : List Byte), data.length ≤ 255 →
    decode (0x0F :: (bytes16 reference ++ bytes16 count ++ u8Field data.length :: data)) =
      (if data.length = (count.toNat + 7) / 8 then .ok (.writeMultipleCoils reference count data)
       else .error (.malformed .byteCountMismatch)) ∧
    decode (0x10 :: (bytes16 reference ++ bytes16 count ++ u8Field data.length :: data)) =
      (if data.length = 2 * count.toNat then .ok (.writeMultipleRegisters reference (wordsOf data))
       else .error (.malformed .byteCountMismatch)) ∧
    (∀ readRef readCount : U16,
      decode (0x17 :: (bytes16 readRef ++ bytes16 readCount ++ bytes16 reference ++ bytes16 count ++
          u8Field data.length :: data)) =
        (if data.length = 2 * count.toNat then .ok (.readWriteMultiple readRef readCount reference (wordsOf data))
         else .error (.malformed .byteCountMismatch))) ∧
    (∀ subs : List FileRead, subs ≠ [] →
      data = (subs.flatMap fun x => x.refType :: (bytes16 x.file ++ bytes16 x.record ++ bytes16 x.wordCount)) →
      decode (0x14 :: u8Field data.length :: data) = .ok (.readFileRecord subs)) ∧
    ((∃ subs, decode (0x14 :: u8Field data.length :: data) = .ok (.readFileRecord subs) ∧ 7 * subs.length = data.length) ↔
      0 < data.length ∧ data.length % 7 = 0) ∧
    (¬ (0 < data.length ∧ data.length % 7 = 0) →
      decode (0x14 :: u8Field data.length :: data) = .error (.malformed .byteCountMismatch)) ∧
    (∀ subs : List FileWrite, subs ≠ [] →
      data = (subs.flatMap fun x => x.refType :: (bytes16 x.file ++ bytes16 x.record ++
        bytes16 (u16Field x.data.length) ++ bytesOf x.data)) →
      decode (0x15 :: u8Field data.length :: data) = .ok (.writeFileRecord subs)) ∧
    ((∀ subs : List FileWrite, subs ≠ [] →
      data ≠ (subs.flatMap fun x => x.refType :: (bytes16 x.file ++ bytes16 x.record ++
        bytes16 (u16Field x.data.length) ++ bytesOf x.data))) →
      decode (0x15 :: u8Field data.length :: data) = .error (.malformed .byteCountMismatch))) ∧
  (∀ (functionCode : Byte) (offset : Nat),
    (functionCode, offset) ∈ ([(0x0F, 4), (0x10, 4), (0x14, 0), (0x15, 0), (0x17, 8)] : List (Byte × Nat)) →
    (∀ body : List Byte, body.length ≤ offset → decode (functionCode :: body) = .error (.malformed .truncated)) ∧
    ∀ (fields : List Byte) (byteCount : Byte) (data : List Byte), fields.length = offset →
      (data.length < byteCount.toNat →
        decode (functionCode :: (fields ++ byteCount :: data)) = .error (.malformed .truncated)) ∧
      (byteCount.toNat < data.length →
        decode (functionCode :: (fields ++ byteCount :: data)) = .error (.malformed .trailing)))

/-- R99: a function code is selected by exact match on the table of 19; every other byte decodes to the Illegal-Function placeholder
and dispatch answers it with exception code 1, whatever the body and the other agents do, unless a reset comes (R340). -/
def Obligations.FunctionCodesMatchExactly : Prop :=
  ∀ (functionCode : Byte) (body : List Byte),
    (functionCode ∈ ([0x01, 0x02, 0x03, 0x04, 0x05, 0x06, 0x07, 0x08, 0x0B, 0x0C, 0x0F, 0x10, 0x11, 0x14, 0x15, 0x16, 0x17,
        0x18, 0x2B] : List Byte) →
      (∀ i, decode (functionCode :: body) = .ok i → i.functionCode = functionCode) ∧
      ∀ c, decode (functionCode :: body) ≠ .error (.illegalFunction c)) ∧
    (functionCode ∉ ([0x01, 0x02, 0x03, 0x04, 0x05, 0x06, 0x07, 0x08, 0x0B, 0x0C, 0x0F, 0x10, 0x11, 0x14, 0x15, 0x16, 0x17,
        0x18, 0x2B] : List Byte) →
      decode (functionCode :: body) = .error (.illegalFunction functionCode) ∧
      ∀ (s : State) (headless : Bool) (input : List Byte) (rest : List Command) (h : Header), s.NoReset →
        s.commands = .serve headless input :: rest → decodeADU headless input = .ok (h, functionCode :: body) →
        ∃ t, step s = .next t ∧ t.outcome = some (.ok (.bytes (aduOf h (exceptionPdu functionCode 1)))))

/-- `EncodeADU` (R135) gives the ADU of R130 to R132, or LengthOverflow, for every header and PDU; that the overflow is checked for
headless messages too is the model's reading, log entry 16. An ADU decodes to the header and PDU it was encoded from (R133). -/
def Obligations.DecodeAduOfEncodeAdu : Prop :=
  (∀ (h : Header) (pdu : List Byte),
    encodeADU h pdu = if 65535 < 1 + pdu.length then .error .lengthOverflow else .ok (aduOf h pdu)) ∧
  (∀ (h : Header) (pdu adu : List Byte), pdu ≠ [] → encodeADU h pdu = .ok adu →
    decodeADU h.headless adu = .ok (responseHeader h pdu, pdu))

/-- R132: the framed length field, bytes 4 and 5, is the number of bytes that follow it. -/
def Obligations.FramedLengthCountsWhatFollows : Prop :=
  ∀ (h : Header) (tid pid : U16) (pdu adu : List Byte), h.framing = .framed tid pid → encodeADU h pdu = .ok adu →
    ∃ length : U16, adu.take 6 = bytes16 tid ++ bytes16 pid ++ bytes16 length ∧
      length.toNat = 1 + pdu.length ∧ (adu.drop 6).length = length.toNat ∧ adu.drop 6 = h.unitID :: pdu

/-- `DecodeADU` (R133) on any framed input with its six leading bytes, on any shorter one, and on any headless one. That a framed
input of 6 or 7 bytes with a wrong length is LengthMismatch, as the pseudocode and V-D8 have it, and not Truncated, as the last
sentence of R133 has it, is the model's choice, log entry 23. -/
def Obligations.AduDecodeOutcomes : Prop :=
  (∀ (tid pid len : U16) (rest : List Byte),
    decodeADU false (bytes16 tid ++ bytes16 pid ++ bytes16 len ++ rest) =
      if len.toNat ≠ rest.length then .error .lengthMismatch
      else match rest with
        | unit :: functionCode :: body => .ok (⟨.framed tid pid, unit, functionCode⟩, functionCode :: body)
        | _ => .error .truncated) ∧
  (∀ input : List Byte, input.length < 6 → decodeADU false input = .error .truncated) ∧
  (∀ input : List Byte, decodeADU true input =
      match input with
      | unit :: functionCode :: body => .ok (⟨.headless, unit, functionCode⟩, functionCode :: body)
      | _ => .error .truncated)

/-- R274 (a): DEC_REQ of ENC_REQ's bytes gives back the header and the request record. That the header comes back with the request's
function code, whatever the one it was given with, is the model's reading, log entry 22. -/
def Obligations.MasterRequestsComeBack : Prop :=
  ∀ (p : Params) (headless : Bool) (h : HeaderFields) (record : RequestRecord) (adu : List Byte),
    encodeRequestADU p headless h record = .ok adu →
    decodeRequestADU headless adu =
      .ok ({ headerFor headless h with functionCode := record.instr.functionCode }, .instr record.instr) ∧
    (∀ reference bits, record = .writeMultipleCoils reference bits →
      ∃ count data, record.instr = .writeMultipleCoils reference count data ∧ count.toNat = bits.length ∧
        (unpackLsb data).take bits.length = bits)

/-- R274 (b): DEC_RSP of ENC_RSP's bytes gives back the response record. That the header comes back with the function code of the PDU
is the model's reading, log entry 22; that ENC_RSP refuses the records for which the law could not hold is its reading too, log
entries 13 to 15. -/
def Obligations.ResponsesComeBack : Prop :=
  ∀ (headless : Bool) (h : HeaderFields) (record : Response) (pdu adu : List Byte),
    encodeResponse record = .ok pdu → encodeResponseADU headless h record = .ok adu →
    decodeResponseADU headless adu = .ok (responseHeader (headerFor headless h) pdu, record)

/-- R270, R271: a response PDU with bit 7 set is an exception response of exactly 2 bytes with any code; an unrecognized code with
bit 7 clear is the generic shell and never an error. -/
def Obligations.ExceptionsAndUnknownResponsesDecode : Prop :=
  ∀ (functionCode : Byte) (body : List Byte),
    (functionCode.getLsbD 7 = true →
      (∀ code, body = [code] → decodeResponse (functionCode :: body) = .ok (.exception (functionCode &&& 0x7F) code)) ∧
      (body = [] → decodeResponse (functionCode :: body) = .error .truncated) ∧
      (2 ≤ body.length → decodeResponse (functionCode :: body) = .error .trailing)) ∧
    (functionCode.getLsbD 7 = false →
      functionCode ∉ ([0x01, 0x02, 0x03, 0x04, 0x05, 0x06, 0x07, 0x08, 0x0B, 0x0C, 0x0F, 0x10, 0x11, 0x14, 0x15, 0x16, 0x17,
        0x18, 0x2B] : List Byte) →
      decodeResponse (functionCode :: body) = .ok (.unknown functionCode body))

/-- ENC_REQ's PDU of each request record (R267): the bytes of R94, or the construct error of the check it fails (R151 to R241, R273).
Where a record fails several checks, which of them is named (FieldValue before FileRequestCap, ByteCountOverflow before CountCap)
is the model's reading, log entry 12; that WriteMultipleCoils has no CountCap is its reading too, log entry 27. -/
def Obligations.RequestEncoderChecksEveryCap : Prop :=
  ∀ (p : Params) (x y z : U16) (a b c : Byte) (bits : List Bool) (values : List U16) (reads : List FileRead)
    (writes : List FileWrite),
    let reading (functionCode : Byte) (cap : Nat) : Except ConstructReason (List Byte) :=
      if cap < y.toNat then .error .countCap else .ok (functionCode :: (bytes16 x ++ bytes16 y))
    let writing : List Byte := bytes16 (u16Field values.length) ++ u8Field (2 * values.length) :: bytesOf values
    encodeRequest p (.readCoils x y) = reading 0x01 2000 ∧
    encodeRequest p (.readInputDiscretes x y) = reading 0x02 2000 ∧
    encodeRequest p (.readMultipleRegisters x y) = reading 0x03 p.maxReadRegs ∧
    encodeRequest p (.readInputRegisters x y) = reading 0x04 p.maxReadRegs ∧
    encodeRequest p (.writeCoil x y) =
      (if y ≠ 0xFF00 ∧ y ≠ 0x0000 then .error .fieldValue else .ok (0x05 :: (bytes16 x ++ bytes16 y))) ∧
    encodeRequest p (.writeSingleRegister x y) = .ok (0x06 :: (bytes16 x ++ bytes16 y)) ∧
    encodeRequest p .readExceptionStatus = .ok [0x07] ∧
    encodeRequest p (.readSerialDiagnostics x y) = .ok (0x08 :: (bytes16 x ++ bytes16 y)) ∧
    encodeRequest p .readCommEventCounter = .ok [0x0B] ∧
    encodeRequest p .readCommEventLog = .ok [0x0C] ∧
    encodeRequest p (.writeMultipleCoils x bits) =
      (if 255 < (bits.length + 7) / 8 then .error .byteCountOverflow
       else .ok (0x0F :: (bytes16 x ++ bytes16 (u16Field bits.length) ++
         u8Field ((bits.length + 7) / 8) :: packLsb bits ((bits.length + 7) / 8)))) ∧
    encodeRequest p (.writeMultipleRegisters x values) =
      (if 127 < values.length then .error .byteCountOverflow else .ok (0x10 :: (bytes16 x ++ writing))) ∧
    encodeRequest p .reportSlaveID = .ok [0x11] ∧
    encodeRequest p (.readFileRecord reads) =
      (if reads = [] then .error .noSubRequests
       else if ∃ s ∈ reads, s.refType ≠ 6 ∨ 9999 < s.record.toNat then .error .fieldValue
       else if 248 < 1 + 7 * reads.length then .error .fileRequestCap
       else .ok (0x14 :: u8Field (7 * reads.length) ::
         reads.flatMap fun s => s.refType :: (bytes16 s.file ++ bytes16 s.record ++ bytes16 s.wordCount))) ∧
    encodeRequest p (.writeFileRecord writes) =
      (if writes = [] then .error .noSubRequests
       else if ∃ s ∈ writes, s.refType ≠ 6 ∨ 9999 < s.record.toNat then .error .fieldValue
       else if 248 < 1 + (writes.map fun s => 7 + 2 * s.data.length).sum then .error .fileRequestCap
       else .ok (0x15 :: u8Field (writes.map fun s => 7 + 2 * s.data.length).sum ::
         writes.flatMap fun s => s.refType :: (bytes16 s.file ++ bytes16 s.record ++ bytes16 (u16Field s.data.length) ++
           bytesOf s.data))) ∧
    encodeRequest p (.maskWriteRegister x y z) = .ok (0x16 :: (bytes16 x ++ bytes16 y ++ bytes16 z)) ∧
    encodeRequest p (.readWriteMultiple x y z values) =
      (if 127 < values.length then .error .byteCountOverflow
       else if p.maxReadRegs < y.toNat then .error .countCap
       else .ok (0x17 :: (bytes16 x ++ bytes16 y ++ bytes16 z ++ writing))) ∧
    encodeRequest p (.readFIFOQueue x) = .ok (0x18 :: bytes16 x) ∧
    encodeRequest p (.readMEI a b c) = .ok [0x2B, a, b, c]

/-- ENC_RSP's PDU of each response record (R268): the bytes of R95, or the construct error of the check it fails (R151 to R241, R268,
R273). The model's readings: the cap is named before FieldValue where both fail, log entry 12, and FieldValue before the
size of a WriteFileRecord echo, log entry 25; an empty file response and an echo above 255 bytes are refused, log entry 13; so are
another MEI sub-code, log entry 14, and an unknown record with a recognized code or bit 7 set, log entry 15. That no bit or register
response has a CountCap, so that 251 to 255 bytes and up to 127 values are accepted, is the model's choice, log entry 27. -/
def Obligations.ResponseEncoderChecksEveryCap : Prop :=
  ∀ (x y z : U16) (a b c d e : Byte) (data : List Byte) (values : List U16) (records : List (List U16)) (subs : List FileWrite)
    (fields : List MeiField),
    let bits (functionCode : Byte) : Except ConstructReason (List Byte) :=
      if data.length ≠ a.toNat then .error .byteCountMismatch else .ok (functionCode :: a :: data)
    let words (functionCode : Byte) : Except ConstructReason (List Byte) :=
      if 127 < values.length then .error .byteCountMismatch
      else .ok (functionCode :: u8Field (2 * values.length) :: bytesOf values)
    encodeResponse (.readCoils a data) = bits 0x01 ∧
    encodeResponse (.readInputDiscretes a data) = bits 0x02 ∧
    encodeResponse (.readMultipleRegisters values) = words 0x03 ∧
    encodeResponse (.readInputRegisters values) = words 0x04 ∧
    encodeResponse (.readWriteMultiple values) = words 0x17 ∧
    encodeResponse (.writeCoil x y) =
      (if y ≠ 0xFF00 ∧ y ≠ 0x0000 then .error .fieldValue else .ok (0x05 :: (bytes16 x ++ bytes16 y))) ∧
    encodeResponse (.writeSingleRegister x y) = .ok (0x06 :: (bytes16 x ++ bytes16 y)) ∧
    encodeResponse (.readExceptionStatus a) = .ok [0x07, a] ∧
    encodeResponse (.readSerialDiagnostics x y) = .ok (0x08 :: (bytes16 x ++ bytes16 y)) ∧
    encodeResponse (.readCommEventCounter x y) =
      (if x ≠ 0x0000 ∧ x ≠ 0xFFFF then .error .fieldValue else .ok (0x0B :: (bytes16 x ++ bytes16 y))) ∧
    encodeResponse (.readCommEventLog x y z data) =
      (if 64 < data.length then .error .eventCap
       else if x ≠ 0x0000 ∧ x ≠ 0xFFFF then .error .fieldValue
       else .ok (0x0C :: u8Field (6 + data.length) :: (bytes16 x ++ bytes16 y ++ bytes16 z ++ data))) ∧
    encodeResponse (.writeMultipleCoils x y) = .ok (0x0F :: (bytes16 x ++ bytes16 y)) ∧
    encodeResponse (.writeMultipleRegisters x y) = .ok (0x10 :: (bytes16 x ++ bytes16 y)) ∧
    encodeResponse (.reportSlaveID a b data) =
      (if 249 < data.length then .error .deviceDataCap
       else if b ≠ 0x00 ∧ b ≠ 0xFF then .error .fieldValue
       else .ok (0x11 :: u8Field (data.length + 2) :: a :: b :: data)) ∧
    encodeResponse (.readFileRecord records) =
      (if records = [] then .error .noSubRequests
       else if 255 < (records.map fun w => 2 + 2 * w.length).sum then .error .byteCountOverflow
       else .ok (0x14 :: u8Field (records.map fun w => 2 + 2 * w.length).sum ::
         records.flatMap fun w => u8Field (1 + 2 * w.length) :: 0x06 :: bytesOf w)) ∧
    encodeResponse (.writeFileRecord subs) =
      (if subs = [] then .error .noSubRequests
       else if ∃ w ∈ subs, w.refType ≠ 6 ∨ 9999 < w.record.toNat then .error .fieldValue
       else if 255 < (subs.map fun w => 7 + 2 * w.data.length).sum then .error .byteCountOverflow
       else .ok (0x15 :: u8Field (subs.map fun w => 7 + 2 * w.data.length).sum ::
         subs.flatMap fun w => w.refType :: (bytes16 w.file ++ bytes16 w.record ++ bytes16 (u16Field w.data.length) ++
           bytesOf w.data))) ∧
    encodeResponse (.maskWriteRegister x y z) = .ok (0x16 :: (bytes16 x ++ bytes16 y ++ bytes16 z)) ∧
    encodeResponse (.readFIFOQueue values) =
      (if 31 < values.length then .error .countCap
       else .ok (0x18 :: (bytes16 (u16Field (2 + 2 * values.length)) ++ bytes16 (u16Field values.length) ++ bytesOf values))) ∧
    encodeResponse (.readMEI a b c d e fields) =
      (if 64 < fields.length then .error .meiFieldCap
       else if a ≠ 0x0E ∨ (d ≠ 0x00 ∧ d ≠ 0xFF) ∨ ∃ f ∈ fields, 255 < f.text.length then .error .fieldValue
       else .ok (0x2B :: a :: b :: c :: d :: e :: u8Field fields.length ::
         fields.flatMap fun f => f.id :: u8Field f.text.length :: f.text)) ∧
    encodeResponse (.exception a b) =
      (if a.getLsbD 7 = true then .error .fieldValue else .ok [a ||| 0x80, b]) ∧
    encodeResponse (.unknown a data) =
      (if a.getLsbD 7 = true ∨ a ∈ ([0x01, 0x02, 0x03, 0x04, 0x05, 0x06, 0x07, 0x08, 0x0B, 0x0C, 0x0F, 0x10, 0x11, 0x14, 0x15, 0x16,
          0x17, 0x18, 0x2B] : List Byte) then .error .fieldValue
       else .ok (a :: data))

/-- What DEC_RSP makes of a normal response whose length is not that of its format (R11, R93, R97): the body that ends too soon is
Truncated, the one that goes on is Trailing, and the odd byte count of a register response is ByteCountMismatch before either (R155,
R157, R191). That the odd count comes first, as the steps of R155 have it and R306 does not, is the model's choice, log entry 26. -/
def Obligations.ResponseDecoderChecksEveryLength : Prop :=
  (∀ (functionCode : Byte) (length : Nat) (body : List Byte),
    (functionCode, length) ∈ ([(0x05, 4), (0x06, 4), (0x07, 1), (0x08, 4), (0x0B, 4), (0x0F, 4), (0x10, 4),
      (0x16, 6)] : List (Byte × Nat)) →
    (body.length < length → decodeResponse (functionCode :: body) = .error .truncated) ∧
    (length < body.length → decodeResponse (functionCode :: body) = .error .trailing)) ∧
  (∀ functionCode ∈ ([0x01, 0x02, 0x0C, 0x11, 0x14, 0x15] : List Byte),
    decodeResponse [functionCode] = .error .truncated ∧
    ∀ (byteCount : Byte) (data : List Byte),
      (data.length < byteCount.toNat → decodeResponse (functionCode :: byteCount :: data) = .error .truncated) ∧
      (byteCount.toNat < data.length → decodeResponse (functionCode :: byteCount :: data) = .error .trailing)) ∧
  (∀ functionCode ∈ ([0x03, 0x04, 0x17] : List Byte),
    decodeResponse [functionCode] = .error .truncated ∧
    ∀ (byteCount : Byte) (data : List Byte),
      (byteCount.toNat % 2 = 1 → decodeResponse (functionCode :: byteCount :: data) = .error .byteCountMismatch) ∧
      (byteCount.toNat % 2 = 0 → data.length < byteCount.toNat →
        decodeResponse (functionCode :: byteCount :: data) = .error .truncated) ∧
      (byteCount.toNat % 2 = 0 → byteCount.toNat < data.length →
        decodeResponse (functionCode :: byteCount :: data) = .error .trailing)) ∧
  (∀ body : List Byte, body.length < 2 → decodeResponse (0x18 :: body) = .error .truncated) ∧
  (∀ (byteCount : U16) (data : List Byte),
    (data.length < byteCount.toNat → decodeResponse (0x18 :: (bytes16 byteCount ++ data)) = .error .truncated) ∧
    (byteCount.toNat < data.length → decodeResponse (0x18 :: (bytes16 byteCount ++ data)) = .error .trailing)) ∧
  (∀ (a b c d e : Byte) (fields : List MeiField) (body : List Byte), fields.length ≤ 255 → (∀ f ∈ fields, f.text.length ≤ 255) →
    body = a :: b :: c :: d :: e :: u8Field fields.length :: (fields.flatMap fun f => f.id :: u8Field f.text.length :: f.text) →
    (∀ given missing, missing ≠ [] → body = given ++ missing → decodeResponse (0x2B :: given) = .error .truncated) ∧
    (∀ more, more ≠ [] → decodeResponse (0x2B :: (body ++ more)) = .error .trailing))

/-- What DEC_RSP makes of a normal response of the right length (R151 to R241): the record of its fields, or ByteCountMismatch where a
count disagrees with what it counts (R98) and FieldValue where a field is outside its value set (decision D28). -/
def Obligations.ResponseDecoderChecksEveryField : Prop :=
  ∀ (x y z : U16) (a b c d e : Byte) (data : List Byte), data.length ≤ 255 →
    decodeResponse (0x01 :: u8Field data.length :: data) = .ok (.readCoils (u8Field data.length) data) ∧
    decodeResponse (0x02 :: u8Field data.length :: data) = .ok (.readInputDiscretes (u8Field data.length) data) ∧
    (data.length % 2 = 0 →
      decodeResponse (0x03 :: u8Field data.length :: data) = .ok (.readMultipleRegisters (wordsOf data)) ∧
      decodeResponse (0x04 :: u8Field data.length :: data) = .ok (.readInputRegisters (wordsOf data)) ∧
      decodeResponse (0x17 :: u8Field data.length :: data) = .ok (.readWriteMultiple (wordsOf data))) ∧
    decodeResponse (0x05 :: (bytes16 x ++ bytes16 y)) =
      (if y = 0xFF00 ∨ y = 0x0000 then .ok (.writeCoil x y) else .error .fieldValue) ∧
    decodeResponse (0x06 :: (bytes16 x ++ bytes16 y)) = .ok (.writeSingleRegister x y) ∧
    decodeResponse [0x07, a] = .ok (.readExceptionStatus a) ∧
    decodeResponse (0x08 :: (bytes16 x ++ bytes16 y)) = .ok (.readSerialDiagnostics x y) ∧
    decodeResponse (0x0B :: (bytes16 x ++ bytes16 y)) =
      (if x = 0x0000 ∨ x = 0xFFFF then .ok (.readCommEventCounter x y) else .error .fieldValue) ∧
    (data.length < 6 ∨ 70 < data.length →
      decodeResponse (0x0C :: u8Field data.length :: data) = .error .byteCountMismatch) ∧
    (data.length ≤ 64 →
      decodeResponse (0x0C :: u8Field (6 + data.length) :: (bytes16 x ++ bytes16 y ++ bytes16 z ++ data)) =
        (if x = 0x0000 ∨ x = 0xFFFF then .ok (.readCommEventLog x y z data) else .error .fieldValue)) ∧
    decodeResponse (0x0F :: (bytes16 x ++ bytes16 y)) = .ok (.writeMultipleCoils x y) ∧
    decodeResponse (0x10 :: (bytes16 x ++ bytes16 y)) = .ok (.writeMultipleRegisters x y) ∧
    (data.length < 2 ∨ 251 < data.length →
      decodeResponse (0x11 :: u8Field data.length :: data) = .error .byteCountMismatch) ∧
    (data.length ≤ 249 →
      decodeResponse (0x11 :: u8Field (2 + data.length) :: a :: b :: data) =
        (if b = 0x00 ∨ b = 0xFF then .ok (.reportSlaveID a b data) else .error .fieldValue)) ∧
    decodeResponse [0x14, 0] = .error .byteCountMismatch ∧
    (∀ (records : List (List U16)) (len : Byte) (rest : List Byte),
      data = (records.flatMap fun w => u8Field (1 + 2 * w.length) :: 0x06 :: bytesOf w) ++ len :: rest →
      (len.toNat % 2 = 0 ∨ rest.length < len.toNat →
        decodeResponse (0x14 :: u8Field data.length :: data) = .error .byteCountMismatch) ∧
      (len.toNat % 2 = 1 → len.toNat ≤ rest.length → rest.head? ≠ some 6 →
        decodeResponse (0x14 :: u8Field data.length :: data) = .error .fieldValue)) ∧
    (∀ records : List (List U16), records ≠ [] →
      data = (records.flatMap fun w => u8Field (1 + 2 * w.length) :: 0x06 :: bytesOf w) →
      decodeResponse (0x14 :: u8Field data.length :: data) = .ok (.readFileRecord records)) ∧
    (∀ subs : List FileWrite, subs ≠ [] →
      data = (subs.flatMap fun x => x.refType :: (bytes16 x.file ++ bytes16 x.record ++
        bytes16 (u16Field x.data.length) ++ bytesOf x.data)) →
      decodeResponse (0x15 :: u8Field data.length :: data) = .ok (.writeFileRecord subs)) ∧
    ((∀ subs : List FileWrite, subs ≠ [] →
      data ≠ (subs.flatMap fun x => x.refType :: (bytes16 x.file ++ bytes16 x.record ++
        bytes16 (u16Field x.data.length) ++ bytesOf x.data))) →
      decodeResponse (0x15 :: u8Field data.length :: data) = .error .byteCountMismatch) ∧
    decodeResponse (0x16 :: (bytes16 x ++ bytes16 y ++ bytes16 z)) = .ok (.maskWriteRegister x y z) ∧
    (data.length < 2 → decodeResponse (0x18 :: (bytes16 (u16Field data.length) ++ data)) = .error .byteCountMismatch) ∧
    (∀ values : List Byte, 2 + values.length ≤ 65535 →
      decodeResponse (0x18 :: (bytes16 (u16Field (2 + values.length)) ++ bytes16 x ++ values)) =
        (if values.length = 2 * x.toNat ∧ x.toNat ≤ 31 then .ok (.readFIFOQueue (wordsOf values))
         else .error .byteCountMismatch)) ∧
    (∀ fields : List MeiField, fields.length ≤ 255 → (∀ f ∈ fields, f.text.length ≤ 255) →
      decodeResponse (0x2B :: a :: b :: c :: d :: e :: u8Field fields.length ::
          fields.flatMap fun f => f.id :: u8Field f.text.length :: f.text) =
        (if fields.length ≤ 64 ∧ (d = 0x00 ∨ d = 0xFF) ∧ a = 0x0E then .ok (.readMEI a b c d e fields)
         else .error .fieldValue))

/-! ## A step -/

/-- When the next command is a SERVE whose bytes decode to an instruction, the step is that instruction's `exec`, in the state in
which the command is taken and the header, the request and the cursor are latched (R32, R43, R266). That the cursor is latched as the
whole length of the input is the model's choice, log entry 24. -/
def Obligations.StepRunsTheDecodedInstruction : Prop :=
  ∀ (s : State) (headless : Bool) (input pdu : List Byte) (rest : List Command) (h : Header) (i : Instr),
    s.commands = .serve headless input :: rest → decodeADU headless input = .ok (h, pdu) → decode pdu = .ok i →
    step s = exec i { s with
      commands := rest
      latches := { s.latches with header := h, request := some (.instr i), cursor := input.length } }

/-- A word of the opcode table placed where the step fetches is the instruction the step runs. How it is placed (a headless SERVE
with unit id 0) is the model's choice, log entry 8, and so is the cursor it latches, log entry 24. -/
def Obligations.FetchWordIsRun : Prop :=
  ∀ (s : State) (nbits w : Nat) (i : Instr), decodeTableWord nbits w = some i →
    step (s.withFetchWord nbits w) = exec i { s with
      commands := s.commands.tail
      latches := { s.latches with
        header := ⟨.headless, 0, i.functionCode⟩
        request := some (.instr i)
        cursor := 1 + (tableWordPdu nbits w).length } }

/-- The four commands that make no image access: their outcome, and nothing else changed (R40, R42, R261, R267, R268, R270). The codec
of each is that of its PDU with `DecodeADU` before it or `EncodeADU` after it, and the error of either is the command's (R133, R135). -/
def Obligations.CodecCommandsOnlyGiveTheirOutcome : Prop :=
  (∀ (s : State) (rest : List Command) (headless : Bool) (input : List Byte) (h : HeaderFields) (request : RequestRecord)
    (response : Response), s.schedule = [] →
    let finished (result : Result) : State := { s with commands := rest, latches := Latches.idle, outcome := some result }
    (s.commands = .decReq headless input :: rest →
      step s = .next (finished (match decodeRequestADU headless input with
        | .ok v => .ok (.request v.1 v.2)
        | .error reason => .decodeError reason))) ∧
    (s.commands = .decRsp headless input :: rest →
      step s = .next (finished (match decodeResponseADU headless input with
        | .ok v => .ok (.response v.1 v.2)
        | .error reason => .decodeError reason))) ∧
    (s.commands = .encReq headless h request :: rest →
      step s = .next (finished (match encodeRequestADU s.cfg headless h request with
        | .ok adu => .ok (.bytes adu)
        | .error reason => .constructError reason))) ∧
    (s.commands = .encRsp headless h response :: rest →
      step s = .next (finished (match encodeResponseADU headless h response with
        | .ok adu => .ok (.bytes adu)
        | .error reason => .constructError reason)))) ∧
  (∀ (headless : Bool) (input : List Byte),
    (∀ reason, decodeADU headless input = .error reason →
      decodeRequestADU headless input = .error reason ∧ decodeResponseADU headless input = .error reason) ∧
    (∀ header pdu, decodeADU headless input = .ok (header, pdu) →
      (∀ i, decode pdu = .ok i → decodeRequestADU headless input = .ok (header, .instr i)) ∧
      (∀ functionCode, decode pdu = .error (.illegalFunction functionCode) →
        decodeRequestADU headless input = .ok (header, .illegalFunction functionCode)) ∧
      (∀ reason, decode pdu = .error (.malformed reason) → decodeRequestADU headless input = .error reason) ∧
      (∀ record, decodeResponse pdu = .ok record → decodeResponseADU headless input = .ok (header, record)) ∧
      (∀ reason, decodeResponse pdu = .error reason → decodeResponseADU headless input = .error reason))) ∧
  (∀ (p : Params) (headless : Bool) (h : HeaderFields) (request : RequestRecord) (response : Response),
    let header : Header :=
      { framing := if headless then .headless else .framed h.transactionID h.protocolID
        unitID := h.unitID
        functionCode := h.functionCode }
    (∀ pdu, encodeRequest p request = .ok pdu → encodeRequestADU p headless h request = encodeADU header pdu) ∧
    (∀ reason, encodeRequest p request = .error reason → encodeRequestADU p headless h request = .error reason) ∧
    (∀ pdu, encodeResponse response = .ok pdu → encodeResponseADU headless h response = encodeADU header pdu) ∧
    (∀ reason, encodeResponse response = .error reason → encodeResponseADU headless h response = .error reason))

/-- A SERVE whose bytes do not decode makes no image access and gives no bytes (R265, R266, R272). -/
def Obligations.DecodeErrorsTouchNothing : Prop :=
  ∀ (s : State) (headless : Bool) (input : List Byte) (rest : List Command) (reason : DecodeReason), s.schedule = [] →
    s.commands = .serve headless input :: rest → decodeRequestADU headless input = .error reason →
    step s = .next { s with commands := rest, latches := Latches.idle, outcome := some (.decodeError reason) }

/-- With no command and no other agent the engine stays as it is (R317). That a step exists then is the model's choice, log
entry 21. -/
def Obligations.IdleEngineStays : Prop :=
  ∀ s : State, s.schedule = [] → s.commands = [] → step s = .next s

/-- No step stops, whatever the state, the command, the bytes and the other agents (R275, R349); so no accessor is ever asked for an
element outside its space (R65). Each command that no reset abandons ends with an outcome (R42), and the configuration is unchanged
(R35). The model's choices: the step of a state without commands, log entry 21, and a command abandoned by a reset is consumed, log
entry 7. -/
def Obligations.EveryCommandEnds : Prop :=
  ∀ s : State, ∃ t, step s = .next t ∧ t.cfg = s.cfg ∧ t.commands = s.commands.tail ∧
    (s.commands ≠ [] → s.NoReset → ∃ result, t.outcome = some result)

/-- The machine runs on for any number of steps from any state (R275: nothing in this layer is fatal). That it still steps, idle, once
the commands are used up is the model's choice, log entry 21. -/
def Obligations.TheMachineNeverStops : Prop := ∀ (s : State) (k : Nat), RunsOn s k

/-- Every step keeps the invariant: the parameters and device inputs in their domains (R8, R44), the image canonical and within its
spaces (R34, R77, R78), no latch surviving (R43). -/
def Obligations.StepsKeepTheInvariant : Prop :=
  ∀ s t : State, s.Good → step s = .next t → t.Good

/-- The reset state has the invariant. Its image, inputs and sizes are the model's choice, log entries 1 to 4. -/
def Obligations.ResetHasTheInvariant : Prop := State.reset.Good

/-- What the latches and the output interface held before a command makes no difference to it (R30, R43, R342). -/
def Obligations.NoTransactionDependsOnAnEarlierOne : Prop :=
  ∀ (s : State) (latches : Latches) (outcome : Option Result), s.commands ≠ [] →
    step { s with latches := latches, outcome := outcome } = step s

/-- In a state of the invariant a SERVE of a message that decodes is answered: its outcome is OK with bytes (R266), and it leaves no
outcome only where a reset of this engine is among the events to come (R340). -/
def Obligations.ServeAnswersEveryRequest : Prop :=
  ∀ (s : State) (headless : Bool) (input : List Byte) (rest : List Command) (v : Header × Request), s.Good →
    s.commands = .serve headless input :: rest → decodeRequestADU headless input = .ok v →
    ∃ t, step s = .next t ∧
      ((∃ adu, t.outcome = some (.ok (.bytes adu))) ∨
        (t.outcome = none ∧ ∃ slot ∈ s.schedule, Event.reset ∈ slot))

/-- R274 (c): the bytes a SERVE gives always decode under DEC_RSP. -/
def Obligations.ServeOutputDecodes : Prop :=
  ∀ (s t : State) (headless : Bool) (input adu : List Byte) (rest : List Command),
    s.commands = .serve headless input :: rest → step s = .next t → t.outcome = some (.ok (.bytes adu)) →
    ∃ h record, decodeResponseADU headless adu = .ok (h, record)

/-! ## Frames and whole-machine rules -/

/-- The frame of every instruction, whatever the other agents do: the configuration and the commands to come are unchanged, no latch
survives, and an element that exists, that the instruction does not write (R36) and that no event writes keeps its value. With no
other agent active the device inputs and the schedule are unchanged too. -/
def Obligations.InstructionFrame : Prop :=
  ∀ (i : Instr) (s t : State), exec i s = .next t →
    t.cfg = s.cfg ∧ t.commands = s.commands ∧ t.latches = Latches.idle ∧
    (s.schedule = [] → t.dev = s.dev ∧ t.schedule = []) ∧
    (s.cfg.wf = true → s.image.wf = true → ∀ e : Element, e.present s.cfg = true → ¬ writeTargets i e → s.LeftAlone e →
      t.image.element e = s.image.element e)

/-- R36: no function code writes DI or IR, even through another engine; COIL, HR and FILE are written by the function codes named. -/
def Obligations.OnlyTheNamedFunctionCodesWrite : Prop :=
  ∀ (i : Instr) (s t : State), exec i s = .next t →
    ((∀ slot ∈ s.schedule, ∀ w, Event.write .application w ∈ slot → w.byFunctionCode = true) →
      t.image.di = s.image.di ∧ t.image.ir = s.image.ir) ∧
    (s.schedule = [] →
      (t.image.coil ≠ s.image.coil → (∃ a b, i = .writeCoil a b) ∨ ∃ a b c, i = .writeMultipleCoils a b c) ∧
      (t.image.hr ≠ s.image.hr → (∃ a b, i = .writeSingleRegister a b) ∨ (∃ a b, i = .writeMultipleRegisters a b) ∨
        (∃ a b c, i = .maskWriteRegister a b c) ∨ ∃ a b c d, i = .readWriteMultiple a b c d) ∧
      (t.image.file ≠ s.image.file → ∃ a, i = .writeFileRecord a))

/-- R70, R307: when an instruction answers with an exception it has written nothing: every element is as the other agents left it;
with none active the image is as before. -/
def Obligations.ExceptionsArePrecise : Prop :=
  ∀ (i : Instr) (s t : State) (code : Byte), exec i s = .next t →
    t.outcome = some (.ok (.bytes (aduOf s.latches.header (exceptionPdu i.functionCode code)))) →
    (s.schedule = [] → t.image = s.image) ∧
    (s.cfg.wf = true → s.image.wf = true → ∀ e : Element, e.present s.cfg = true → s.LeftAlone e →
      t.image.element e = s.image.element e)

/-- R301, R307: an exception of each kind is a normal result with the 2-byte PDU `fc | 0x80`, code; nothing else is saved or
changed. -/
def Obligations.TakingAnException : Prop :=
  ∀ (functionCode : Byte) (s : State), s.schedule = [] →
    takeException functionCode .illegalFunction s = .next (s.answered s.image [functionCode ||| 0x80, 1]) ∧
    takeException functionCode .illegalAddress s = .next (s.answered s.image [functionCode ||| 0x80, 2]) ∧
    takeException functionCode .illegalValue s = .next (s.answered s.image [functionCode ||| 0x80, 3])

/-- Every answer of an instruction is a normal response, which begins with the instruction's function code, or an exception response,
which is `fc | 0x80` and one of the three codes (R95, R301, R305). -/
def Obligations.AnswersCarryTheFunctionCode : Prop :=
  ∀ (i : Instr) (s t : State) (adu : List Byte), exec i s = .next t → t.outcome = some (.ok (.bytes adu)) →
    ∃ pdu, adu = aduOf s.latches.header pdu ∧
      ((∃ rest, pdu = i.functionCode :: rest) ∨
        ∃ code ∈ ([1, 2, 3] : List Byte), pdu = [i.functionCode ||| 0x80, code])

/-- R302: exception code 1 has exactly two causes, whatever the other agents do, unless a reset comes (R340). -/
def Obligations.CausesOfIllegalFunction : Prop :=
  ∀ (s t : State) (headless : Bool) (input : List Byte) (rest : List Command) (h : Header) (request : Request),
    s.NoReset → s.commands = .serve headless input :: rest → decodeRequestADU headless input = .ok (h, request) →
    step s = .next t →
    (t.outcome = some (.ok (.bytes (aduOf h (exceptionPdu h.functionCode 1)))) ↔
      request = .illegalFunction h.functionCode ∨
      ∃ subCode fieldLevel fieldId, request = .instr (.readMEI subCode fieldLevel fieldId) ∧ subCode ≠ 0x0E)

/-! ## The Read family -/

/-- ReadCoils and ReadInputDiscretes on a range the checks admit: the elements of the range, packed; nothing else changes
(R150, R152). -/
def Obligations.BitReadsAnswerTheElements : Prop :=
  ∀ (s : State) (reference count : U16), s.schedule = [] → count.toNat ≤ 2000 →
    reference.toNat + count.toNat < 65536 →
    ((count.toNat = 0 ∨ reference.toNat + count.toNat ≤ s.cfg.nCOIL) →
      exec (.readCoils reference count) s = .next (s.answered s.image
        (0x01 :: u8Field ((count.toNat + 7) / 8) ::
          packLsb ((List.range count.toNat).map fun k => s.image.bit .coil (reference.toNat + k))
            ((count.toNat + 7) / 8)))) ∧
    ((count.toNat = 0 ∨ reference.toNat + count.toNat ≤ s.cfg.nDI) →
      exec (.readInputDiscretes reference count) s = .next (s.answered s.image
        (0x02 :: u8Field ((count.toNat + 7) / 8) ::
          packLsb ((List.range count.toNat).map fun k => s.image.bit .di (reference.toNat + k))
            ((count.toNat + 7) / 8))))

/-- ReadMultipleRegisters and ReadInputRegisters on a range the checks admit: the registers of the range, big-endian; nothing else
changes (R154, R156). The cap is the parameter `MAX_READ_REGS`, at most 127 (R8). -/
def Obligations.RegisterReadsAnswerTheElements : Prop :=
  ∀ (s : State) (reference count : U16), s.schedule = [] → s.cfg.maxReadRegs ≤ 127 → count.toNat ≤ s.cfg.maxReadRegs →
    reference.toNat + count.toNat < 65536 →
    ((count.toNat = 0 ∨ reference.toNat + count.toNat ≤ s.cfg.nHR) →
      exec (.readMultipleRegisters reference count) s = .next (s.answered s.image
        (0x03 :: u8Field (2 * count.toNat) ::
          bytesOf ((List.range count.toNat).map fun k => s.image.word .hr (reference.toNat + k))))) ∧
    ((count.toNat = 0 ∨ reference.toNat + count.toNat ≤ s.cfg.nIR) →
      exec (.readInputRegisters reference count) s = .next (s.answered s.image
        (0x04 :: u8Field (2 * count.toNat) ::
          bytesOf ((List.range count.toNat).map fun k => s.image.word .ir (reference.toNat + k)))))

/-- Where the four reads answer an exception: the count above its cap is code 3, and is checked before the range, whose failure is
code 2 (R150 to R156, R262, R306). -/
def Obligations.ReadsTrap : Prop :=
  ∀ (s : State) (reference count : U16), s.schedule = [] →
    (2000 < count.toNat →
      exec (.readCoils reference count) s = .next (s.answered s.image [0x81, 3]) ∧
      exec (.readInputDiscretes reference count) s = .next (s.answered s.image [0x82, 3])) ∧
    (s.cfg.maxReadRegs < count.toNat →
      exec (.readMultipleRegisters reference count) s = .next (s.answered s.image [0x83, 3]) ∧
      exec (.readInputRegisters reference count) s = .next (s.answered s.image [0x84, 3])) ∧
    (count.toNat ≤ 2000 →
      (65536 ≤ reference.toNat + count.toNat ∨ (count.toNat ≠ 0 ∧ s.cfg.nCOIL < reference.toNat + count.toNat) →
        exec (.readCoils reference count) s = .next (s.answered s.image [0x81, 2])) ∧
      (65536 ≤ reference.toNat + count.toNat ∨ (count.toNat ≠ 0 ∧ s.cfg.nDI < reference.toNat + count.toNat) →
        exec (.readInputDiscretes reference count) s = .next (s.answered s.image [0x82, 2]))) ∧
    (count.toNat ≤ s.cfg.maxReadRegs →
      (65536 ≤ reference.toNat + count.toNat ∨ (count.toNat ≠ 0 ∧ s.cfg.nHR < reference.toNat + count.toNat) →
        exec (.readMultipleRegisters reference count) s = .next (s.answered s.image [0x83, 2])) ∧
      (65536 ≤ reference.toNat + count.toNat ∨ (count.toNat ≠ 0 ∧ s.cfg.nIR < reference.toNat + count.toNat) →
        exec (.readInputRegisters reference count) s = .next (s.answered s.image [0x84, 2])))

/-! ## The Write family -/

/-- WriteCoil of a legal value to a coil that exists, and WriteSingleRegister to a register that exists: the element has the value,
no other element changes, the request is echoed (R170, R173). -/
def Obligations.SingleWritesStoreAndEcho : Prop :=
  ∀ (s : State) (reference value : U16), s.schedule = [] → s.image.wf = true →
    (reference.toNat < s.cfg.nCOIL → value = 0xFF00 ∨ value = 0x0000 →
      ∃ im, exec (.writeCoil reference value) s = .next (s.answered im (0x05 :: (bytes16 reference ++ bytes16 value))) ∧
        im.bit .coil reference.toNat = decide (value = 0xFF00) ∧
        ∀ e, e ≠ .coil reference.toNat → im.element e = s.image.element e) ∧
    (reference.toNat < s.cfg.nHR →
      ∃ im, exec (.writeSingleRegister reference value) s =
          .next (s.answered im (0x06 :: (bytes16 reference ++ bytes16 value))) ∧
        im.word .hr reference.toNat = value ∧
        ∀ e, e ≠ .hr reference.toNat → im.element e = s.image.element e)

/-- WriteMultipleCoils on a range that exists: coil `reference + k` has bit `k mod 8` of data byte `k / 8`, the padding is ignored, no
other element changes, reference and count are echoed (R176). -/
def Obligations.MultipleCoilWritesStoreEveryBit : Prop :=
  ∀ (s : State) (reference count : U16) (data : List Byte), s.schedule = [] → s.image.wf = true →
    (Instr.writeMultipleCoils reference count data).wellFormed = true →
    (count.toNat = 0 ∨ reference.toNat + count.toNat ≤ s.cfg.nCOIL) →
    ∃ im, exec (.writeMultipleCoils reference count data) s =
        .next (s.answered im (0x0F :: (bytes16 reference ++ bytes16 count))) ∧
      (∀ k < count.toNat, im.bit .coil (reference.toNat + k) = (data.getD (k / 8) 0).getLsbD (k % 8)) ∧
      ∀ e, ¬ writeTargets (.writeMultipleCoils reference count data) e → im.element e = s.image.element e

/-- WriteMultipleRegisters on a range that exists: register `reference + k` has value k, no other element changes, reference and
count are echoed (R180). -/
def Obligations.MultipleRegisterWritesStoreEveryWord : Prop :=
  ∀ (s : State) (reference : U16) (values : List U16), s.schedule = [] → s.image.wf = true →
    (values.length = 0 ∨ reference.toNat + values.length ≤ s.cfg.nHR) →
    ∃ im, exec (.writeMultipleRegisters reference values) s =
        .next (s.answered im (0x10 :: (bytes16 reference ++ bytes16 (u16Field values.length)))) ∧
      (∀ k < values.length, im.word .hr (reference.toNat + k) = values.getD k 0) ∧
      ∀ e, ¬ writeTargets (.writeMultipleRegisters reference values) e → im.element e = s.image.element e

/-- MaskWriteRegister on a register that exists: `(v & andMask) | (orMask & ~andMask)`, no other element changes, the request is
echoed (R185). -/
def Obligations.MaskWriteStoresTheMaskedValue : Prop :=
  ∀ (s : State) (reference andMask orMask : U16), s.schedule = [] → s.image.wf = true → reference.toNat < s.cfg.nHR →
    ∃ im, exec (.maskWriteRegister reference andMask orMask) s =
        .next (s.answered im (0x16 :: (bytes16 reference ++ bytes16 andMask ++ bytes16 orMask))) ∧
      im.word .hr reference.toNat =
        (s.image.word .hr reference.toNat &&& andMask) ||| (orMask &&& ~~~andMask) ∧
      ∀ e, e ≠ .hr reference.toNat → im.element e = s.image.element e

/-- R187: the mask-write function is idempotent, and so is a replayed MaskWriteRegister; the source's masks take 0x1234 to 0x12FF
both times. -/
def Obligations.MaskWriteReplayChangesNothing : Prop :=
  (∀ v andMask orMask : U16, maskWrite (maskWrite v andMask orMask) andMask orMask = maskWrite v andMask orMask) ∧
  maskWrite 0x1234 0xFF00 0x00FF = 0x12FF ∧ maskWrite 0x12FF 0xFF00 0x00FF = 0x12FF ∧
  (∀ (s t u : State) (reference andMask orMask : U16), s.schedule = [] → s.image.wf = true →
    exec (.maskWriteRegister reference andMask orMask) s = .next t →
    exec (.maskWriteRegister reference andMask orMask) t = .next u → u.image = t.image)

/-- ReadWriteMultiple on ranges the checks admit: the writes are made first, so the answer is what the written image holds; no other
element changes (R190). -/
def Obligations.ReadWriteMultipleReadsWhatItWrote : Prop :=
  ∀ (s : State) (readRef readCount writeRef : U16) (values : List U16), s.schedule = [] → s.image.wf = true →
    s.cfg.maxReadRegs ≤ 127 → readCount.toNat ≤ s.cfg.maxReadRegs → readRef.toNat + readCount.toNat < 65536 →
    (readCount.toNat = 0 ∨ readRef.toNat + readCount.toNat ≤ s.cfg.nHR) →
    (values.length = 0 ∨ writeRef.toNat + values.length ≤ s.cfg.nHR) →
    ∃ im, exec (.readWriteMultiple readRef readCount writeRef values) s = .next (s.answered im
        (0x17 :: u8Field (2 * readCount.toNat) ::
          bytesOf ((List.range readCount.toNat).map fun k => im.word .hr (readRef.toNat + k)))) ∧
      (∀ k < values.length, im.word .hr (writeRef.toNat + k) = values.getD k 0) ∧
      ∀ e, ¬ writeTargets (.readWriteMultiple readRef readCount writeRef values) e → im.element e = s.image.element e

/-- Where the writes answer an exception, with nothing written: a coil value is checked before the reference, a read count before
the ranges (R170 to R190, R263, R264, R306). -/
def Obligations.WritesTrap : Prop :=
  ∀ (s : State) (reference a b : U16) (values : List U16) (data : List Byte), s.schedule = [] →
    (a ≠ 0xFF00 → a ≠ 0x0000 → exec (.writeCoil reference a) s = .next (s.answered s.image [0x85, 3])) ∧
    ((a = 0xFF00 ∨ a = 0x0000) → s.cfg.nCOIL ≤ reference.toNat →
      exec (.writeCoil reference a) s = .next (s.answered s.image [0x85, 2])) ∧
    (s.cfg.nHR ≤ reference.toNat →
      exec (.writeSingleRegister reference a) s = .next (s.answered s.image [0x86, 2]) ∧
      exec (.maskWriteRegister reference a b) s = .next (s.answered s.image [0x96, 2])) ∧
    (a.toNat ≠ 0 → s.cfg.nCOIL < reference.toNat + a.toNat →
      exec (.writeMultipleCoils reference a data) s = .next (s.answered s.image [0x8F, 2])) ∧
    (values.length ≠ 0 → s.cfg.nHR < reference.toNat + values.length →
      exec (.writeMultipleRegisters reference values) s = .next (s.answered s.image [0x90, 2])) ∧
    (s.cfg.maxReadRegs < b.toNat →
      exec (.readWriteMultiple a b reference values) s = .next (s.answered s.image [0x97, 3])) ∧
    (b.toNat ≤ s.cfg.maxReadRegs →
      65536 ≤ a.toNat + b.toNat ∨ (b.toNat ≠ 0 ∧ s.cfg.nHR < a.toNat + b.toNat) ∨
        (values.length ≠ 0 ∧ s.cfg.nHR < reference.toNat + values.length) →
      exec (.readWriteMultiple a b reference values) s = .next (s.answered s.image [0x97, 2]))

/-- R344: a ReadMultipleRegisters after a WriteMultipleRegisters of the same range answers the values written. -/
def Obligations.WriteThenReadGivesTheValues : Prop :=
  ∀ (s t : State) (reference : U16) (values : List U16), s.schedule = [] → s.image.wf = true → s.cfg.maxReadRegs ≤ 127 →
    values.length ≤ s.cfg.maxReadRegs → reference.toNat + values.length < 65536 →
    reference.toNat + values.length ≤ s.cfg.nHR → exec (.writeMultipleRegisters reference values) s = .next t →
    exec (.readMultipleRegisters reference (u16Field values.length)) t =
      .next (t.answered t.image (0x03 :: u8Field (2 * values.length) :: bytesOf values))

/-! ## The Extended family -/

/-- The four status functions answer with the device inputs as sampled (R200, R210, R213, R216). -/
def Obligations.StatusFunctionsAnswerTheInputs : Prop :=
  ∀ s : State, s.schedule = [] → s.dev.wf = true →
    exec .readExceptionStatus s = .next (s.answered s.image [0x07, s.dev.exceptionStatus]) ∧
    exec .readCommEventCounter s =
      .next (s.answered s.image (0x0B :: (bytes16 s.dev.commStatus ++ bytes16 s.dev.eventCount))) ∧
    exec .readCommEventLog s = .next (s.answered s.image
      (0x0C :: u8Field (6 + s.dev.events.length) :: (bytes16 s.dev.commStatus ++ bytes16 s.dev.eventCount ++
        bytes16 s.dev.messageCount ++ s.dev.events))) ∧
    exec .reportSlaveID s = .next (s.answered s.image
      (0x11 :: u8Field (s.dev.deviceData.length + 2) :: s.dev.slaveId :: s.dev.runStatus :: s.dev.deviceData))

/-- ReadSerialDiagnostics answers with `DIAG_HANDLER` of its fields (R205). That the handler is a table of rows over the identity, so
that it gives the fields themselves where no row names them, is the model's choice, log entry 9. -/
def Obligations.DiagnosticsAnswerTheHandler : Prop :=
  ∀ (s : State) (subFunction data : U16), s.schedule = [] →
    exec (.readSerialDiagnostics subFunction data) s = .next (s.answered s.image
      (0x08 :: (bytes16 (s.cfg.diagHandler subFunction data).1 ++ bytes16 (s.cfg.diagHandler subFunction data).2))) ∧
    ((∀ row ∈ s.cfg.diagRows, ¬ (row.subFunction = subFunction ∧ row.data = data)) →
      s.cfg.diagHandler subFunction data = (subFunction, data))

/-- ReadFileRecord of sub-requests that all pass their check and fit the response: each sub-response's words, in order; nothing else
changes (R220, R221). -/
def Obligations.FileReadsAnswerTheRecords : Prop :=
  ∀ (s : State) (subs : List FileRead), s.schedule = [] → subs ≠ [] →
    (∀ x ∈ subs, x.refType = 6 ∧ x.file.toNat < s.cfg.nFiles ∧ x.record.toNat ≤ 9999 ∧
      x.record.toNat < s.cfg.records x.file.toNat ∧ x.wordCount.toNat ≤ s.cfg.words x.file.toNat x.record.toNat) →
    (subs.map fun x => 2 + 2 * x.wordCount.toNat).sum ≤ 255 →
    exec (.readFileRecord subs) s = .next (s.answered s.image
      (0x14 :: u8Field (subs.map fun x => 2 + 2 * x.wordCount.toNat).sum ::
        subs.flatMap fun x => u8Field (1 + 2 * x.wordCount.toNat) :: 0x06 ::
          bytesOf ((List.range x.wordCount.toNat).map fun k => s.image.fileWord x.file.toNat x.record.toNat k)))

/-- WriteFileRecord of sub-requests that all pass their check: a register has the word of the last sub-request that names it, no
other element changes, the request is echoed (R221, R225). -/
def Obligations.FileWritesStoreAndEcho : Prop :=
  ∀ (s : State) (subs : List FileWrite), s.schedule = [] → s.image.wf = true → s.cfg.wf = true →
    (Instr.writeFileRecord subs).wellFormed = true →
    (∀ x ∈ subs, x.refType = 6 ∧ x.file.toNat < s.cfg.nFiles ∧ x.record.toNat ≤ 9999 ∧
      x.record.toNat < s.cfg.records x.file.toNat ∧ x.data.length ≤ s.cfg.words x.file.toNat x.record.toNat) →
    ∃ im, exec (.writeFileRecord subs) s = .next (s.answered im (encode (.writeFileRecord subs))) ∧
      (∀ before sub after, subs = before ++ sub :: after → ∀ k < sub.data.length,
        (∀ later ∈ after, ¬ (later.file = sub.file ∧ later.record = sub.record ∧ k < later.data.length)) →
        im.fileWord sub.file.toNat sub.record.toNat k = sub.data.getD k 0) ∧
      ∀ e, e.present s.cfg = true → ¬ writeTargets (.writeFileRecord subs) e → im.element e = s.image.element e

/-- Where the file functions answer an exception, with nothing written: the first failing sub-request decides, each checked
completely (reference type, file, record, words), and a response above 255 bytes is code 3 (R220, R221, R225, R306). -/
def Obligations.FileFunctionsTrap : Prop :=
  ∀ (s : State), s.schedule = [] →
    (∀ (before after : List FileRead) (x : FileRead), (∀ y ∈ before, checkFileRead s.cfg y = none) →
      (x.refType ≠ 6 → exec (.readFileRecord (before ++ x :: after)) s = .next (s.answered s.image [0x94, 3])) ∧
      (x.refType = 6 → s.cfg.nFiles ≤ x.file.toNat ∨ 9999 < x.record.toNat ∨
          s.cfg.records x.file.toNat ≤ x.record.toNat ∨ s.cfg.words x.file.toNat x.record.toNat < x.wordCount.toNat →
        exec (.readFileRecord (before ++ x :: after)) s = .next (s.answered s.image [0x94, 2]))) ∧
    (∀ subs : List FileRead, (∀ y ∈ subs, checkFileRead s.cfg y = none) →
      255 < (subs.map fun x => 2 + 2 * x.wordCount.toNat).sum →
      exec (.readFileRecord subs) s = .next (s.answered s.image [0x94, 3])) ∧
    (∀ (before after : List FileWrite) (x : FileWrite), (∀ y ∈ before, checkFileWrite s.cfg y = none) →
      (x.refType ≠ 6 → exec (.writeFileRecord (before ++ x :: after)) s = .next (s.answered s.image [0x95, 3])) ∧
      (x.refType = 6 → s.cfg.nFiles ≤ x.file.toNat ∨ 9999 < x.record.toNat ∨
          s.cfg.records x.file.toNat ≤ x.record.toNat ∨ s.cfg.words x.file.toNat x.record.toNat < x.data.length →
        exec (.writeFileRecord (before ++ x :: after)) s = .next (s.answered s.image [0x95, 2])))

/-- ReadFIFOQueue of a count register that holds at most 31 and is followed by that many registers: the count and the registers;
nothing is emptied or changed (R230). -/
def Obligations.FifoReadsAnswerTheQueue : Prop :=
  ∀ (s : State) (reference : U16) (count : Nat), s.schedule = [] → reference.toNat < s.cfg.nHR →
    count = (s.image.word .hr reference.toNat).toNat → count ≤ 31 → reference.toNat + 1 + count < 65536 →
    (count = 0 ∨ reference.toNat + 1 + count ≤ s.cfg.nHR) →
    exec (.readFIFOQueue reference) s = .next (s.answered s.image
      (0x18 :: (bytes16 (u16Field (2 + 2 * count)) ++ bytes16 (u16Field count) ++
        bytesOf ((List.range count).map fun k => s.image.word .hr (reference.toNat + 1 + k)))))

/-- Where ReadFIFOQueue answers an exception: no count register, then a count above 31, then a value range that fails (R230,
R306). -/
def Obligations.FifoTraps : Prop :=
  ∀ (s : State) (reference : U16) (count : Nat), s.schedule = [] → count = (s.image.word .hr reference.toNat).toNat →
    (s.cfg.nHR ≤ reference.toNat →
      exec (.readFIFOQueue reference) s = .next (s.answered s.image [0x98, 2])) ∧
    (reference.toNat < s.cfg.nHR → 31 < count →
      exec (.readFIFOQueue reference) s = .next (s.answered s.image [0x98, 3])) ∧
    (reference.toNat < s.cfg.nHR → count ≤ 31 →
      65536 ≤ reference.toNat + 1 + count ∨ (count ≠ 0 ∧ s.cfg.nHR < reference.toNat + 1 + count) →
      exec (.readFIFOQueue reference) s = .next (s.answered s.image [0x98, 2]))

/-- ReadMEI with sub-code 0x0E where `MEI_TABLE` answers a tuple of its domain: that tuple (R240, R242). -/
def Obligations.MeiReadsAnswerTheTable : Prop :=
  ∀ (s : State) (fieldLevel fieldId conformity moreFollows nextFieldId : Byte) (fields : List MeiField), s.schedule = [] →
    s.cfg.wf = true → s.cfg.meiTable fieldLevel fieldId = .objects conformity moreFollows nextFieldId fields →
    exec (.readMEI 0x0E fieldLevel fieldId) s = .next (s.answered s.image
      (0x2B :: 0x0E :: fieldLevel :: conformity :: moreFollows :: nextFieldId :: u8Field fields.length ::
        fields.flatMap fun f => f.id :: u8Field f.text.length :: f.text))

/-- Where ReadMEI answers an exception: another sub-code is code 1, before the table is asked; the table's own answers are codes 2
and 3 (R240). -/
def Obligations.MeiTraps : Prop :=
  ∀ (s : State) (subCode fieldLevel fieldId : Byte), s.schedule = [] →
    (subCode ≠ 0x0E → exec (.readMEI subCode fieldLevel fieldId) s = .next (s.answered s.image [0xAB, 1])) ∧
    (s.cfg.meiTable fieldLevel fieldId = .illegalAddress →
      exec (.readMEI 0x0E fieldLevel fieldId) s = .next (s.answered s.image [0xAB, 2])) ∧
    (s.cfg.meiTable fieldLevel fieldId = .illegalValue →
      exec (.readMEI 0x0E fieldLevel fieldId) s = .next (s.answered s.image [0xAB, 3]))

/-! ## Other agents -/

/-- R346: a write by another agent between the read and the write of a MaskWriteRegister is lost. -/
def Obligations.MaskWriteLosesAWriteBetween : Prop :=
  ∀ (s t : State) (reference andMask orMask value : U16), s.image.wf = true → reference.toNat < s.cfg.nHR →
    s.schedule = [[], [.write .application (.hr reference.toNat value)]] →
    exec (.maskWriteRegister reference andMask orMask) s = .next t →
    t.image.word .hr reference.toNat = maskWrite (s.image.word .hr reference.toNat) andMask orMask ∧
    t.outcome = some (.ok (.bytes (aduOf s.latches.header
      (0x16 :: (bytes16 reference ++ bytes16 andMask ++ bytes16 orMask)))))

/-- R68, R72: a read of two registers with both written in between gives the old value of the first and the new value of the
second. -/
def Obligations.ReadsInterleaveElementwise : Prop :=
  ∀ (s : State) (reference first second : U16), s.image.wf = true → 2 ≤ s.cfg.maxReadRegs →
    reference.toNat + 2 < 65536 → reference.toNat + 2 ≤ s.cfg.nHR →
    s.schedule = [[], [.write .application (.hr reference.toNat first),
      .write .application (.hr (reference.toNat + 1) second)]] →
    ∃ t, exec (.readMultipleRegisters reference 2) s = .next t ∧
      t.outcome = some (.ok (.bytes (aduOf s.latches.header
        (0x03 :: 4 :: (bytes16 (s.image.word .hr reference.toNat) ++ bytes16 second))))) ∧
      t.image.word .hr reference.toNat = first

/-- R341: a reset after `k` writes of a WriteMultipleRegisters leaves exactly the first `k` in the image, and no other element, input
or parameter changes. The model's choices: the command is not run again and the rest of the reset's slot is still to come, log entry
7; the output interface is left empty, log entry 4. -/
def Obligations.ResetLeavesAPrefixOfTheWrites : Prop :=
  ∀ (s : State) (reference : U16) (values : List U16) (k : Nat), s.image.wf = true → k ≤ values.length →
    (values.length = 0 ∨ reference.toNat + values.length ≤ s.cfg.nHR) →
    s.schedule = List.replicate k [] ++ [[.reset]] →
    ∃ im, exec (.writeMultipleRegisters reference values) s = .next { s with
        image := im
        schedule := [[]]
        latches := Latches.idle
        outcome := none } ∧
      (∀ j < k, im.word .hr (reference.toNat + j) = values.getD j 0) ∧
      ∀ e, (∀ j < k, e ≠ .hr (reference.toNat + j)) → im.element e = s.image.element e
end

