-- ==== Sys2Proof/Laws/State.lean ====
section
/-! SUPPORT. One lemma per field of State per named update: what the update makes of it. -/

namespace Sys2Proof.Machine

variable (s : State)

/-! ### `State.write` -/

@[simp] theorem State.write_cfg (w : ElementWrite) : (s.write w).cfg = s.cfg := rfl
@[simp] theorem State.write_image (w : ElementWrite) : (s.write w).image = s.image.write w := rfl
@[simp] theorem State.write_dev (w : ElementWrite) : (s.write w).dev = s.dev := rfl
@[simp] theorem State.write_schedule (w : ElementWrite) : (s.write w).schedule = s.schedule := rfl
@[simp] theorem State.write_commands (w : ElementWrite) : (s.write w).commands = s.commands := rfl
@[simp] theorem State.write_latches (w : ElementWrite) : (s.write w).latches = s.latches := rfl
@[simp] theorem State.write_outcome (w : ElementWrite) : (s.write w).outcome = s.outcome := rfl

/-! ### `State.withDevice` -/

@[simp] theorem State.withDevice_cfg (d : Device) : (s.withDevice d).cfg = s.cfg := rfl
@[simp] theorem State.withDevice_image (d : Device) : (s.withDevice d).image = s.image := rfl
@[simp] theorem State.withDevice_dev (d : Device) : (s.withDevice d).dev = d := rfl
@[simp] theorem State.withDevice_schedule (d : Device) : (s.withDevice d).schedule = s.schedule := rfl
@[simp] theorem State.withDevice_commands (d : Device) : (s.withDevice d).commands = s.commands := rfl
@[simp] theorem State.withDevice_latches (d : Device) : (s.withDevice d).latches = s.latches := rfl
@[simp] theorem State.withDevice_outcome (d : Device) : (s.withDevice d).outcome = s.outcome := rfl

/-! ### `State.withSchedule` -/

@[simp] theorem State.withSchedule_cfg (slots : List (List Event)) : (s.withSchedule slots).cfg = s.cfg := rfl
@[simp] theorem State.withSchedule_image (slots : List (List Event)) : (s.withSchedule slots).image = s.image := rfl
@[simp] theorem State.withSchedule_dev (slots : List (List Event)) : (s.withSchedule slots).dev = s.dev := rfl
@[simp] theorem State.withSchedule_schedule (slots : List (List Event)) : (s.withSchedule slots).schedule = slots := rfl
@[simp] theorem State.withSchedule_commands (slots : List (List Event)) : (s.withSchedule slots).commands = s.commands := rfl
@[simp] theorem State.withSchedule_latches (slots : List (List Event)) : (s.withSchedule slots).latches = s.latches := rfl
@[simp] theorem State.withSchedule_outcome (slots : List (List Event)) : (s.withSchedule slots).outcome = s.outcome := rfl

/-! ### `State.engineReset` -/

@[simp] theorem State.engineReset_cfg : (s.engineReset).cfg = s.cfg := rfl
@[simp] theorem State.engineReset_image : (s.engineReset).image = s.image := rfl
@[simp] theorem State.engineReset_dev : (s.engineReset).dev = s.dev := rfl
@[simp] theorem State.engineReset_schedule : (s.engineReset).schedule = s.schedule := rfl
@[simp] theorem State.engineReset_commands : (s.engineReset).commands = s.commands := rfl
@[simp] theorem State.engineReset_latches : (s.engineReset).latches = Latches.idle := rfl
@[simp] theorem State.engineReset_outcome : (s.engineReset).outcome = none := rfl

/-! ### `State.latchRequest` -/

@[simp] theorem State.latchRequest_cfg (h : Header) (r : Request) (c : Nat) : (s.latchRequest h r c).cfg = s.cfg := rfl
@[simp] theorem State.latchRequest_image (h : Header) (r : Request) (c : Nat) : (s.latchRequest h r c).image = s.image := rfl
@[simp] theorem State.latchRequest_dev (h : Header) (r : Request) (c : Nat) : (s.latchRequest h r c).dev = s.dev := rfl
@[simp] theorem State.latchRequest_schedule (h : Header) (r : Request) (c : Nat) : (s.latchRequest h r c).schedule = s.schedule := rfl
@[simp] theorem State.latchRequest_commands (h : Header) (r : Request) (c : Nat) : (s.latchRequest h r c).commands = s.commands := rfl
@[simp] theorem State.latchRequest_latches (h : Header) (r : Request) (c : Nat) : (s.latchRequest h r c).latches = { s.latches with header := h, request := some r, cursor := c } := rfl
@[simp] theorem State.latchRequest_outcome (h : Header) (r : Request) (c : Nat) : (s.latchRequest h r c).outcome = s.outcome := rfl

/-! ### `State.latchResponse` -/

@[simp] theorem State.latchResponse_cfg (r : Response) : (s.latchResponse r).cfg = s.cfg := rfl
@[simp] theorem State.latchResponse_image (r : Response) : (s.latchResponse r).image = s.image := rfl
@[simp] theorem State.latchResponse_dev (r : Response) : (s.latchResponse r).dev = s.dev := rfl
@[simp] theorem State.latchResponse_schedule (r : Response) : (s.latchResponse r).schedule = s.schedule := rfl
@[simp] theorem State.latchResponse_commands (r : Response) : (s.latchResponse r).commands = s.commands := rfl
@[simp] theorem State.latchResponse_latches (r : Response) : (s.latchResponse r).latches = { s.latches with response := some r } := rfl
@[simp] theorem State.latchResponse_outcome (r : Response) : (s.latchResponse r).outcome = s.outcome := rfl

/-! ### `State.latchHeader` -/

@[simp] theorem State.latchHeader_cfg (h : Header) (c : Nat) : (s.latchHeader h c).cfg = s.cfg := rfl
@[simp] theorem State.latchHeader_image (h : Header) (c : Nat) : (s.latchHeader h c).image = s.image := rfl
@[simp] theorem State.latchHeader_dev (h : Header) (c : Nat) : (s.latchHeader h c).dev = s.dev := rfl
@[simp] theorem State.latchHeader_schedule (h : Header) (c : Nat) : (s.latchHeader h c).schedule = s.schedule := rfl
@[simp] theorem State.latchHeader_commands (h : Header) (c : Nat) : (s.latchHeader h c).commands = s.commands := rfl
@[simp] theorem State.latchHeader_latches (h : Header) (c : Nat) : (s.latchHeader h c).latches = { s.latches with header := h, cursor := c } := rfl
@[simp] theorem State.latchHeader_outcome (h : Header) (c : Nat) : (s.latchHeader h c).outcome = s.outcome := rfl

/-! ### `State.latchOutput` -/

@[simp] theorem State.latchOutput_cfg (adu : List Byte) : (s.latchOutput adu).cfg = s.cfg := rfl
@[simp] theorem State.latchOutput_image (adu : List Byte) : (s.latchOutput adu).image = s.image := rfl
@[simp] theorem State.latchOutput_dev (adu : List Byte) : (s.latchOutput adu).dev = s.dev := rfl
@[simp] theorem State.latchOutput_schedule (adu : List Byte) : (s.latchOutput adu).schedule = s.schedule := rfl
@[simp] theorem State.latchOutput_commands (adu : List Byte) : (s.latchOutput adu).commands = s.commands := rfl
@[simp] theorem State.latchOutput_latches (adu : List Byte) : (s.latchOutput adu).latches = { s.latches with output := adu } := rfl
@[simp] theorem State.latchOutput_outcome (adu : List Byte) : (s.latchOutput adu).outcome = s.outcome := rfl

/-! ### `State.finish` -/

@[simp] theorem State.finish_cfg (r : Result) : (s.finish r).cfg = s.cfg := rfl
@[simp] theorem State.finish_image (r : Result) : (s.finish r).image = s.image := rfl
@[simp] theorem State.finish_dev (r : Result) : (s.finish r).dev = s.dev := rfl
@[simp] theorem State.finish_schedule (r : Result) : (s.finish r).schedule = s.schedule := rfl
@[simp] theorem State.finish_commands (r : Result) : (s.finish r).commands = s.commands := rfl
@[simp] theorem State.finish_latches (r : Result) : (s.finish r).latches = Latches.idle := rfl
@[simp] theorem State.finish_outcome (r : Result) : (s.finish r).outcome = some r := rfl

/-! ### `State.answered` -/

@[simp] theorem State.answered_cfg (im : Image) (pdu : List Byte) : (s.answered im pdu).cfg = s.cfg := rfl
@[simp] theorem State.answered_image (im : Image) (pdu : List Byte) : (s.answered im pdu).image = im := rfl
@[simp] theorem State.answered_dev (im : Image) (pdu : List Byte) : (s.answered im pdu).dev = s.dev := rfl
@[simp] theorem State.answered_schedule (im : Image) (pdu : List Byte) : (s.answered im pdu).schedule = s.schedule := rfl
@[simp] theorem State.answered_commands (im : Image) (pdu : List Byte) : (s.answered im pdu).commands = s.commands := rfl
@[simp] theorem State.answered_latches (im : Image) (pdu : List Byte) : (s.answered im pdu).latches = Latches.idle := rfl
@[simp] theorem State.answered_outcome (im : Image) (pdu : List Byte) : (s.answered im pdu).outcome = some (.ok (.bytes (aduOf s.latches.header pdu))) := rfl

/-! ### `State.withFetchWord` -/

@[simp] theorem State.withFetchWord_cfg (nbits w : Nat) : (s.withFetchWord nbits w).cfg = s.cfg := rfl
@[simp] theorem State.withFetchWord_image (nbits w : Nat) : (s.withFetchWord nbits w).image = s.image := rfl
@[simp] theorem State.withFetchWord_dev (nbits w : Nat) : (s.withFetchWord nbits w).dev = s.dev := rfl
@[simp] theorem State.withFetchWord_schedule (nbits w : Nat) : (s.withFetchWord nbits w).schedule = s.schedule := rfl
@[simp] theorem State.withFetchWord_commands (nbits w : Nat) : (s.withFetchWord nbits w).commands = serveCommandOf (tableWordPdu nbits w) :: s.commands.tail := rfl
@[simp] theorem State.withFetchWord_latches (nbits w : Nat) : (s.withFetchWord nbits w).latches = s.latches := rfl
@[simp] theorem State.withFetchWord_outcome (nbits w : Nat) : (s.withFetchWord nbits w).outcome = s.outcome := rfl

end Sys2Proof.Machine
end

