-- ==== Sys2Proof/Laws/Memory.lean ====
section
/-! SUPPORT. The laws of the process-image memory: a write is read back where it was made, every other element keeps its value,
and the canonical form is kept. -/

namespace Sys2Proof.Machine

variable {β : Type} [Inhabited β] [DecidableEq β]

/-! ### One space -/

omit [DecidableEq β] in
@[simp] theorem Memory.read_nil (a : Nat) : Memory.read ([] : Memory β) a = Memory.blank := rfl

omit [DecidableEq β] in
theorem Memory.read_cons (k : Nat) (v : β) (rest : Memory β) (a : Nat) :
    Memory.read ((k, v) :: rest) a = if k = a then v else Memory.read rest a := rfl

omit [DecidableEq β] in
/-- A reference below every listed one is unlisted. -/
theorem Memory.read_below (m : Memory β) (a : Nat) (h : ∀ c ∈ m, a < c.1) : Memory.read m a = Memory.blank := by
  induction m with
  | nil => rfl
  | cons c rest ih =>
    obtain ⟨k, v⟩ := c
    have hk : a < k := h (k, v) (by simp)
    rw [Memory.read_cons, if_neg (by omega)]
    exact ih fun c hc => h c (by simp [hc])

theorem Memory.wf_iff (m : Memory β) :
    Memory.wf m = true ↔ m.Pairwise (fun c d => c.1 < d.1) ∧ ∀ c ∈ m, c.2 ≠ Memory.blank := by
  simp [Memory.wf]

theorem Memory.wf_tail {c : Nat × β} {rest : Memory β} (h : Memory.wf (c :: rest) = true) : Memory.wf rest = true := by
  rw [Memory.wf_iff] at h ⊢
  exact ⟨h.1.of_cons, fun d hd => h.2 d (by simp [hd])⟩

theorem Memory.wf_head {c : Nat × β} {rest : Memory β} (h : Memory.wf (c :: rest) = true) : ∀ d ∈ rest, c.1 < d.1 :=
  fun _ hd => List.rel_of_pairwise_cons ((Memory.wf_iff _).mp h).1 hd

/-- A write is read back where it was made and nowhere else. -/
theorem Memory.read_write (m : Memory β) (hm : Memory.wf m = true) (a b : Nat) (v : β) :
    Memory.read (Memory.write m a v) b = if a = b then v else Memory.read m b := by
  induction m with
  | nil =>
    simp only [Memory.write]
    by_cases hv : v = Memory.blank
    · simp [hv]
    · simp [hv, Memory.read_cons]
  | cons c rest ih =>
    obtain ⟨k, w⟩ := c
    have ih := ih (Memory.wf_tail hm)
    have below := Memory.wf_head hm
    simp only [Memory.write]
    by_cases hak : a < k
    · rw [if_pos hak]
      by_cases hv : v = Memory.blank
      · rw [if_pos hv]
        by_cases hab : a = b
        · subst hab
          rw [if_pos rfl, hv]
          exact Memory.read_below _ _ fun c hc => by
            rcases List.mem_cons.mp hc with rfl | hc
            · exact hak
            · have := below c hc; simp at this; omega
        · rw [if_neg hab]
      · rw [if_neg hv, Memory.read_cons]
    · rw [if_neg hak]
      by_cases hkk : a = k
      · subst hkk
        rw [if_pos rfl]
        by_cases hv : v = Memory.blank
        · rw [if_pos hv]
          by_cases hab : a = b
          · subst hab
            rw [if_pos rfl, hv]
            exact Memory.read_below _ _ below
          · rw [if_neg hab, Memory.read_cons, if_neg hab]
        · rw [if_neg hv, Memory.read_cons, Memory.read_cons]
          by_cases hab : a = b <;> simp [hab]
      · rw [if_neg hkk, Memory.read_cons, Memory.read_cons, ih]
        by_cases hkb : k = b
        · subst hkb; simp [hkk]
        · simp [hkb]

/-- What a write can list: what was listed, and what it wrote. -/
theorem Memory.mem_write (m : Memory β) (a : Nat) (v : β) (c : Nat × β) (hc : c ∈ Memory.write m a v) :
    c ∈ m ∨ (c = (a, v) ∧ v ≠ Memory.blank) := by
  induction m with
  | nil =>
    simp only [Memory.write] at hc
    split at hc <;> simp_all
  | cons d rest ih =>
    obtain ⟨k, w⟩ := d
    simp only [Memory.write] at hc
    repeat' split at hc
    all_goals simp only [List.mem_cons] at hc ⊢
    all_goals grind

/-- A write keeps the canonical form. -/
theorem Memory.wf_write (m : Memory β) (hm : Memory.wf m = true) (a : Nat) (v : β) :
    Memory.wf (Memory.write m a v) = true := by
  rw [Memory.wf_iff]
  refine ⟨?_, fun c hc => ?_⟩
  · induction m with
    | nil => simp only [Memory.write]; split <;> simp
    | cons d rest ih =>
      obtain ⟨k, w⟩ := d
      have below := Memory.wf_head hm
      have ih := ih (Memory.wf_tail hm)
      have hrest := ((Memory.wf_iff _).mp (Memory.wf_tail hm)).1
      have hall := ((Memory.wf_iff _).mp hm).1
      simp only [Memory.write]
      repeat' split
      · exact hall
      · exact List.Pairwise.cons
          (fun c hc => by
            rcases List.mem_cons.mp hc with rfl | hc
            · assumption
            · have := below c hc; simp at this ⊢; omega) hall
      · exact hrest
      · exact List.Pairwise.cons (fun c hc => by have := below c hc; simp at this ⊢; omega) hrest
      · refine List.Pairwise.cons (fun c hc => ?_) ih
        rcases Memory.mem_write rest a v c hc with hc | ⟨rfl, -⟩
        · exact below c hc
        · simp; omega
  · rcases Memory.mem_write m a v c hc with hc | ⟨rfl, hv⟩
    · exact ((Memory.wf_iff _).mp hm).2 c hc
    · exact hv

/-! ### The image -/

/-- Two register numbers below 65536 in two records with numbers below 65536 share a key only if they are the same element. -/
theorem fileKey_eq {f r i f' r' i' : Nat} (hr : r < 65536) (hi : i < 65536) (hr' : r' < 65536) (hi' : i' < 65536) :
    fileKey f r i = fileKey f' r' i' ↔ f = f' ∧ r = r' ∧ i = i' := by
  simp only [fileKey]
  constructor
  · intro h; refine ⟨?_, ?_, ?_⟩ <;> omega
  · rintro ⟨rfl, rfl, rfl⟩; rfl

theorem Image.wf_iff (im : Image) : im.wf = true ↔ Memory.wf im.di = true ∧ Memory.wf im.coil = true ∧
    Memory.wf im.ir = true ∧ Memory.wf im.hr = true ∧ Memory.wf im.file = true := by
  simp [Image.wf, and_assoc]

/-- Every write of an element keeps the canonical form of the image. -/
theorem Image.wf_write (im : Image) (h : im.wf = true) (w : ElementWrite) : (im.write w).wf = true := by
  obtain ⟨h1, h2, h3, h4, h5⟩ := (Image.wf_iff im).mp h
  rw [Image.wf_iff]
  cases w with
  | di a v => exact ⟨Memory.wf_write _ h1 a v, h2, h3, h4, h5⟩
  | coil a v => exact ⟨h1, Memory.wf_write _ h2 a v, h3, h4, h5⟩
  | ir a v => exact ⟨h1, h2, Memory.wf_write _ h3 a v, h4, h5⟩
  | hr a v => exact ⟨h1, h2, h3, Memory.wf_write _ h4 a v, h5⟩
  | file f r i v => exact ⟨h1, h2, h3, h4, Memory.wf_write _ h5 _ v⟩

/-! ### Elements after a write -/

@[simp] theorem Image.bit_write_coil (im : Image) (h : im.wf = true) (a b : Nat) (v : Bool) :
    (im.write (.coil a v)).bit .coil b = if a = b then v else im.bit .coil b := Memory.read_write _ ((Image.wf_iff im).mp h).2.1 a b v

@[simp] theorem Image.bit_write_di (im : Image) (h : im.wf = true) (a b : Nat) (v : Bool) :
    (im.write (.di a v)).bit .di b = if a = b then v else im.bit .di b := Memory.read_write _ ((Image.wf_iff im).mp h).1 a b v

@[simp] theorem Image.word_write_hr (im : Image) (h : im.wf = true) (a b : Nat) (v : U16) :
    (im.write (.hr a v)).word .hr b = if a = b then v else im.word .hr b := Memory.read_write _ ((Image.wf_iff im).mp h).2.2.2.1 a b v

@[simp] theorem Image.word_write_ir (im : Image) (h : im.wf = true) (a b : Nat) (v : U16) :
    (im.write (.ir a v)).word .ir b = if a = b then v else im.word .ir b := Memory.read_write _ ((Image.wf_iff im).mp h).2.2.1 a b v

theorem Image.fileWord_write_file (im : Image) (h : im.wf = true) (f r i f' r' i' : Nat) (v : U16) :
    (im.write (.file f r i v)).fileWord f' r' i' = if fileKey f r i = fileKey f' r' i' then v else im.fileWord f' r' i' :=
  Memory.read_write _ ((Image.wf_iff im).mp h).2.2.2.2 _ _ v

/-- A write to one of the four flat spaces leaves every other element alone. -/
theorem Image.element_write_flat (im : Image) (h : im.wf = true) (w : ElementWrite) (e : Element) (hne : w.element ≠ e)
    (hflat : ∀ f r i v, w ≠ .file f r i v) : (im.write w).element e = im.element e := by
  cases w with
  | file f r i v => exact absurd rfl (hflat f r i v)
  | di a v =>
    cases e with
    | di b => simp only [ElementWrite.element, ne_eq, Element.di.injEq] at hne; simp [Image.element, h, hne]
    | _ => rfl
  | coil a v =>
    cases e with
    | coil b => simp only [ElementWrite.element, ne_eq, Element.coil.injEq] at hne; simp [Image.element, h, hne]
    | _ => rfl
  | ir a v =>
    cases e with
    | ir b => simp only [ElementWrite.element, ne_eq, Element.ir.injEq] at hne; simp [Image.element, h, hne]
    | _ => rfl
  | hr a v =>
    cases e with
    | hr b => simp only [ElementWrite.element, ne_eq, Element.hr.injEq] at hne; simp [Image.element, h, hne]
    | _ => rfl

/-- Where the parameters are in their domains, an element that exists has register and record numbers below 65536. -/
theorem recordAt_le (runs : List RecordRun) (h : ∀ run ∈ runs, run.words ≤ 65535) (r : Nat) :
    recordAt runs r ≤ 65535 := by
  induction runs generalizing r with
  | nil => simp [recordAt]
  | cons run rest ih =>
    simp only [recordAt]
    split
    · exact h run (by simp)
    · exact ih (fun x hx => h x (by simp [hx])) _

theorem fileAt_words (files : List FileRun) (h : ∀ run ∈ files, run.wf = true) (f : Nat) :
    ∀ r ∈ fileAt files f, r.words ≤ 65535 := by
  induction files generalizing f with
  | nil => simp [fileAt]
  | cons run rest ih =>
    simp only [fileAt]
    split
    · have := h run (by simp)
      simp only [FileRun.wf, Bool.and_eq_true, List.all_eq_true, decide_eq_true_eq] at this
      exact this.2
    · exact ih (fun x hx => h x (by simp [hx])) _

theorem Params.files_wf {p : Params} (h : p.wf = true) : ∀ run ∈ p.files, run.wf = true := by
  simp only [Params.wf, Bool.and_eq_true, List.all_eq_true] at h
  tauto

theorem fileExists_small {p : Params} (hp : p.wf = true) {f r i : Nat} (h : p.fileExists f r i = true) :
    r < 65536 ∧ i < 65536 := by
  simp only [Params.fileExists, Bool.and_eq_true, decide_eq_true_eq] at h
  have limit : Config.maxRecord = 9999 := rfl
  have := recordAt_le _ (fileAt_words p.files (Params.files_wf hp) f) r
  have hw : p.words f r ≤ 65535 := this
  omega

/-- A write of an element that exists leaves every other element that exists alone. -/
theorem Image.element_write {p : Params} (hp : p.wf = true) (im : Image) (h : im.wf = true) (w : ElementWrite) (e : Element)
    (hw : w.exists p = true) (he : e.present p = true) (hne : w.element ≠ e) : (im.write w).element e = im.element e := by
  cases w with
  | file f r i v =>
    cases e with
    | file f' r' i' =>
      obtain ⟨hr, hi⟩ := fileExists_small hp hw
      obtain ⟨hr', hi'⟩ := fileExists_small hp he
      have key : ¬ fileKey f r i = fileKey f' r' i' := by
        rw [fileKey_eq hr hi hr' hi']
        rintro ⟨rfl, rfl, rfl⟩
        exact hne rfl
      simp [Image.element, Image.fileWord_write_file _ h, key]
    | _ => rfl
  | _ => exact Image.element_write_flat im h _ e hne (by simp)

/-- The element a write names exists exactly when the write is to an element that exists. -/
theorem ElementWrite.exists_eq_present (p : Params) (w : ElementWrite) : w.exists p = w.element.present p := by
  cases w <;> rfl

/-- What every listed reference meets, every listed reference meets after a write to one that meets it. -/
theorem Memory.all_write (ok : Nat → Bool) (m : Memory β) (h : (m.all fun c => ok c.1) = true) (a : Nat)
    (v : β) (ha : ok a = true) : ((Memory.write m a v).all fun c => ok c.1) = true := by
  rw [List.all_eq_true] at h ⊢
  intro c hc
  rcases Memory.mem_write m a v c hc with hc | ⟨rfl, -⟩
  · exact h c hc
  · exact ha

/-- A write of an element that exists lists no element outside its space. -/
theorem Image.within_write {p : Params} (hp : p.wf = true) (im : Image) (w : ElementWrite) (h : im.within p = true)
    (hw : w.exists p = true) : (im.write w).within p = true := by
  simp only [Image.within, Bool.and_eq_true, Memory.within, fileWithin] at h ⊢
  obtain ⟨⟨⟨⟨h1, h2⟩, h3⟩, h4⟩, h5⟩ := h
  cases w with
  | di a v => exact ⟨⟨⟨⟨Memory.all_write (fun a => decide (a < p.nDI)) _ h1 a v hw, h2⟩, h3⟩, h4⟩, h5⟩
  | coil a v => exact ⟨⟨⟨⟨h1, Memory.all_write (fun a => decide (a < p.nCOIL)) _ h2 a v hw⟩, h3⟩, h4⟩, h5⟩
  | ir a v => exact ⟨⟨⟨⟨h1, h2⟩, Memory.all_write (fun a => decide (a < p.nIR)) _ h3 a v hw⟩, h4⟩, h5⟩
  | hr a v => exact ⟨⟨⟨⟨h1, h2⟩, h3⟩, Memory.all_write (fun a => decide (a < p.nHR)) _ h4 a v hw⟩, h5⟩
  | file f r i v =>
    have exists_ : p.fileExists f r i = true := hw
    obtain ⟨hr, hi⟩ := fileExists_small hp exists_
    refine ⟨⟨⟨⟨h1, h2⟩, h3⟩, h4⟩,
      Memory.all_write (fun k => p.fileExists (k / 65536 / 65536) (k / 65536 % 65536) (k % 65536)) _ h5 _ v ?_⟩
    have file : fileKey f r i / 65536 / 65536 = f := by simp only [fileKey]; omega
    have record : fileKey f r i / 65536 % 65536 = r := by simp only [fileKey]; omega
    have register : fileKey f r i % 65536 = i := by simp only [fileKey]; omega
    simpa only [file, record, register] using exists_

/-- The memory of the reset state is in canonical form. -/
theorem reset_image_wf : State.reset.image.wf = true := by decide

end Sys2Proof.Machine
end

