-- ==== Sys2Proof/Laws/Codec.lean ====
section
/-! SUPPORT. The laws of the byte-order and packing helpers and of the decoding primitives (R10, R11, R14): each primitive reads
back what the matching encoder wrote. -/

namespace Sys2Proof

/-! ### Byte order -/

@[simp] theorem be16_extract (v : U16) : be16 (v.extractLsb' 8 8) (v.extractLsb' 0 8) = v := by
  apply BitVec.eq_of_getLsbD_eq
  intro i hi
  simp only [be16, BitVec.getLsbD_append, BitVec.getLsbD_extractLsb']
  by_cases h : i < 8
  · simp [h]
  · simp [h, show i - 8 < 8 by omega, show 8 + (i - 8) = i by omega]

@[simp] theorem bytes16_be16 (hi lo : Byte) : bytes16 (be16 hi lo) = [hi, lo] := by
  have high : (be16 hi lo).extractLsb' 8 8 = hi := by
    apply BitVec.eq_of_getLsbD_eq
    intro i hi'
    rw [BitVec.getLsbD_extractLsb', be16, BitVec.getLsbD_append, if_neg (by omega), Nat.add_sub_cancel_left]
    simp [hi']
  have low : (be16 hi lo).extractLsb' 0 8 = lo := by
    apply BitVec.eq_of_getLsbD_eq
    intro i hi'
    rw [BitVec.getLsbD_extractLsb', be16, BitVec.getLsbD_append, Nat.zero_add, if_pos hi']
    simp [hi']
  simp [bytes16, high, low]

@[simp] theorem bytes16_length (v : U16) : (bytes16 v).length = 2 := rfl

@[simp] theorem bytesOf_length (vs : List U16) : (bytesOf vs).length = 2 * vs.length := by
  induction vs with
  | nil => rfl
  | cons v rest ih => simp only [bytesOf, List.length_append, bytes16_length, ih, List.length_cons]; omega

/-- Words survive their wire form. -/
@[simp] theorem wordsOf_bytesOf (vs : List U16) : wordsOf (bytesOf vs) = vs := by
  induction vs with
  | nil => rfl
  | cons v rest ih => simp [bytesOf, bytes16, wordsOf, ih]

/-- An even number of bytes survives as words. -/
theorem bytesOf_wordsOf (n : Nat) : ∀ bs : List Byte, bs.length = 2 * n → bytesOf (wordsOf bs) = bs := by
  induction n with
  | zero => intro bs h; simp_all [wordsOf, bytesOf]
  | succ n ih =>
    intro bs h
    match bs, h with
    | hi :: lo :: rest, h =>
      simp only [List.length_cons] at h
      simp [wordsOf, bytesOf, ih rest (by omega)]

theorem wordsOf_length (n : Nat) : ∀ bs : List Byte, bs.length = 2 * n → (wordsOf bs).length = n := by
  induction n with
  | zero => intro bs h; simp_all [wordsOf]
  | succ n ih =>
    intro bs h
    match bs, h with
    | hi :: lo :: rest, h =>
      simp only [List.length_cons] at h
      simp [wordsOf, ih rest (by omega)]

@[simp] theorem u8Field_toNat (n : Nat) (h : n ≤ 255) : (u8Field n).toNat = n := by
  simp only [u8Field, BitVec.toNat_ofNat]; omega

@[simp] theorem u16Field_toNat (n : Nat) (h : n ≤ 65535) : (u16Field n).toNat = n := by
  simp only [u16Field, BitVec.toNat_ofNat]; omega

@[simp] theorem u8Field_of_toNat (b : Byte) : u8Field b.toNat = b := by simp [u8Field]

@[simp] theorem u16Field_of_toNat (b : U16) : u16Field b.toNat = b := by simp [u16Field]

/-! ### Bit packing -/

@[simp] theorem packLsb_length (bits : List Bool) (n : Nat) : (packLsb bits n).length = n := by
  induction n generalizing bits with
  | zero => rfl
  | succ n ih => simp [packLsb, ih]

@[simp] theorem unpackLsb_length (data : List Byte) : (unpackLsb data).length = 8 * data.length := by
  induction data with
  | nil => rfl
  | cons x rest ih => simp only [unpackLsb, List.length_append, ih, List.length_cons]; simp [unpackByte]; omega

/-- Bit `k` of the value of a bit list is its element `k`, or 0 past its end. -/
theorem bitsValue_testBit (bits : List Bool) (k : Nat) : (bitsValue bits).testBit k = bits.getD k false := by
  induction bits generalizing k with
  | nil => simp [bitsValue]
  | cons b rest ih =>
    cases k with
    | zero => cases b <;> simp [bitsValue, Nat.testBit_zero]
    | succ k =>
      have half : (b.toNat + 2 * bitsValue rest) / 2 = bitsValue rest := by
        cases b
        · simp
        · simp; omega
      rw [bitsValue, Nat.testBit_succ, half, ih]
      simp

/-- Bit `k` of a packed byte is element `k`, or 0 past the end (R14). -/
theorem packByte_getLsbD (bits : List Bool) (k : Nat) (h : k < 8) : (packByte bits).getLsbD k = bits.getD k false := by
  rw [packByte, BitVec.getLsbD_ofNat, bitsValue_testBit]
  simp [h, List.getD_eq_getElem?_getD]

/-- Unpacking a packed list gives its elements, and false in the padding (R14). -/
theorem unpackLsb_packLsb_getD (n : Nat) : ∀ (bits : List Bool) (k : Nat), k < 8 * n →
    (unpackLsb (packLsb bits n)).getD k false = bits.getD k false := by
  induction n with
  | zero => intro bits k h; omega
  | succ n ih =>
    intro bits k h
    have first : (unpackByte (packByte bits)).length = 8 := rfl
    rw [packLsb, unpackLsb]
    by_cases hk : k < 8
    · rw [List.getD_append _ _ _ _ (by omega)]
      rw [← packByte_getLsbD bits k hk]
      obtain rfl | rfl | rfl | rfl | rfl | rfl | rfl | rfl :
          k = 0 ∨ k = 1 ∨ k = 2 ∨ k = 3 ∨ k = 4 ∨ k = 5 ∨ k = 6 ∨ k = 7 := by omega
      all_goals rfl
    · rw [List.getD_append_right _ _ _ _ (by omega), first, ih _ _ (by omega)]
      simp [List.getD_eq_getElem?_getD, show 8 + (k - 8) = k by omega]

/-- The first elements of an unpacked packed list are the list. -/
theorem take_unpackLsb_packLsb (bits : List Bool) (n : Nat) (h : bits.length ≤ 8 * n) :
    (unpackLsb (packLsb bits n)).take bits.length = bits := by
  apply List.ext_getElem
  · simp; omega
  · intro k h1 h2
    have := unpackLsb_packLsb_getD n bits k (by omega)
    simp only [List.getD_eq_getElem?_getD, List.getElem?_eq_getElem h2, Option.getD_some] at this
    simp only [List.getElem_take]
    rw [List.getElem?_eq_getElem (by simp; omega)] at this
    simpa using this

/-! ### The decoding primitives -/

@[simp] theorem u8_cons (x : Byte) (rest : List Byte) : u8 (x :: rest) = .ok (x, rest) := rfl

@[simp] theorem u16_bytes16 (v : U16) (rest : List Byte) : u16 (bytes16 v ++ rest) = .ok (v, rest) := by
  simp [bytes16, u16]

@[simp] theorem u16_bytes16_end (v : U16) : u16 (bytes16 v) = .ok (v, []) := by simp [bytes16, u16]

@[simp] theorem atEnd_nil : atEnd [] = .ok () := rfl

@[simp] theorem bytes_append (data rest : List Byte) : bytes data.length (data ++ rest) = .ok (data, rest) := by
  simp [bytes]

@[simp] theorem bytes_all (data : List Byte) : bytes data.length data = .ok (data, []) := by simp [bytes]

@[simp] theorem require_true (r : DecodeReason) : require true r = .ok () := rfl

/-- `bytes` gives exactly a split of its input. -/
theorem bytes_ok {n : Nat} {input data rest : List Byte} (h : bytes n input = .ok (data, rest)) :
    input = data ++ rest ∧ data.length = n := by
  unfold bytes at h
  split at h
  · cases h; simp; omega
  · cases h

/-- `u16` gives the first two bytes of its input. -/
theorem u16_ok {input rest : List Byte} {v : U16} (h : u16 input = .ok (v, rest)) : input = bytes16 v ++ rest := by
  match input, h with
  | hi :: lo :: _, h => simp only [u16] at h; cases h; simp

/-- `u8` gives the first byte of its input. -/
theorem u8_ok {input rest : List Byte} {v : Byte} (h : u8 input = .ok (v, rest)) : input = v :: rest := by
  match input, h with
  | _ :: _, h => simp only [u8] at h; cases h; rfl

theorem atEnd_ok {input : List Byte} {x : Unit} (h : atEnd input = .ok x) : input = [] := by
  match input, h with
  | [], _ => rfl

theorem require_ok {b : Bool} {r : DecodeReason} {x : Unit} (h : require b r = .ok x) : b = true := by
  cases b with
  | false => simp [require] at h
  | true => rfl

/-- A decode that goes on has a value to go on with: the one inversion of a sequenced decode. -/
theorem bind_ok {ε α β : Type} {m : Except ε α} {f : α → Except ε β} {b : β} (h : m >>= f = .ok b) :
    ∃ a, m = .ok a ∧ f a = .ok b := by
  cases m with
  | error e => cases h
  | ok a => exact ⟨a, rfl, h⟩

/-- A sequenced decode whose first part has a value. -/
@[simp] theorem ok_bind {ε α β : Type} (a : α) (f : α → Except ε β) : (Except.ok a >>= f) = f a := rfl

/-- The counted bytes are read back (`F_BC`, R93). -/
@[simp] theorem decodeBC_counted (data : List Byte) (h : data.length ≤ 255) : decodeBC (counted data) = .ok data := by
  simp [decodeBC, counted, h]

@[simp] theorem decodeRC_bytes16 (a b : U16) : decodeRC (bytes16 a ++ bytes16 b) = .ok (a, b) := by
  simp [decodeRC]

@[simp] theorem decodeMW_bytes16 (a b c : U16) : decodeMW (bytes16 a ++ (bytes16 b ++ bytes16 c)) = .ok (a, b, c) := by
  simp [decodeMW]

@[simp] theorem decodeR_bytes16 (a : U16) : decodeR (bytes16 a) = .ok a := by
  simp [decodeR]

@[simp] theorem decodeRCB_counted (a b : U16) (data : List Byte) (h : data.length ≤ 255) :
    decodeRCB (bytes16 a ++ (bytes16 b ++ counted data)) = .ok (a, b, data) := by
  simp [decodeRCB, h]

/-! ### File sub-requests -/

@[simp] theorem encodeFileReads_length (subs : List FileRead) : (encodeFileReads subs).length = 7 * subs.length := by
  induction subs with
  | nil => rfl
  | cons s rest ih => simp [encodeFileReads, FileRead.encode, ih]; omega

@[simp] theorem encodeFileWrites_length (subs : List FileWrite) :
    (encodeFileWrites subs).length = fileWriteBytes subs := by
  induction subs with
  | nil => rfl
  | cons s rest ih =>
    simp [encodeFileWrites, FileWrite.encode, ih, fileWriteBytes, FileWrite.wireLength]; omega

/-- The sub-requests of a ReadFileRecord are read back (R220). -/
theorem fileReads_encode (subs : List FileRead) : fileReads (encodeFileReads subs) = .ok subs := by
  induction subs with
  | nil => rfl
  | cons s rest ih => simp [encodeFileReads, FileRead.encode, bytes16, fileReads, ih]

/-- The sub-requests of a WriteFileRecord are read back (R225). -/
theorem fileWrites_encode (subs : List FileWrite) : ∀ fuel, fileWriteBytes subs ≤ fuel → fuel ≤ 255 →
    fileWrites fuel (encodeFileWrites subs) = .ok subs := by
  induction subs with
  | nil => intro fuel _ _; cases fuel <;> rfl
  | cons s rest ih =>
    intro fuel h hf
    have wire : s.wireLength = 7 + 2 * s.data.length := rfl
    simp only [fileWriteBytes] at h
    obtain ⟨fuel, rfl⟩ : ∃ k, fuel = k + 1 := ⟨fuel - 1, by omega⟩
    have count : (u16Field s.data.length).toNat = s.data.length := u16Field_toNat _ (by omega)
    have payload : 2 * s.data.length = (bytesOf s.data).length := by simp
    simp only [encodeFileWrites, FileWrite.encode, bytes16, List.cons_append, List.nil_append,
      fileWrites, be16_extract, count, payload, List.length_append, List.drop_left, List.take_left,
      ih fuel (by omega) (by omega)]
    simp [require]

/-! ### What a decode that succeeds has read -/

theorem decodeR_ok {body : List Byte} {v : U16} (h : decodeR body = .ok v) : body = bytes16 v := by
  obtain ⟨⟨a, r1⟩, h1, h⟩ := bind_ok h
  obtain ⟨_, h2, h⟩ := bind_ok h
  cases h
  simp [u16_ok h1, atEnd_ok h2]

theorem decodeRC_ok {body : List Byte} {v : U16 × U16} (h : decodeRC body = .ok v) :
    body = bytes16 v.1 ++ bytes16 v.2 := by
  obtain ⟨⟨a, r1⟩, h1, h⟩ := bind_ok h
  obtain ⟨⟨b, r2⟩, h2, h⟩ := bind_ok h
  obtain ⟨_, h3, h⟩ := bind_ok h
  cases h
  simp [u16_ok h1, u16_ok h2, atEnd_ok h3]

theorem decodeMW_ok {body : List Byte} {v : U16 × U16 × U16} (h : decodeMW body = .ok v) :
    body = bytes16 v.1 ++ (bytes16 v.2.1 ++ bytes16 v.2.2) := by
  obtain ⟨⟨a, r1⟩, h1, h⟩ := bind_ok h
  obtain ⟨⟨b, r2⟩, h2, h⟩ := bind_ok h
  obtain ⟨⟨c, r3⟩, h3, h⟩ := bind_ok h
  obtain ⟨_, h4, h⟩ := bind_ok h
  cases h
  simp [u16_ok h1, u16_ok h2, u16_ok h3, atEnd_ok h4]

theorem decodeBC_ok {body data : List Byte} (h : decodeBC body = .ok data) :
    body = counted data ∧ data.length ≤ 255 := by
  obtain ⟨⟨n, r1⟩, h1, h⟩ := bind_ok h
  obtain ⟨⟨b, r2⟩, h2, h⟩ := bind_ok h
  obtain ⟨_, h3, h⟩ := bind_ok h
  cases h
  have read := bytes_ok h2
  have small := n.isLt
  exact ⟨by simp [u8_ok h1, read.1, atEnd_ok h3, counted, read.2], by omega⟩

theorem decodeRCB_ok {body : List Byte} {v : U16 × U16 × List Byte} (h : decodeRCB body = .ok v) :
    body = bytes16 v.1 ++ (bytes16 v.2.1 ++ counted v.2.2) ∧ v.2.2.length ≤ 255 := by
  obtain ⟨⟨a, r1⟩, h1, h⟩ := bind_ok h
  obtain ⟨⟨b, r2⟩, h2, h⟩ := bind_ok h
  obtain ⟨data, h3, h⟩ := bind_ok h
  cases h
  have read := decodeBC_ok h3
  exact ⟨by simp [u16_ok h1, u16_ok h2, read.1], read.2⟩

theorem fileReads_ok : ∀ (data : List Byte) (subs : List FileRead), fileReads data = .ok subs →
    data = encodeFileReads subs
  | [], _, h => by cases h; rfl
  | [_], _, h => by cases h
  | [_, _], _, h => by cases h
  | [_, _, _], _, h => by cases h
  | [_, _, _, _], _, h => by cases h
  | [_, _, _, _, _], _, h => by cases h
  | [_, _, _, _, _, _], _, h => by cases h
  | refType :: f1 :: f0 :: r1 :: r0 :: w1 :: w0 :: rest, _, h => by
    obtain ⟨subs, h1, h⟩ := bind_ok h
    cases h
    simp [encodeFileReads, FileRead.encode, fileReads_ok rest subs h1]

theorem fileWrites_ok (fuel : Nat) : ∀ (data : List Byte) (subs : List FileWrite), fileWrites fuel data = .ok subs →
    data = encodeFileWrites subs := by
  induction fuel with
  | zero =>
    intro data subs h
    cases data with
    | nil => cases h; rfl
    | cons => simp [fileWrites] at h
  | succ fuel ih =>
    intro data subs h
    rcases data with _ | ⟨refType, _ | ⟨f1, _ | ⟨f0, _ | ⟨r1, _ | ⟨r0, _ | ⟨w1, _ | ⟨w0, rest⟩⟩⟩⟩⟩⟩⟩
    · cases h; rfl
    all_goals try (simp [fileWrites] at h; done)
    obtain ⟨_, h1, h⟩ := bind_ok h
    obtain ⟨subs, h2, h⟩ := bind_ok h
    cases h
    have fits := require_ok h1
    simp only [decide_eq_true_eq] at fits
    have count : (rest.take (2 * (be16 w1 w0).toNat)).length = 2 * (be16 w1 w0).toNat := by simp; omega
    simp [encodeFileWrites, FileWrite.encode, ← ih _ _ h2, bytesOf_wordsOf _ _ count, wordsOf_length _ _ count]

theorem decodeFileWrites_ok {body : List Byte} {subs : List FileWrite} (h : decodeFileWrites body = .ok subs) :
    body = counted (encodeFileWrites subs) ∧ fileWriteBytes subs ≤ 255 ∧ 1 ≤ subs.length := by
  obtain ⟨data, h1, h⟩ := bind_ok h
  obtain ⟨_, h2, h⟩ := bind_ok h
  obtain ⟨_, h3, h⟩ := bind_ok h
  cases h
  obtain ⟨read, small⟩ := decodeBC_ok h1
  have subs_read := fileWrites_ok _ _ _ h2
  refine ⟨by rw [read, subs_read], by rw [← encodeFileWrites_length, ← subs_read]; exact small, ?_⟩
  have := require_ok h3
  cases subs with
  | nil => simp at this
  | cons => simp

/-- A counted body of file-record writes is read back. -/
theorem decodeFileWrites_encode (subs : List FileWrite) (hne : 1 ≤ subs.length) (h : fileWriteBytes subs ≤ 255) :
    decodeFileWrites (counted (encodeFileWrites subs)) = .ok subs := by
  have nonempty : subs.isEmpty = false := by cases subs with
    | nil => simp at hne
    | cons => rfl
  simp [decodeFileWrites, h, fileWrites_encode subs _ le_rfl h, nonempty]

end Sys2Proof
end

