-- ==== Sys2Proof/Laws/Ops.lean ====
section
/-! SUPPORT. What each shared operation can do, said once: a small Hoare logic for parts of a transaction, the points at which
other agents act, the accessors, and the end of a transaction. Statements about instructions cite these. -/

namespace Sys2Proof.Machine

/-! ### What a part of a transaction ends in -/

/-- It is no fault; a value comes with `V`, an exception with `E`, an abandoned transaction with `Q`. -/
def Run.Ends {α : Type} (V : α → State → Prop) (E Q : State → Prop) : Run α → Prop
  | .ok a t => V a t
  | .raised _ t => E t
  | .abandoned t => Q t
  | .fault _ => False

/-- From every state with `P`, the part ends so. -/
def Txn.Triple {α : Type} (P : State → Prop) (m : Txn α) (V : α → State → Prop) (E Q : State → Prop) : Prop :=
  ∀ s, P s → (m s).Ends V E Q

variable {α β : Type} {P : State → Prop} {V : α → State → Prop} {W : β → State → Prop} {E Q : State → Prop}

theorem Txn.triple_bind {m : Txn α} {f : α → Txn β} (hm : Txn.Triple P m V E Q)
    (hf : ∀ a, Txn.Triple (V a) (f a) W E Q) : Txn.Triple P (Txn.bind m f) W E Q := by
  intro s hs
  have := hm s hs
  unfold Txn.bind
  cases h : m s with
  | ok a t => rw [h] at this; exact hf a t this
  | raised k t => rw [h] at this; exact this
  | abandoned t => rw [h] at this; exact this
  | fault r => rw [h] at this; exact this

theorem Txn.triple_pure {a : α} (h : ∀ s, P s → V a s) : Txn.Triple P (Txn.pure a) V E Q := fun s hs => h s hs

theorem Txn.triple_raise {k : ExceptionKind} (h : ∀ s, P s → E s) :
    Txn.Triple P (Txn.raise k : Txn α) V E Q := fun s hs => h s hs

/-- After a check that passed, what it checked holds. -/
theorem Txn.triple_check {b : Bool} {k : ExceptionKind} (h : ∀ s, P s → E s) :
    Txn.Triple P (Txn.check b k) (fun _ s => P s ∧ b = true) E Q := by
  intro s hs
  cases b with
  | false => exact h s hs
  | true => exact ⟨hs, rfl⟩

theorem Txn.triple_readConfig {f : Params → α} :
    Txn.Triple P (readConfig f) (fun a s => P s ∧ a = f s.cfg) E Q := fun _ hs => ⟨hs, rfl⟩

theorem Run.ends_mono {V' : α → State → Prop} {E' Q' : State → Prop} {r : Run α} (h : r.Ends V E Q)
    (hV : ∀ a s, V a s → V' a s) (hE : ∀ s, E s → E' s) (hQ : ∀ s, Q s → Q' s) : r.Ends V' E' Q' := by
  cases r with
  | ok a t => exact hV a t h
  | raised k t => exact hE t h
  | abandoned t => exact hQ t h
  | fault r => exact h

/-- Stronger before, weaker after. -/
theorem Txn.triple_mono {P' : State → Prop} {V' : α → State → Prop} {E' Q' : State → Prop} {m : Txn α}
    (h : Txn.Triple P m V E Q) (hP : ∀ s, P' s → P s) (hV : ∀ a s, V a s → V' a s) (hE : ∀ s, E s → E' s)
    (hQ : ∀ s, Q s → Q' s) : Txn.Triple P' m V' E' Q' := fun s hs => Run.ends_mono (h s (hP s hs)) hV hE hQ

/-! ### Other agents -/

/-- `P` holds on whatever the other agents do next, and `Q` if a reset comes. -/
def Stable (P Q : State → Prop) : Prop := Txn.Triple P otherAgents (fun _ s => P s) (fun _ => False) Q

/-- The events of one slot keep `P`, or end in `Q` if a reset is among them, when each of them does. -/
theorem applyEvents_ends (slot : List Event)
    (hwrite : ∀ s agent w, P s → Event.write agent w ∈ slot → writePossible s.cfg agent w = true → P (s.write w))
    (hdevice : ∀ s d, P s → Event.device d ∈ slot → d.wf = true → P (s.withDevice d))
    (hreset : ∀ s rest, P s → Event.reset ∈ slot → Q (s.engineReset.withSchedule (rest :: s.schedule))) :
    Txn.Triple P (applyEvents slot) (fun _ t => P t) (fun _ => False) Q := by
  induction slot with
  | nil => exact fun s hs => hs
  | cons e rest ih =>
    have ih := ih (fun s agent w hs hm => hwrite s agent w hs (by simp [hm]))
      (fun s d hs hm => hdevice s d hs (by simp [hm])) (fun s r hs hm => hreset s r hs (by simp [hm]))
    intro s hs
    cases e with
    | write agent w => exact ih _ (by split; exacts [hwrite s agent w hs (by simp) ‹_›, hs])
    | device d => exact ih _ (by split; exacts [hdevice s d hs (by simp) ‹_›, hs])
    | reset => exact hreset s rest hs (by simp)

/-- A property is stable if taking a slot off the schedule keeps it and the events of the slots of `S` do, `S` holding every slot
still to come. -/
theorem stable_of_schedule (S : List (List Event)) (hS : ∀ s, P s → ∀ slot ∈ s.schedule, slot ∈ S)
    (hslot : ∀ s slot rest, P s → s.schedule = slot :: rest → P (s.withSchedule rest))
    (hwrite : ∀ s agent w, P s → (∃ slot ∈ S, Event.write agent w ∈ slot) → writePossible s.cfg agent w = true →
      P (s.write w))
    (hdevice : ∀ s d, P s → (∃ slot ∈ S, Event.device d ∈ slot) → d.wf = true → P (s.withDevice d))
    (hreset : ∀ s rest, P s → (∃ slot ∈ S, Event.reset ∈ slot) → Q (s.engineReset.withSchedule (rest :: s.schedule))) :
    Stable P Q := by
  intro s hs
  unfold otherAgents
  cases hsch : s.schedule with
  | nil => exact hs
  | cons slot rest =>
    have hmem : slot ∈ S := hS s hs slot (by simp [hsch])
    exact applyEvents_ends slot (fun s agent w hs hm => hwrite s agent w hs ⟨slot, hmem, hm⟩)
      (fun s d hs hm => hdevice s d hs ⟨slot, hmem, hm⟩) (fun s r hs hm => hreset s r hs ⟨slot, hmem, hm⟩) _
      (hslot s slot rest hs hsch)

/-- A property is stable if each kind of event keeps it and taking a slot off the schedule does. -/
theorem stable_of_events
    (hslot : ∀ s slot rest, P s → s.schedule = slot :: rest → P (s.withSchedule rest))
    (hwrite : ∀ s agent w, P s → writePossible s.cfg agent w = true → P (s.write w))
    (hdevice : ∀ s d, P s → d.wf = true → P (s.withDevice d))
    (hreset : ∀ s rest, P s → Q (s.engineReset.withSchedule (rest :: s.schedule))) : Stable P Q := by
  intro s hs
  unfold otherAgents
  cases hsch : s.schedule with
  | nil => exact hs
  | cons slot rest =>
    exact applyEvents_ends slot (fun s agent w hs _ => hwrite s agent w hs) (fun s d hs _ => hdevice s d hs)
      (fun s r hs _ => hreset s r hs) _ (hslot s slot rest hs hsch)

/-- With no other agent active, nothing happens between two accesses. -/
@[simp] theorem otherAgents_quiet (s : State) (h : s.schedule = []) : otherAgents s = .ok () s := by
  simp [otherAgents, h]

/-! ### The accessors -/

theorem memReadBit_triple (hstable : Stable P Q) (c : Params) (hcfg : ∀ s, P s → s.cfg = c) {space : BitSpace} {a : Nat}
    (h : a < c.bitSize space) : Txn.Triple P (memReadBit space a) (fun _ s => P s) (fun _ => False) Q := by
  refine Txn.triple_bind hstable fun _ s hs => ?_
  simpa [Run.Ends, validOne, hcfg s hs, h] using hs

theorem memReadWord_triple (hstable : Stable P Q) (c : Params) (hcfg : ∀ s, P s → s.cfg = c) {space : WordSpace}
    {a : Nat} (h : a < c.wordSize space) :
    Txn.Triple P (memReadWord space a) (fun _ s => P s) (fun _ => False) Q := by
  refine Txn.triple_bind hstable fun _ s hs => ?_
  simpa [Run.Ends, validOne, hcfg s hs, h] using hs

theorem memReadFile_triple (hstable : Stable P Q) (c : Params) (hcfg : ∀ s, P s → s.cfg = c) {f r i : Nat}
    (h : c.fileExists f r i = true) : Txn.Triple P (memReadFile f r i) (fun _ s => P s) (fun _ => False) Q := by
  refine Txn.triple_bind hstable fun _ s hs => ?_
  simpa [Run.Ends, hcfg s hs, h] using hs

theorem memWrite_triple (hstable : Stable P Q) (c : Params) (hcfg : ∀ s, P s → s.cfg = c) {w : ElementWrite}
    (h : w.exists c = true) (hw : ∀ s, P s → P (s.write w)) :
    Txn.Triple P (memWrite w) (fun _ s => P s) (fun _ => False) Q := by
  refine Txn.triple_bind hstable fun _ s hs => ?_
  simpa [Run.Ends, hcfg s hs, h] using hw s hs

theorem sampleDevice_triple (hstable : Stable P Q) {f : Device → α} :
    Txn.Triple P (sampleDevice f) (fun a s => P s ∧ a = f s.dev) (fun _ => False) Q :=
  Txn.triple_bind hstable fun _ _ hs => ⟨hs, rfl⟩

/-- A part that never raises fits wherever an exception is allowed. -/
theorem Txn.triple_of_no_raise {m : Txn α} (h : Txn.Triple P m V (fun _ => False) Q) : Txn.Triple P m V E Q :=
  Txn.triple_mono h (fun _ hs => hs) (fun _ _ hv => hv) (fun _ he => he.elim) fun _ hq => hq

/-- `n` reads give `n` values. -/
theorem readEach_triple {read : Nat → Txn α} {n : Nat} : ∀ {a : Nat},
    (∀ k < n, Txn.Triple P (read (a + k)) (fun _ s => P s) (fun _ => False) Q) →
    Txn.Triple P (readEach read a n) (fun vs s => P s ∧ vs.length = n) (fun _ => False) Q := by
  induction n with
  | zero => intro a _; exact Txn.triple_pure fun s hs => ⟨hs, rfl⟩
  | succ n ih =>
    intro a h
    refine Txn.triple_bind (h 0 (by omega)) fun v => ?_
    refine Txn.triple_bind (ih fun k hk => ?_) fun vs => Txn.triple_pure ?_
    · have := h (k + 1) (by omega)
      rwa [show a + (k + 1) = a + 1 + k by omega] at this
    · rintro s ⟨hs, hl⟩
      exact ⟨hs, by simp [hl]⟩

theorem writeEach_triple {target : Nat → α → ElementWrite} {vs : List α} : ∀ {a : Nat},
    (∀ k v, vs[k]? = some v → Txn.Triple P (memWrite (target (a + k) v)) (fun _ s => P s) (fun _ => False) Q) →
    Txn.Triple P (writeEach target a vs) (fun _ s => P s) (fun _ => False) Q := by
  induction vs with
  | nil => intro a _; exact Txn.triple_pure fun s hs => hs
  | cons v vs ih =>
    intro a h
    refine Txn.triple_bind (h 0 v (by simp)) fun _ => ih fun k w hk => ?_
    have := h (k + 1) w (by simpa using hk)
    rwa [show a + (k + 1) = a + 1 + k by omega] at this

/-! ### With no other agent active -/

theorem Txn.bind_ok {m : Txn α} {f : α → Txn β} {s t : State} {a : α} (h : m s = .ok a t) :
    Txn.bind m f s = f a t := by simp [Txn.bind, h]

theorem memReadBit_quiet (s : State) (h : s.schedule = []) (space : BitSpace) (a : Nat) (ha : a < s.cfg.bitSize space) :
    memReadBit space a s = .ok (s.image.bit space a) s := by
  simp [memReadBit, Txn.bind, h, validOne, ha]

theorem memReadWord_quiet (s : State) (h : s.schedule = []) (space : WordSpace) (a : Nat)
    (ha : a < s.cfg.wordSize space) : memReadWord space a s = .ok (s.image.word space a) s := by
  simp [memReadWord, Txn.bind, h, validOne, ha]

theorem memReadFile_quiet (s : State) (h : s.schedule = []) (f r i : Nat) (he : s.cfg.fileExists f r i = true) :
    memReadFile f r i s = .ok (s.image.fileWord f r i) s := by
  simp [memReadFile, Txn.bind, h, he]

theorem memWrite_quiet (s : State) (h : s.schedule = []) (w : ElementWrite) (he : w.exists s.cfg = true) :
    memWrite w s = .ok () (s.write w) := by
  simp [memWrite, Txn.bind, h, he]

theorem sampleDevice_quiet (s : State) (h : s.schedule = []) (f : Device → α) :
    sampleDevice f s = .ok (f s.dev) s := by
  simp [sampleDevice, Txn.bind, h]

theorem readEach_quiet (s : State) {read : Nat → Txn α} {value : Nat → α} (n : Nat) : ∀ a,
    (∀ k < n, read (a + k) s = .ok (value (a + k)) s) →
    readEach read a n s = .ok ((List.range n).map fun k => value (a + k)) s := by
  induction n with
  | zero => intro a _; rfl
  | succ n ih =>
    intro a h
    rw [readEach, Txn.bind_ok (show read a s = _ from h 0 (by omega)),
      Txn.bind_ok (ih (a + 1) fun k hk => by
        have := h (k + 1) (by omega)
        rwa [show a + (k + 1) = a + 1 + k by omega] at this)]
    simp [Txn.pure, List.range_succ_eq_map, Function.comp_def, Nat.add_comm, Nat.add_left_comm]

/-- The image after writing these values from reference `a` on. -/
def Image.writeEach {α : Type} (target : Nat → α → ElementWrite) : Nat → List α → Image → Image
  | _, [], im => im
  | a, v :: vs, im => Image.writeEach target (a + 1) vs (im.write (target a v))

theorem writeEach_quiet {target : Nat → α → ElementWrite} (vs : List α) : ∀ (a : Nat) (s : State), s.schedule = [] →
    (∀ k v, vs[k]? = some v → (target (a + k) v).exists s.cfg = true) →
    Machine.writeEach target a vs s = .ok () { s with image := Image.writeEach target a vs s.image } := by
  induction vs with
  | nil => intro a s _ _; rfl
  | cons v vs ih =>
    intro a s hs h
    rw [Machine.writeEach, Txn.bind_ok (memWrite_quiet s hs _ (show (target a v).exists s.cfg = true from h 0 v (by simp))),
      ih (a + 1) (s.write (target a v)) hs fun k w hk => ?_]
    · rfl
    · have := h (k + 1) w (by simpa using hk)
      rwa [show a + (k + 1) = a + 1 + k by omega] at this

/-! ### The end of a transaction -/

/-- A command's end gives a next state: the finished one, or what a reset left. -/
theorem complete_next {R : State → Prop} (hstable : Stable P Q) (result : Result) (hP : ∀ s, P s → R (s.finish result))
    (hQ : ∀ s, Q s → R s) (s : State) (hs : P s) : ∃ t, complete result s = .next t ∧ R t := by
  have := hstable s hs
  unfold complete
  cases h : otherAgents s with
  | ok a t => rw [h] at this; exact ⟨_, rfl, hP t this⟩
  | raised k t => rw [h] at this; exact this.elim
  | abandoned t => rw [h] at this; exact ⟨_, rfl, hQ t this⟩
  | fault r => rw [h] at this; exact this.elim

@[simp] theorem complete_quiet (result : Result) (s : State) (h : s.schedule = []) :
    complete result s = .next (s.finish result) := by simp [complete, h]

/-- Latching keeps `P`. -/
structure LatchStable (P : State → Prop) : Prop where
  request : ∀ s h r k, P s → P (s.latchRequest h r k)
  header : ∀ s h k, P s → P (s.latchHeader h k)
  response : ∀ s r, P s → P (s.latchResponse r)
  output : ∀ s adu, P s → P (s.latchOutput adu)

/-- A property that says nothing of the latches is kept by latching. -/
theorem latchStable_of_latches (h : ∀ (s : State) (l : Latches), P s → P { s with latches := l }) : LatchStable P :=
  ⟨fun s _ _ _ hs => h s _ hs, fun s _ _ hs => h s _ hs, fun s _ hs => h s _ hs, fun s _ hs => h s _ hs⟩

/-- Concluding with a response gives a next state. -/
theorem conclude_next {R : State → Prop} (hstable : Stable P Q) (hlatch : LatchStable P)
    (hP : ∀ s result, P s → R (s.finish result)) (hQ : ∀ s, Q s → R s) (response : Response) (s : State) (hs : P s) :
    ∃ t, conclude response s = .next t ∧ R t := by
  have latched := hlatch.response s response hs
  unfold conclude
  cases encodeResponse response with
  | error e => exact complete_next hstable _ (fun t => hP t _) hQ _ latched
  | ok pdu =>
    simp only [emitPdu]
    split
    · exact complete_next hstable _ (fun t => hP t _) hQ _ latched
    · exact complete_next hstable _ (fun t => hP t _) hQ _ (hlatch.output _ _ latched)

/-- Answering a request gives a next state. -/
theorem respond_next {R : State → Prop} (hstable : Stable P Q) (hlatch : LatchStable P)
    (hP : ∀ s result, P s → R (s.finish result)) (hQ : ∀ s, Q s → R s) (functionCode : Byte) (dispatch : Txn Response)
    (hdispatch : Txn.Triple P dispatch (fun _ s => P s) P Q) (s : State) (hs : P s) :
    ∃ t, respond functionCode dispatch s = .next t ∧ R t := by
  have := hdispatch s hs
  unfold respond
  cases h : dispatch s with
  | ok r t => rw [h] at this; exact conclude_next hstable hlatch hP hQ r t this
  | raised k t => rw [h] at this; exact conclude_next hstable hlatch hP hQ _ t this
  | abandoned t => rw [h] at this; exact ⟨_, rfl, hQ t this⟩
  | fault r => rw [h] at this; exact this.elim

/-- The ADU of a PDU that fits is what the encoder gives (R135). -/
theorem encodeADU_ok (h : Header) (pdu : List Byte) (hl : pdu.length ≤ 65534) : encodeADU h pdu = .ok (aduOf h pdu) := by
  unfold encodeADU aduOf
  rw [if_neg (by omega)]
  cases h.framing <;> rfl

@[simp] theorem aduOf_responseHeader (h : Header) (pdu pdu' : List Byte) :
    aduOf (responseHeader h pdu') pdu = aduOf h pdu := by
  cases pdu' <;> rfl

/-- Concluding with a response that has an encoding, no other agent active: the whole next state. -/
theorem conclude_quiet (response : Response) (s : State) (hs : s.schedule = []) (pdu : List Byte)
    (hpdu : encodeResponse response = .ok pdu) (hl : pdu.length ≤ 65534) :
    conclude response s = .next (s.answered s.image pdu) := by
  simp [conclude, hpdu, emitPdu, encodeADU_ok _ _ hl, hs]
  rfl

/-- The PDU of an exception response (R301), for any function-code byte. -/
theorem encodeResponse_exception (functionCode : Byte) (kind : ExceptionKind) :
    encodeResponse (.exception (withoutExceptionBit functionCode) kind.code) = .ok (exceptionPdu functionCode kind.code) := by
  have bits : withExceptionBit (withoutExceptionBit functionCode) = functionCode ||| 0x80 := by
    revert functionCode; decide
  have clear : isException (withoutExceptionBit functionCode) = false := by
    revert functionCode; decide
  simp [encodeResponse, clear, constructRequire, bits, exceptionPdu]

/-- Taking an exception, no other agent active: the whole next state (R301, R307). -/
theorem takeException_quiet (functionCode : Byte) (kind : ExceptionKind) (s : State) (hs : s.schedule = []) :
    takeException functionCode kind s = .next (s.answered s.image (exceptionPdu functionCode kind.code)) :=
  conclude_quiet _ s hs _ (encodeResponse_exception functionCode kind) (by simp [exceptionPdu])

theorem respond_ok {functionCode : Byte} {dispatch : Txn Response} {s t : State} {r : Response}
    (h : dispatch s = .ok r t) : respond functionCode dispatch s = conclude r t := by simp [respond, h]

theorem respond_raised {functionCode : Byte} {dispatch : Txn Response} {s t : State} {k : ExceptionKind}
    (h : dispatch s = .raised k t) : respond functionCode dispatch s = takeException functionCode k t := by
  simp [respond, h]

end Sys2Proof.Machine
end

