-- ==== Sys2Proof/Laws/Exec.lean ====
section
/-! SUPPORT. What an instruction can do, said once for all of them: whatever the other agents do, `exec` gives a next state, and
a property that the other agents' events and the instruction's own writes keep holds in it. -/

namespace Sys2Proof.Machine

variable {P Q : State → Prop}

/-- The properties a dispatch is followed through with: the configuration is `c`, and the other agents keep `P`. -/
structure Followed (c : Params) (P Q : State → Prop) : Prop where
  cfg : ∀ s, P s → s.cfg = c
  stable : Stable P Q

/-- The writes to elements in `T` keep `P`. -/
def KeepsWrites (c : Params) (P : State → Prop) (T : Element → Prop) : Prop :=
  ∀ s w, P s → w.exists c = true → T w.element → P (s.write w)

/-! ### The checks -/

theorem validRead_bound {size ref n k : Nat} (h : validRead size ref n = true) (hk : k < n) : ref + k < size := by
  simp only [validRead, Bool.and_eq_true, Bool.or_eq_true, decide_eq_true_eq, beq_iff_eq] at h
  omega

theorem validWrite_bound {size ref n k : Nat} (h : validWrite size ref n = true) (hk : k < n) : ref + k < size := by
  simp only [validWrite, Bool.or_eq_true, decide_eq_true_eq, beq_iff_eq] at h
  omega

/-- A sub-request that passes its check names only elements that exist (R78, R221). -/
theorem checkSub_exists {p : Params} {refType : Byte} {f r n k : Nat} (h : checkSub p refType f r n = none) (hk : k < n) :
    p.fileExists f r k = true := by
  unfold checkSub at h
  repeat' split at h
  all_goals try cases h
  simp only [Params.fileExists, Bool.and_eq_true, decide_eq_true_eq]
  omega

section sequencing

variable {α β : Type} {c : Params} {W : β → State → Prop} {E : State → Prop}

/-- Reading a parameter gives the parameter of `c`. -/
theorem Txn.triple_config (hcfg : ∀ s, P s → s.cfg = c) {g : Params → α} {f : α → Txn β}
    (h : Txn.Triple P (f (g c)) W E Q) : Txn.Triple P (Txn.bind (readConfig g) f) W E Q := by
  intro s hs
  have := h s hs
  rw [← hcfg s hs] at this
  exact this

/-- Past a check, what it checked holds. -/
theorem Txn.triple_checked {b : Bool} {k : ExceptionKind} {f : Unit → Txn β} (hE : ∀ s, P s → E s)
    (h : b = true → Txn.Triple P (f ()) W E Q) : Txn.Triple P (Txn.bind (Txn.check b k) f) W E Q := by
  cases b with
  | false => exact fun s hs => hE s hs
  | true => exact h rfl

/-- Past a part that keeps `P`. -/
theorem Txn.triple_then {m : Txn α} {f : α → Txn β} (hm : Txn.Triple P m (fun _ s => P s) (fun _ => False) Q)
    (hf : ∀ a, Txn.Triple P (f a) W E Q) : Txn.Triple P (Txn.bind m f) W E Q :=
  Txn.triple_bind (Txn.triple_of_no_raise hm) hf

/-- Past reads, there are as many values. -/
theorem Txn.triple_reads {read : Nat → Txn α} {a n : Nat} {f : List α → Txn β}
    (hread : ∀ k < n, Txn.Triple P (read (a + k)) (fun _ s => P s) (fun _ => False) Q)
    (hf : ∀ vs, vs.length = n → Txn.Triple P (f vs) W E Q) : Txn.Triple P (Txn.bind (readEach read a n) f) W E Q := by
  refine Txn.triple_bind (Txn.triple_of_no_raise (readEach_triple hread)) fun vs => ?_
  rintro s ⟨hs, hl⟩
  exact hf vs hl s hs

/-- Past a device sample. -/
theorem Txn.triple_sample (hstable : Stable P Q) {input : Device → α} {f : α → Txn β}
    (hf : ∀ a, Txn.Triple P (f a) W E Q) : Txn.Triple P (Txn.bind (sampleDevice input) f) W E Q :=
  Txn.triple_then (Txn.triple_mono (sampleDevice_triple hstable) (fun _ hs => hs) (fun _ _ hs => hs.1) (fun _ hs => hs)
    fun _ hs => hs) hf

/-- Past the sub-request checks, every sub-request passed its own. -/
theorem Txn.triple_checkEach (hcfg : ∀ s, P s → s.cfg = c) {check : Params → α → Option ExceptionKind} {subs : List α}
    {f : Unit → Txn β} (hE : ∀ s, P s → E s)
    (h : (∀ sub ∈ subs, check c sub = none) → Txn.Triple P (f ()) W E Q) :
    Txn.Triple P (Txn.bind (checkEach check subs) f) W E Q := by
  have checks : Txn.Triple P (checkEach check subs) (fun _ s => P s ∧ ∀ sub ∈ subs, check c sub = none) E Q := by
    clear h
    induction subs with
    | nil => exact Txn.triple_pure fun s hs => ⟨hs, by simp⟩
    | cons sub rest ih =>
      refine Txn.triple_config hcfg ?_
      cases hsub : check c sub with
      | some kind => exact Txn.triple_raise hE
      | none =>
        refine Txn.triple_mono ih (fun _ hs => hs) (fun _ s hs => ⟨hs.1, ?_⟩) (fun _ he => he) fun _ hq => hq
        simp only [List.mem_cons]
        rintro x (rfl | hx)
        exacts [hsub, hs.2 x hx]
  refine Txn.triple_bind checks fun _ => ?_
  rintro s ⟨hs, hall⟩
  exact h hall s hs

end sequencing

/-! ### The dispatches

Each ends with a response in `P`, an exception in `B`, or a reset in `Q`: `B` holds before the first write, so an exception is
raised before any write (R70). -/

/-- What a dispatch is followed through with: `B` up to its first write and `P` from then on. -/
structure Precise (c : Params) (B P Q : State → Prop) : Prop where
  before : Followed c B Q
  after : Followed c P Q
  weaken : ∀ s, B s → P s

/-- One property throughout. -/
theorem Followed.precise {c : Params} (h : Followed c P Q) : Precise c P P Q := ⟨h, h, fun _ hs => hs⟩

section dispatches

variable {c : Params} {reference : U16} {B : State → Prop}

/-- From the first write on, `P` is followed. -/
theorem Precise.then_write {α : Type} {m : Txn α} {W : α → State → Prop} {E : State → Prop} (h : Precise c B P Q)
    (hm : Txn.Triple P m W E Q) : Txn.Triple B m W E Q :=
  Txn.triple_mono hm h.weaken (fun _ _ hv => hv) (fun _ he => he) fun _ hq => hq

theorem dispatchReadBits_triple (h : Precise c B P Q) (space : BitSpace) (respondWith : Byte → List Byte → Response)
    (count : U16) : Txn.Triple B (dispatchReadBits space respondWith reference count) (fun _ s => P s) B Q :=
  Txn.triple_config h.before.cfg <| Txn.triple_checked (fun _ hs => hs) fun _ =>
  Txn.triple_checked (fun _ hs => hs) fun hv =>
  Txn.triple_reads (fun _ hk => memReadBit_triple h.before.stable c h.before.cfg (validRead_bound hv hk)) fun _ _ =>
  Txn.triple_pure h.weaken

theorem dispatchReadWords_triple (h : Precise c B P Q) (space : WordSpace) (respondWith : List U16 → Response)
    (count : U16) : Txn.Triple B (dispatchReadWords space respondWith reference count) (fun _ s => P s) B Q :=
  Txn.triple_config h.before.cfg <| Txn.triple_config h.before.cfg <| Txn.triple_checked (fun _ hs => hs) fun _ =>
  Txn.triple_checked (fun _ hs => hs) fun hv =>
  Txn.triple_reads (fun _ hk => memReadWord_triple h.before.stable c h.before.cfg (validRead_bound hv hk)) fun _ _ =>
  Txn.triple_pure h.weaken

theorem dispatchWriteOne_triple (h : Precise c B P Q) (size : Params → Nat) (target : ElementWrite) (echo : Response)
    (hexists : validOne (size c) reference.toNat = true → target.exists c = true)
    (hw : target.exists c = true → ∀ s, P s → P (s.write target)) :
    Txn.Triple B (dispatchWriteOne size target reference echo) (fun _ s => P s) B Q :=
  Txn.triple_config h.before.cfg <| Txn.triple_checked (fun _ hs => hs) fun hv => h.then_write <|
  Txn.triple_then (memWrite_triple h.after.stable c h.after.cfg (hexists hv) (hw (hexists hv))) fun _ =>
  Txn.triple_pure fun _ hs => hs

theorem dispatchWriteMany_triple {α : Type} (h : Precise c B P Q) (size : Params → Nat)
    (target : Nat → α → ElementWrite) (count : Nat) (values : List α) (echo : Response)
    (hexists : ∀ a v, a < size c → (target a v).exists c = true) (hlength : values.length ≤ count)
    (hw : ∀ k v s, k < count → reference.toNat + k < size c → P s → P (s.write (target (reference.toNat + k) v))) :
    Txn.Triple B (dispatchWriteMany size target reference count values echo) (fun _ s => P s) B Q :=
  Txn.triple_config h.before.cfg <| Txn.triple_checked (fun _ hs => hs) fun hv => h.then_write <|
  Txn.triple_then (writeEach_triple fun k v hk =>
    have hk' : k < count := by have := (List.getElem?_eq_some_iff.mp hk).1; omega
    have ha := validWrite_bound hv hk'
    memWrite_triple h.after.stable c h.after.cfg (hexists _ _ ha) fun s hs => hw k v s hk' ha hs) fun _ =>
  Txn.triple_pure fun _ hs => hs

theorem dispatchMaskWrite_triple (h : Precise c B P Q) (andMask orMask : U16)
    (hw : ∀ s v, reference.toNat < c.nHR → P s → P (s.write (.hr reference.toNat v))) :
    Txn.Triple B (dispatchMaskWrite reference andMask orMask) (fun _ s => P s) B Q :=
  Txn.triple_config h.before.cfg <| Txn.triple_checked (fun _ hs => hs) fun hv => h.then_write <|
  have ha : reference.toNat < c.nHR := by simpa [validOne] using hv
  Txn.triple_then (memReadWord_triple h.after.stable c h.after.cfg ha) fun _ =>
  Txn.triple_then (memWrite_triple h.after.stable c h.after.cfg hv fun s hs => hw s _ ha hs) fun _ =>
  Txn.triple_pure fun _ hs => hs

theorem dispatchReadWrite_triple (h : Precise c B P Q) (readRef readCount : U16) (values : List U16)
    (hw : ∀ k v s, k < values.length → reference.toNat + k < c.nHR → P s → P (s.write (.hr (reference.toNat + k) v))) :
    Txn.Triple B (dispatchReadWrite readRef readCount reference values) (fun _ s => P s) B Q :=
  Txn.triple_config h.before.cfg <| Txn.triple_config h.before.cfg <| Txn.triple_checked (fun _ hs => hs) fun _ =>
  Txn.triple_checked (fun _ hs => hs) fun hr => Txn.triple_checked (fun _ hs => hs) fun hv => h.then_write <|
  Txn.triple_then (writeEach_triple fun k v hk =>
    have hk' : k < values.length := (List.getElem?_eq_some_iff.mp hk).1
    have ha := validWrite_bound hv hk'
    memWrite_triple h.after.stable c h.after.cfg (by simpa [ElementWrite.exists, validOne] using ha) fun s hs =>
      hw k v s hk' ha hs) fun _ =>
  Txn.triple_reads (fun _ hk => memReadWord_triple h.after.stable c h.after.cfg (validRead_bound hr hk)) fun _ _ =>
  Txn.triple_pure fun _ hs => hs

theorem dispatchDiagnostics_triple (h : Precise c B P Q) (subFunction data : U16) :
    Txn.Triple B (dispatchDiagnostics subFunction data) (fun _ s => P s) B Q :=
  Txn.triple_config h.before.cfg <| Txn.triple_pure h.weaken

theorem dispatchExceptionStatus_triple (h : Precise c B P Q) :
    Txn.Triple B dispatchExceptionStatus (fun _ s => P s) B Q :=
  Txn.triple_sample h.before.stable fun _ => Txn.triple_pure h.weaken

theorem dispatchEventCounter_triple (h : Precise c B P Q) : Txn.Triple B dispatchEventCounter (fun _ s => P s) B Q :=
  Txn.triple_sample h.before.stable fun _ => Txn.triple_sample h.before.stable fun _ => Txn.triple_pure h.weaken

theorem dispatchEventLog_triple (h : Precise c B P Q) : Txn.Triple B dispatchEventLog (fun _ s => P s) B Q :=
  Txn.triple_sample h.before.stable fun _ => Txn.triple_sample h.before.stable fun _ =>
  Txn.triple_sample h.before.stable fun _ => Txn.triple_sample h.before.stable fun _ => Txn.triple_pure h.weaken

theorem dispatchSlaveID_triple (h : Precise c B P Q) : Txn.Triple B dispatchSlaveID (fun _ s => P s) B Q :=
  Txn.triple_sample h.before.stable fun _ => Txn.triple_sample h.before.stable fun _ =>
  Txn.triple_sample h.before.stable fun _ => Txn.triple_pure h.weaken

theorem dispatchFifo_triple (h : Precise c B P Q) : Txn.Triple B (dispatchFifo reference) (fun _ s => P s) B Q :=
  Txn.triple_config h.before.cfg <| Txn.triple_checked (fun _ hs => hs) fun hv =>
  Txn.triple_then (memReadWord_triple h.before.stable c h.before.cfg
    (by simpa [validOne, Params.wordSize] using hv)) fun _ =>
  Txn.triple_checked (fun _ hs => hs) fun _ => Txn.triple_checked (fun _ hs => hs) fun hr =>
  Txn.triple_reads (fun _ hk => memReadWord_triple h.before.stable c h.before.cfg (validRead_bound hr hk)) fun _ _ =>
  Txn.triple_pure h.weaken

theorem dispatchMEI_triple (h : Precise c B P Q) (subCode fieldLevel fieldId : Byte) :
    Txn.Triple B (dispatchMEI subCode fieldLevel fieldId) (fun _ s => P s) B Q := by
  refine Txn.triple_checked (fun _ hs => hs) fun _ => Txn.triple_config h.before.cfg ?_
  cases c.meiTable fieldLevel fieldId with
  | illegalAddress => exact Txn.triple_raise fun _ hs => hs
  | illegalValue => exact Txn.triple_raise fun _ hs => hs
  | objects _ _ _ _ => exact Txn.triple_pure h.weaken

theorem readRecords_triple (h : Followed c P Q) (subs : List FileRead)
    (hall : ∀ sub ∈ subs, checkFileRead c sub = none) :
    Txn.Triple P (readRecords subs) (fun _ s => P s) (fun _ => False) Q := by
  induction subs with
  | nil => exact Txn.triple_pure fun _ hs => hs
  | cons sub rest ih =>
    refine Txn.triple_reads (fun k hk => ?_) fun _ _ => Txn.triple_then (ih fun x hx => hall x (by simp [hx])) fun _ =>
      Txn.triple_pure fun _ hs => hs
    rw [Nat.zero_add]
    exact memReadFile_triple h.stable c h.cfg (checkSub_exists (hall sub (by simp)) hk)

theorem writeRecords_triple (h : Followed c P Q) (subs : List FileWrite)
    (hall : ∀ sub ∈ subs, checkFileWrite c sub = none)
    (hw : ∀ sub ∈ subs, ∀ k v s, k < sub.data.length → c.fileExists sub.file.toNat sub.record.toNat k = true → P s →
      P (s.write (.file sub.file.toNat sub.record.toNat k v))) :
    Txn.Triple P (writeRecords subs) (fun _ s => P s) (fun _ => False) Q := by
  induction subs with
  | nil => exact Txn.triple_pure fun _ hs => hs
  | cons sub rest ih =>
    refine Txn.triple_then (writeEach_triple fun k v hk => ?_) fun _ =>
      ih (fun x hx => hall x (by simp [hx])) fun x hx => hw x (by simp [hx])
    have hk' : k < sub.data.length := (List.getElem?_eq_some_iff.mp hk).1
    have he := checkSub_exists (hall sub (by simp)) hk'
    rw [Nat.zero_add]
    exact memWrite_triple h.stable c h.cfg he fun s hs => hw sub (by simp) k v s hk' he hs

theorem dispatchReadFile_triple (h : Precise c B P Q) (subs : List FileRead) :
    Txn.Triple B (dispatchReadFile subs) (fun _ s => P s) B Q :=
  Txn.triple_checkEach h.before.cfg (fun _ hs => hs) fun hall => Txn.triple_checked (fun _ hs => hs) fun _ =>
  Txn.triple_then (readRecords_triple h.before subs hall) fun _ => Txn.triple_pure h.weaken

theorem dispatchWriteFile_triple (h : Precise c B P Q) (subs : List FileWrite)
    (hw : ∀ sub ∈ subs, ∀ k v s, k < sub.data.length → c.fileExists sub.file.toNat sub.record.toNat k = true → P s →
      P (s.write (.file sub.file.toNat sub.record.toNat k v))) :
    Txn.Triple B (dispatchWriteFile subs) (fun _ s => P s) B Q :=
  Txn.triple_checkEach h.before.cfg (fun _ hs => hs) fun hall => h.then_write <|
  Txn.triple_then (writeRecords_triple h.after subs hall hw) fun _ => Txn.triple_pure fun _ hs => hs

end dispatches

/-! ### The instructions -/

/-- The dispatch of an instruction (R265). -/
def dispatchOf : Instr → Txn Response
  | .readCoils reference count => dispatchReadBits .coil .readCoils reference count
  | .readInputDiscretes reference count => dispatchReadBits .di .readInputDiscretes reference count
  | .readMultipleRegisters reference count => dispatchReadWords .hr .readMultipleRegisters reference count
  | .readInputRegisters reference count => dispatchReadWords .ir .readInputRegisters reference count
  | .writeCoil reference value => dispatchWriteCoil reference value
  | .writeSingleRegister reference value =>
    dispatchWriteOne Params.nHR (.hr reference.toNat value) reference (.writeSingleRegister reference value)
  | .readExceptionStatus => dispatchExceptionStatus
  | .readSerialDiagnostics subFunction data => dispatchDiagnostics subFunction data
  | .readCommEventCounter => dispatchEventCounter
  | .readCommEventLog => dispatchEventLog
  | .writeMultipleCoils reference count data =>
    dispatchWriteMany Params.nCOIL .coil reference count.toNat ((unpackLsb data).take count.toNat)
      (.writeMultipleCoils reference count)
  | .writeMultipleRegisters reference values =>
    dispatchWriteMany Params.nHR .hr reference values.length values
      (.writeMultipleRegisters reference (u16Field values.length))
  | .reportSlaveID => dispatchSlaveID
  | .readFileRecord subs => dispatchReadFile subs
  | .writeFileRecord subs => dispatchWriteFile subs
  | .maskWriteRegister reference andMask orMask => dispatchMaskWrite reference andMask orMask
  | .readWriteMultiple readRef readCount writeRef values => dispatchReadWrite readRef readCount writeRef values
  | .readFIFOQueue reference => dispatchFifo reference
  | .readMEI subCode fieldLevel fieldId => dispatchMEI subCode fieldLevel fieldId

/-- Every instruction responds with its dispatch. -/
theorem exec_eq_respond (i : Instr) (s : State) : exec i s = respond i.functionCode (dispatchOf i) s := by
  cases i <;> rfl

/-- What any instruction's dispatch ends in, whatever the other agents do. `P` has to be kept by the instruction's own writes: to
elements of `writeTargets` that exist. -/
theorem dispatchOf_triple (i : Instr) {c : Params} {B : State → Prop} (h : Precise c B P Q)
    (hw : KeepsWrites c P (writeTargets i)) : Txn.Triple B (dispatchOf i) (fun _ s => P s) B Q := by
  cases i with
  | readCoils reference count => exact dispatchReadBits_triple h _ _ _
  | readInputDiscretes reference count => exact dispatchReadBits_triple h _ _ _
  | readMultipleRegisters reference count => exact dispatchReadWords_triple h _ _ _
  | readInputRegisters reference count => exact dispatchReadWords_triple h _ _ _
  | writeCoil reference value =>
    exact Txn.triple_checked (fun _ hs => hs) fun _ => dispatchWriteOne_triple h _ _ _ (fun hv => hv)
      fun he s hs => hw s _ hs he rfl
  | writeSingleRegister reference value =>
    exact dispatchWriteOne_triple h _ _ _ (fun hv => hv) fun he s hs => hw s _ hs he rfl
  | readExceptionStatus => exact dispatchExceptionStatus_triple h
  | readSerialDiagnostics subFunction data => exact dispatchDiagnostics_triple h subFunction data
  | readCommEventCounter => exact dispatchEventCounter_triple h
  | readCommEventLog => exact dispatchEventLog_triple h
  | writeMultipleCoils reference count data =>
    refine dispatchWriteMany_triple h _ _ _ _ _ (fun a v ha => ?_) (by simp) fun k v s hk ha hs => ?_
    · simpa [ElementWrite.exists, validOne] using ha
    · exact hw s _ hs (by simpa [ElementWrite.exists, validOne] using ha) ⟨k, hk, rfl⟩
  | writeMultipleRegisters reference values =>
    refine dispatchWriteMany_triple h _ _ _ _ _ (fun a v ha => ?_) le_rfl fun k v s hk ha hs => ?_
    · simpa [ElementWrite.exists, validOne] using ha
    · exact hw s _ hs (by simpa [ElementWrite.exists, validOne] using ha) ⟨k, hk, rfl⟩
  | reportSlaveID => exact dispatchSlaveID_triple h
  | readFileRecord subs => exact dispatchReadFile_triple h subs
  | writeFileRecord subs =>
    exact dispatchWriteFile_triple h subs fun sub hsub k v s hk he hs => hw s _ hs he ⟨sub, hsub, k, hk, rfl⟩
  | maskWriteRegister reference andMask orMask =>
    refine dispatchMaskWrite_triple h _ _ fun s v ha hs => ?_
    exact hw s _ hs (by simpa [ElementWrite.exists, validOne] using ha) rfl
  | readWriteMultiple readRef readCount writeRef values =>
    refine dispatchReadWrite_triple h _ _ _ fun k v s hk ha hs => ?_
    exact hw s _ hs (by simpa [ElementWrite.exists, validOne] using ha) ⟨k, hk, rfl⟩
  | readFIFOQueue reference => exact dispatchFifo_triple h
  | readMEI subCode fieldLevel fieldId => exact dispatchMEI_triple h _ _ _

/-- Whatever the other agents do, an instruction gives a next state, and in it what holds after `P` or after a reset. -/
theorem exec_next (i : Instr) {c : Params} {R : State → Prop} (h : Followed c P Q) (hlatch : LatchStable P)
    (hw : KeepsWrites c P (writeTargets i)) (hP : ∀ s result, P s → R (s.finish result)) (hQ : ∀ s, Q s → R s)
    (s : State) (hs : P s) : ∃ t, exec i s = .next t ∧ R t := by
  rw [exec_eq_respond]
  exact respond_next h.stable hlatch hP hQ _ _ (dispatchOf_triple i h.precise hw) s hs

end Sys2Proof.Machine
end

