-- ==== Sys2Proof/Laws/Step.lean ====
section
/-! SUPPORT. What a step can do, said once for all commands: it gives a next state, and a property that the other agents' events,
the latches and the engine's own writes keep holds in it. -/

namespace Sys2Proof.Machine

variable {P Q : State → Prop}

/-- An instruction writes only elements of the spaces R36 lets it write. -/
theorem writeTargets_byFunctionCode (i : Instr) (w : ElementWrite) (h : writeTargets i w.element) :
    w.byFunctionCode = true := by
  cases w <;> first | rfl | (cases i <;> simp [writeTargets, ElementWrite.element] at h)

/-- A command's run gives a next state, whatever the other agents do. -/
theorem runCommand_next {c : Params} {R : State → Prop} (h : Followed c P Q) (hlatch : LatchStable P)
    (hw : ∀ s w, P s → w.exists c = true → w.byFunctionCode = true → P (s.write w))
    (hP : ∀ s result, P s → R (s.finish result)) (hQ : ∀ s, Q s → R s) (command : Command) (s : State) (hs : P s) :
    ∃ t, runCommand command s = .next t ∧ R t := by
  have ends : ∀ result s, P s → ∃ t, complete result s = .next t ∧ R t := fun result s hs =>
    complete_next h.stable result (fun t => hP t _) hQ s hs
  have encodes : ∀ encoded s, P s → ∃ t, completeEncode encoded s = .next t ∧ R t := by
    intro encoded s hs
    unfold completeEncode
    cases encoded with
    | error e => exact ends _ s hs
    | ok adu => exact ends _ _ (hlatch.output s adu hs)
  cases command with
  | serve headless input =>
    simp only [runCommand, serve]
    cases decodeRequestADU headless input with
    | error e => exact ends _ s hs
    | ok v =>
      obtain ⟨header, request⟩ := v
      have latched := hlatch.request s header request input.length hs
      cases request with
      | instr i =>
        exact exec_next i h hlatch (fun s w hs he ht => hw s w hs he (writeTargets_byFunctionCode i w ht)) hP hQ _ latched
      | illegalFunction fc => exact conclude_next h.stable hlatch hP hQ _ _ latched
  | decReq headless input =>
    simp only [runCommand, decReq]
    cases decodeRequestADU headless input with
    | error e => exact ends _ s hs
    | ok v => exact ends _ _ (hlatch.request s _ _ _ hs)
  | decRsp headless input =>
    simp only [runCommand, decRsp]
    cases decodeResponseADU headless input with
    | error e => exact ends _ s hs
    | ok v => exact ends _ _ (hlatch.response _ _ (hlatch.header s _ _ hs))
  | encRsp headless header record => exact encodes _ _ (hlatch.response _ _ (hlatch.header s _ _ hs))
  | encReq headless header record => exact encodes _ _ (hlatch.request s _ _ _ hs)

/-- An idle step gives a next state. -/
theorem idle_next {R : State → Prop} (h : Stable P Q) (hP : ∀ s, P s → R s) (hQ : ∀ s, Q s → R s) (s : State)
    (hs : P s) : ∃ t, idle s = .next t ∧ R t := by
  have := h s hs
  unfold idle
  cases ho : otherAgents s with
  | ok a t => rw [ho] at this; exact ⟨_, rfl, hP t this⟩
  | raised k t => rw [ho] at this; exact this.elim
  | abandoned t => rw [ho] at this; exact ⟨_, rfl, hQ t this⟩
  | fault r => rw [ho] at this; exact this.elim

/-- A step gives a next state, whatever the other agents do. -/
theorem step_next {c : Params} {R : State → Prop} (h : Followed c P Q) (hlatch : LatchStable P)
    (hw : ∀ s w, P s → w.exists c = true → w.byFunctionCode = true → P (s.write w))
    (hP : ∀ s result, P s → R (s.finish result)) (hidle : ∀ s, P s → R s) (hQ : ∀ s, Q s → R s) (s : State)
    (hs : P { s with commands := s.commands.tail }) : ∃ t, step s = .next t ∧ R t := by
  unfold step
  cases hc : s.commands with
  | nil =>
    refine idle_next h.stable hidle hQ s ?_
    rw [hc] at hs
    have : ({ s with commands := [] } : State) = s := by rw [← hc]
    rwa [List.tail_nil, this] at hs
  | cons command rest =>
    rw [hc] at hs
    exact runCommand_next h hlatch hw hP hQ command _ hs

end Sys2Proof.Machine
end

