-- ==== Sys2Proof/Laws/Quiet.lean ====
section
/-! SUPPORT. What each dispatch comes to when no other agent is active: its response, and the image it leaves. -/

namespace Sys2Proof.Machine

variable {s : State} {reference count : U16}

/-! ### The checks -/

theorem validRead_iff (size ref n : Nat) : validRead size ref n = true ↔ ref + n < 65536 ∧ (n = 0 ∨ ref + n ≤ size) := by
  simp [validRead]

theorem validWrite_iff (size ref n : Nat) : validWrite size ref n = true ↔ n = 0 ∨ ref + n ≤ size := by
  simp [validWrite]

theorem validOne_iff (size ref : Nat) : validOne size ref = true ↔ ref < size := by simp [validOne]

@[simp] theorem Txn.readConfig_bind {α β : Type} (g : Params → α) (f : α → Txn β) (s : State) :
    Txn.bind (readConfig g) f s = f (g s.cfg) s := rfl

theorem Txn.check_bind {β : Type} {b : Bool} (k : ExceptionKind) (f : Unit → Txn β) (s : State) (h : b = true) :
    Txn.bind (Txn.check b k) f s = f () s := by subst h; rfl

theorem Txn.check_raises {β : Type} {b : Bool} (k : ExceptionKind) (f : Unit → Txn β) (s : State) (h : ¬ b = true) :
    Txn.bind (Txn.check b k) f s = .raised k s := by
  cases b with
  | false => rfl
  | true => exact absurd rfl h

/-- A check that all sub-requests pass. -/
theorem checkEach_pass {α : Type} {check : Params → α → Option ExceptionKind} (subs : List α)
    (h : ∀ sub ∈ subs, check s.cfg sub = none) : checkEach check subs s = .ok () s := by
  induction subs with
  | nil => rfl
  | cons sub rest ih =>
    simp only [checkEach, Txn.readConfig_bind, h sub (by simp)]
    exact ih fun x hx => h x (by simp [hx])

/-- The first sub-request that fails its check decides. -/
theorem checkEach_fail {α : Type} {check : Params → α → Option ExceptionKind} (before after : List α) (sub : α)
    {kind : ExceptionKind} (h : ∀ x ∈ before, check s.cfg x = none) (hsub : check s.cfg sub = some kind) :
    checkEach check (before ++ sub :: after) s = .raised kind s := by
  induction before with
  | nil => simp only [List.nil_append, checkEach, Txn.readConfig_bind, hsub]; rfl
  | cons x rest ih =>
    simp only [List.cons_append, checkEach, Txn.readConfig_bind, h x (by simp)]
    exact ih fun y hy => h y (by simp [hy])

/-! ### The reads -/

theorem readBits_quiet (hs : s.schedule = []) (space : BitSpace) (a n : Nat) (h : n = 0 ∨ a + n ≤ s.cfg.bitSize space) :
    readEach (memReadBit space) a n s = .ok ((List.range n).map fun k => s.image.bit space (a + k)) s :=
  readEach_quiet s n a fun k hk => memReadBit_quiet s hs space (a + k) (by omega)

theorem readWords_quiet (hs : s.schedule = []) (space : WordSpace) (a n : Nat)
    (h : n = 0 ∨ a + n ≤ s.cfg.wordSize space) :
    readEach (memReadWord space) a n s = .ok ((List.range n).map fun k => s.image.word space (a + k)) s :=
  readEach_quiet s n a fun k hk => memReadWord_quiet s hs space (a + k) (by omega)

theorem dispatchReadBits_quiet (hs : s.schedule = []) (space : BitSpace) (respondWith : Byte → List Byte → Response)
    (hcap : count.toNat ≤ Config.maxReadBits) (hv : validRead (s.cfg.bitSize space) reference.toNat count.toNat = true) :
    dispatchReadBits space respondWith reference count s = .ok
      (respondWith (u8Field (packedLength count.toNat))
        (packLsb ((List.range count.toNat).map fun k => s.image.bit space (reference.toNat + k))
          (packedLength count.toNat))) s := by
  have hsize := ((validRead_iff _ _ _).mp hv).2
  rw [dispatchReadBits, Txn.readConfig_bind, Txn.check_bind _ _ _ (decide_eq_true hcap),
    Txn.check_bind _ _ _ hv, Txn.bind_ok (readBits_quiet hs space _ _ hsize)]
  rfl

theorem dispatchReadWords_quiet (hs : s.schedule = []) (space : WordSpace) (respondWith : List U16 → Response)
    (hcap : count.toNat ≤ s.cfg.maxReadRegs)
    (hv : validRead (s.cfg.wordSize space) reference.toNat count.toNat = true) :
    dispatchReadWords space respondWith reference count s = .ok
      (respondWith ((List.range count.toNat).map fun k => s.image.word space (reference.toNat + k))) s := by
  have hsize := ((validRead_iff _ _ _).mp hv).2
  rw [dispatchReadWords, Txn.readConfig_bind, Txn.readConfig_bind, Txn.check_bind _ _ _ (decide_eq_true hcap),
    Txn.check_bind _ _ _ hv, Txn.bind_ok (readWords_quiet hs space _ _ hsize)]
  rfl

/-! ### The writes -/

theorem dispatchWriteOne_quiet (hs : s.schedule = []) (size : Params → Nat) (target : ElementWrite) (echo : Response)
    (hv : validOne (size s.cfg) reference.toNat = true) (he : target.exists s.cfg = true) :
    dispatchWriteOne size target reference echo s = .ok echo (s.write target) := by
  rw [dispatchWriteOne, Txn.readConfig_bind, Txn.check_bind _ _ _ hv, Txn.bind_ok (memWrite_quiet s hs _ he)]
  rfl

theorem dispatchWriteMany_quiet {α : Type} (hs : s.schedule = []) (size : Params → Nat) (target : Nat → α → ElementWrite)
    (n : Nat) (values : List α) (echo : Response) (hv : validWrite (size s.cfg) reference.toNat n = true)
    (hn : values.length ≤ n) (he : ∀ a v, a < size s.cfg → (target a v).exists s.cfg = true) :
    dispatchWriteMany size target reference n values echo s =
      .ok echo { s with image := Image.writeEach target reference.toNat values s.image } := by
  rw [dispatchWriteMany, Txn.readConfig_bind, Txn.check_bind _ _ _ hv,
    Txn.bind_ok (writeEach_quiet values _ s hs fun k v hk =>
      he _ _ (validWrite_bound hv (Nat.lt_of_lt_of_le (List.getElem?_eq_some_iff.mp hk).1 hn)))]
  rfl

theorem dispatchMaskWrite_quiet (hs : s.schedule = []) (andMask orMask : U16)
    (hv : validOne s.cfg.nHR reference.toNat = true) :
    dispatchMaskWrite reference andMask orMask s = .ok (.maskWriteRegister reference andMask orMask)
      (s.write (.hr reference.toNat (maskWrite (s.image.word .hr reference.toNat) andMask orMask))) := by
  rw [dispatchMaskWrite, Txn.readConfig_bind, Txn.check_bind _ _ _ hv,
    Txn.bind_ok (memReadWord_quiet s hs .hr _ ((validOne_iff _ _).mp hv)), Txn.bind_ok (memWrite_quiet s hs (.hr _ _) hv)]
  rfl

theorem dispatchReadWrite_quiet (hs : s.schedule = []) (readRef writeRef : U16) (values : List U16)
    (hcap : count.toNat ≤ s.cfg.maxReadRegs) (hr : validRead s.cfg.nHR readRef.toNat count.toNat = true)
    (hw : validWrite s.cfg.nHR writeRef.toNat values.length = true) :
    dispatchReadWrite readRef count writeRef values s = .ok
      (.readWriteMultiple ((List.range count.toNat).map fun k =>
        (Image.writeEach .hr writeRef.toNat values s.image).word .hr (readRef.toNat + k)))
      { s with image := Image.writeEach .hr writeRef.toNat values s.image } := by
  have hsize := ((validRead_iff _ _ _).mp hr).2
  rw [dispatchReadWrite, Txn.readConfig_bind, Txn.readConfig_bind, Txn.check_bind _ _ _ (decide_eq_true hcap),
    Txn.check_bind _ _ _ hr, Txn.check_bind _ _ _ hw,
    Txn.bind_ok (writeEach_quiet values _ s hs fun k v hk => by
      have := validWrite_bound hw (List.getElem?_eq_some_iff.mp hk).1
      simpa [ElementWrite.exists, validOne] using this),
    Txn.bind_ok (readWords_quiet (s := { s with image := Image.writeEach .hr writeRef.toNat values s.image }) hs .hr _ _
      hsize)]
  rfl

/-! ### What a run of writes leaves -/

theorem Image.wf_writeEach {α : Type} (target : Nat → α → ElementWrite) (vs : List α) : ∀ (a : Nat) (im : Image),
    im.wf = true → (Image.writeEach target a vs im).wf = true := by
  induction vs with
  | nil => exact fun _ _ h => h
  | cons v vs ih => exact fun a im h => ih (a + 1) _ (Image.wf_write im h _)

/-- The registers written hold their values, every other register holds its own. -/
theorem Image.word_writeEach_hr (vs : List U16) : ∀ (a : Nat) (im : Image), im.wf = true → ∀ b,
    (Image.writeEach .hr a vs im).word .hr b =
      if a ≤ b ∧ b < a + vs.length then vs.getD (b - a) 0 else im.word .hr b := by
  induction vs with
  | nil => intro a im _ b; simp [Image.writeEach]
  | cons v vs ih =>
    intro a im h b
    rw [Image.writeEach, ih (a + 1) _ (Image.wf_write im h _), Image.word_write_hr im h]
    by_cases hab : a = b
    · subst hab; simp
    · by_cases hb : a + 1 ≤ b
      · simp [hab, show a ≤ b by omega, hb, show b - a = (b - (a + 1)) + 1 by omega,
          show b < a + 1 + vs.length ↔ b < a + (vs.length + 1) by omega]
      · simp [hab, hb, show ¬ a ≤ b by omega]

/-- The coils written hold their values, every other coil holds its own. -/
theorem Image.bit_writeEach_coil (vs : List Bool) : ∀ (a : Nat) (im : Image), im.wf = true → ∀ b,
    (Image.writeEach .coil a vs im).bit .coil b =
      if a ≤ b ∧ b < a + vs.length then vs.getD (b - a) false else im.bit .coil b := by
  induction vs with
  | nil => intro a im _ b; simp [Image.writeEach]; omega
  | cons v vs ih =>
    intro a im h b
    rw [Image.writeEach, ih (a + 1) _ (Image.wf_write im h _), Image.bit_write_coil im h]
    by_cases hab : a = b
    · subst hab; simp
    · by_cases hb : a + 1 ≤ b
      · simp [hab, show a ≤ b by omega, hb, show b - a = (b - (a + 1)) + 1 by omega,
          show b < a + 1 + vs.length ↔ b < a + (vs.length + 1) by omega]
      · simp [hab, hb, show ¬ a ≤ b by omega]

/-- An element of a flat space that no write of the run is to keeps its value. -/
theorem Image.element_writeEach_flat {α : Type} (target : Nat → α → ElementWrite)
    (hflat : ∀ a v f r i x, target a v ≠ .file f r i x) (e : Element) (vs : List α) : ∀ (a : Nat) (im : Image),
    im.wf = true → (∀ k < vs.length, ∀ v, (target (a + k) v).element ≠ e) →
    (Image.writeEach target a vs im).element e = im.element e := by
  induction vs with
  | nil => exact fun _ _ _ _ => rfl
  | cons v vs ih =>
    intro a im h hne
    rw [Image.writeEach, ih (a + 1) _ (Image.wf_write im h _) fun k hk w => ?_,
      Image.element_write_flat im h _ e (by simpa using hne 0 (by simp) v) (hflat a v)]
    have := hne (k + 1) (by simpa using hk) w
    rwa [show a + (k + 1) = a + 1 + k by omega] at this

/-! ### The Extended family -/

theorem dispatchExceptionStatus_quiet (hs : s.schedule = []) :
    dispatchExceptionStatus s = .ok (.readExceptionStatus s.dev.exceptionStatus) s := by
  rw [dispatchExceptionStatus, Txn.bind_ok (sampleDevice_quiet s hs _)]
  rfl

theorem dispatchEventCounter_quiet (hs : s.schedule = []) :
    dispatchEventCounter s = .ok (.readCommEventCounter s.dev.commStatus s.dev.eventCount) s := by
  rw [dispatchEventCounter, Txn.bind_ok (sampleDevice_quiet s hs _), Txn.bind_ok (sampleDevice_quiet s hs _)]
  rfl

theorem dispatchEventLog_quiet (hs : s.schedule = []) :
    dispatchEventLog s =
      .ok (.readCommEventLog s.dev.commStatus s.dev.eventCount s.dev.messageCount s.dev.events) s := by
  rw [dispatchEventLog, Txn.bind_ok (sampleDevice_quiet s hs _), Txn.bind_ok (sampleDevice_quiet s hs _),
    Txn.bind_ok (sampleDevice_quiet s hs _), Txn.bind_ok (sampleDevice_quiet s hs _)]
  rfl

theorem dispatchSlaveID_quiet (hs : s.schedule = []) :
    dispatchSlaveID s = .ok (.reportSlaveID s.dev.slaveId s.dev.runStatus s.dev.deviceData) s := by
  rw [dispatchSlaveID, Txn.bind_ok (sampleDevice_quiet s hs _), Txn.bind_ok (sampleDevice_quiet s hs _),
    Txn.bind_ok (sampleDevice_quiet s hs _)]
  rfl

theorem readRecords_quiet (hs : s.schedule = []) (subs : List FileRead)
    (h : ∀ sub ∈ subs, checkFileRead s.cfg sub = none) :
    readRecords subs s = .ok (subs.map fun sub =>
      (List.range sub.wordCount.toNat).map fun k => s.image.fileWord sub.file.toNat sub.record.toNat k) s := by
  induction subs with
  | nil => rfl
  | cons sub rest ih =>
    have words : readEach (memReadFile sub.file.toNat sub.record.toNat) 0 sub.wordCount.toNat s =
        .ok ((List.range sub.wordCount.toNat).map fun k => s.image.fileWord sub.file.toNat sub.record.toNat (0 + k)) s :=
      readEach_quiet s _ 0 fun k hk => by
        rw [Nat.zero_add]
        exact memReadFile_quiet s hs _ _ _ (checkSub_exists (h sub (by simp)) hk)
    rw [readRecords, Txn.bind_ok words, Txn.bind_ok (ih fun x hx => h x (by simp [hx]))]
    simp [Txn.pure]

theorem dispatchReadFile_quiet (hs : s.schedule = []) (subs : List FileRead)
    (h : ∀ sub ∈ subs, checkFileRead s.cfg sub = none) (hl : fileReadTotal subs ≤ 255) :
    dispatchReadFile subs s = .ok (.readFileRecord (subs.map fun sub =>
      (List.range sub.wordCount.toNat).map fun k => s.image.fileWord sub.file.toNat sub.record.toNat k)) s := by
  rw [dispatchReadFile, Txn.bind_ok (checkEach_pass subs h), Txn.check_bind _ _ _ (decide_eq_true hl),
    Txn.bind_ok (readRecords_quiet hs subs h)]
  rfl

/-- The image after the writes of these sub-requests. -/
def Image.writeRecords : List FileWrite → Image → Image
  | [], im => im
  | sub :: rest, im =>
    Image.writeRecords rest (Image.writeEach (.file sub.file.toNat sub.record.toNat) 0 sub.data im)

theorem writeRecords_quiet (subs : List FileWrite) : ∀ s : State, s.schedule = [] →
    (∀ sub ∈ subs, checkFileWrite s.cfg sub = none) →
    Machine.writeRecords subs s = .ok () { s with image := Image.writeRecords subs s.image } := by
  induction subs with
  | nil => exact fun _ _ _ => rfl
  | cons sub rest ih =>
    intro s hs h
    rw [Machine.writeRecords, Txn.bind_ok (writeEach_quiet sub.data 0 s hs fun k v hk => by
        rw [Nat.zero_add]
        exact checkSub_exists (h sub (by simp)) (List.getElem?_eq_some_iff.mp hk).1),
      ih { s with image := Image.writeEach (.file sub.file.toNat sub.record.toNat) 0 sub.data s.image } hs
        fun x hx => h x (by simp [hx])]
    rfl

theorem dispatchWriteFile_quiet (hs : s.schedule = []) (subs : List FileWrite)
    (h : ∀ sub ∈ subs, checkFileWrite s.cfg sub = none) :
    dispatchWriteFile subs s = .ok (.writeFileRecord subs) { s with image := Image.writeRecords subs s.image } := by
  rw [dispatchWriteFile, Txn.bind_ok (checkEach_pass subs h), Txn.bind_ok (writeRecords_quiet subs s hs h)]
  rfl

theorem dispatchFifo_quiet (hs : s.schedule = []) (hv : validOne s.cfg.nHR reference.toNat = true)
    (hcap : (s.image.word .hr reference.toNat).toNat ≤ Config.maxFifo)
    (hr : validRead s.cfg.nHR (reference.toNat + 1) (s.image.word .hr reference.toNat).toNat = true) :
    dispatchFifo reference s = .ok (.readFIFOQueue
      ((List.range (s.image.word .hr reference.toNat).toNat).map fun k => s.image.word .hr (reference.toNat + 1 + k)))
      s := by
  have hsize := ((validRead_iff _ _ _).mp hr).2
  rw [dispatchFifo, Txn.readConfig_bind, Txn.check_bind _ _ _ hv,
    Txn.bind_ok (memReadWord_quiet s hs .hr _ ((validOne_iff _ _).mp hv)),
    Txn.check_bind _ _ _ (decide_eq_true hcap), Txn.check_bind _ _ _ hr,
    Txn.bind_ok (readWords_quiet hs .hr _ _ hsize)]
  rfl

/-! ### The answer -/

/-- A sub-request that passes its check has fields that may be encoded (R221, R226). -/
theorem checkFileWrite_legal {p : Params} {sub : FileWrite} (h : checkFileWrite p sub = none) :
    fileFieldsLegal sub.refType sub.record = true := by
  unfold checkFileWrite checkSub at h
  split at h
  · cases h
  split at h
  · cases h
  split at h
  · cases h
  · simp_all [fileFieldsLegal]

/-- A WriteFileRecord whose sub-requests pass their checks is echoed (R225). -/
theorem encodeResponse_writeFileRecord {p : Params} {subs : List FileWrite}
    (hwf : (Instr.writeFileRecord subs).wellFormed = true) (h : ∀ sub ∈ subs, checkFileWrite p sub = none) :
    encodeResponse (.writeFileRecord subs) = .ok (encode (.writeFileRecord subs)) := by
  have legal : (subs.all fun s => fileFieldsLegal s.refType s.record) = true :=
    List.all_eq_true.mpr fun s hs => checkFileWrite_legal (h s hs)
  simp only [Instr.wellFormed, Bool.and_eq_true] at hwf
  have ne : (!subs.isEmpty) = true := by cases subs <;> simp at hwf ⊢
  simp only [encodeResponse, legal, hwf, ne, constructRequire]
  rfl

/-- A dispatch that gives a response with an encoding: the whole next state. -/
theorem respond_answered {functionCode : Byte} {dispatch : Txn Response} {response : Response} {im : Image}
    {pdu : List Byte} (hs : s.schedule = []) (h : dispatch s = .ok response { s with image := im })
    (hpdu : encodeResponse response = .ok pdu) (hl : pdu.length ≤ 65534) :
    respond functionCode dispatch s = .next (s.answered im pdu) := by
  rw [respond_ok h]
  exact conclude_quiet response { s with image := im } hs pdu hpdu hl

/-- A dispatch that raises an exception: the whole next state. -/
theorem respond_trapped {functionCode : Byte} {dispatch : Txn Response} {kind : ExceptionKind} {pdu : List Byte}
    (hs : s.schedule = []) (h : dispatch s = .raised kind s) (hpdu : exceptionPdu functionCode kind.code = pdu) :
    respond functionCode dispatch s = .next (s.answered s.image pdu) := by
  rw [respond_raised h, takeException_quiet _ _ _ hs, hpdu]

end Sys2Proof.Machine
end

