-- ==== Sys2Proof/Laws/Answer.lean ====
section
/-! SUPPORT. What an instruction answers with: the response of its dispatch carries its function code, a response's PDU begins with
the response's code, and an outcome is a PDU under the header that was latched. -/

namespace Sys2Proof.Machine

/-- The first byte of a response's PDU (R95, R101). -/
def Response.code : Response → Byte
  | .readCoils _ _ => 0x01
  | .readInputDiscretes _ _ => 0x02
  | .readMultipleRegisters _ => 0x03
  | .readInputRegisters _ => 0x04
  | .writeCoil _ _ => 0x05
  | .writeSingleRegister _ _ => 0x06
  | .readExceptionStatus _ => 0x07
  | .readSerialDiagnostics _ _ => 0x08
  | .readCommEventCounter _ _ => 0x0B
  | .readCommEventLog _ _ _ _ => 0x0C
  | .writeMultipleCoils _ _ => 0x0F
  | .writeMultipleRegisters _ _ => 0x10
  | .reportSlaveID _ _ _ => 0x11
  | .readFileRecord _ => 0x14
  | .writeFileRecord _ => 0x15
  | .maskWriteRegister _ _ _ => 0x16
  | .readWriteMultiple _ => 0x17
  | .readFIFOQueue _ => 0x18
  | .readMEI _ _ _ _ _ _ => 0x2B
  | .exception functionCode _ => withExceptionBit functionCode
  | .unknown functionCode _ => functionCode

@[simp] theorem constructRequire_true (r : ConstructReason) : constructRequire true r = .ok () := rfl

theorem constructRequire_ok {b : Bool} {r : ConstructReason} {x : Unit} (h : constructRequire b r = .ok x) : b = true := by
  cases b with
  | false => simp [constructRequire] at h
  | true => rfl

/-- The PDU of a response begins with its code. -/
theorem encodeResponse_code {response : Response} {pdu : List Byte} (h : encodeResponse response = .ok pdu) :
    ∃ rest, pdu = response.code :: rest := by
  cases response
  all_goals
    simp only [encodeResponse, encodeBits, encodeWords] at h
    first
    | (cases h; exact ⟨_, rfl⟩)
    | (obtain ⟨_, -, h⟩ := bind_ok h; cases h; exact ⟨_, rfl⟩)
    | (obtain ⟨_, -, h⟩ := bind_ok h; obtain ⟨_, -, h⟩ := bind_ok h; cases h; exact ⟨_, rfl⟩)
    | (obtain ⟨_, -, h⟩ := bind_ok h; obtain ⟨_, -, h⟩ := bind_ok h; obtain ⟨_, -, h⟩ := bind_ok h; cases h; exact ⟨_, rfl⟩)

/-! ### The value of a part of a transaction -/

/-- Whatever value the part gives meets `p`. -/
def Txn.Gives {α : Type} (m : Txn α) (p : α → Prop) : Prop := ∀ s a t, m s = .ok a t → p a

theorem Txn.gives_pure {α : Type} {p : α → Prop} {a : α} (h : p a) : Txn.Gives (Txn.pure a) p := by
  intro s b t e
  cases e
  exact h

theorem Txn.gives_bind {α β : Type} {m : Txn α} {f : α → Txn β} {p : β → Prop} (h : ∀ a, Txn.Gives (f a) p) :
    Txn.Gives (Txn.bind m f) p := by
  intro s b t e
  unfold Txn.bind at e
  cases hm : m s with
  | ok a u => rw [hm] at e; exact h a u b t e
  | raised k u => rw [hm] at e; cases e
  | abandoned u => rw [hm] at e; cases e
  | fault r => rw [hm] at e; cases e

theorem Txn.gives_raise {α : Type} {p : α → Prop} {k : ExceptionKind} : Txn.Gives (Txn.raise k : Txn α) p := by
  intro s a t e
  cases e

/-- The response of an instruction's dispatch carries the instruction's function code. -/
theorem dispatchOf_code (i : Instr) : Txn.Gives (dispatchOf i) fun r => r.code = i.functionCode := by
  cases i
  case readMEI subCode fieldLevel fieldId =>
    refine Txn.gives_bind fun _ => Txn.gives_bind fun answer => ?_
    cases answer
    · exact Txn.gives_raise
    · exact Txn.gives_raise
    · exact Txn.gives_pure rfl
  all_goals
    simp only [dispatchOf, dispatchReadBits, dispatchReadWords, dispatchWriteCoil, dispatchWriteOne, dispatchWriteMany,
      dispatchMaskWrite, dispatchReadWrite, dispatchExceptionStatus, dispatchDiagnostics, dispatchEventCounter,
      dispatchEventLog, dispatchSlaveID, dispatchReadFile, dispatchWriteFile, dispatchFifo]
    repeat refine Txn.gives_bind fun _ => ?_
    exact Txn.gives_pure rfl

/-! ### The outcome -/

/-- Two PDUs under one header have different ADUs. -/
theorem aduOf_injective {h : Header} {a b : List Byte} (e : aduOf h a = aduOf h b) : a = b := by
  unfold aduOf at e
  split at e
  · simpa using e
  · simp only [bytes16, List.cons_append, List.nil_append, List.cons.injEq, true_and] at e
    exact e.2.2

/-- A command that ends has the outcome it ends with, unless a reset came first (R340). -/
theorem complete_outcome {result : Result} {s t : State} (h : complete result s = .next t) :
    t.outcome = some result ∨ t.outcome = none := by
  have stable : Stable (fun _ => True) fun s : State => s.outcome = none :=
    stable_of_events (fun _ _ _ _ _ => trivial) (fun _ _ _ _ _ => trivial) (fun _ _ _ _ => trivial) fun _ _ _ => rfl
  have ends := stable s trivial
  unfold complete at h
  cases ho : otherAgents s with
  | ok a u => rw [ho] at h; cases h; exact .inl rfl
  | raised k u => rw [ho] at h; cases h; exact .inl rfl
  | abandoned u => rw [ho] at h ends; cases h; exact .inr ends
  | fault r => rw [ho] at h; cases h

/-- What a concluded SERVE gives: nothing (a reset), a construct error, or the ADU of the response's PDU. -/
theorem conclude_outcome {response : Response} {s t : State} (h : conclude response s = .next t) :
    t.outcome = none ∨ (∃ reason, t.outcome = some (.constructError reason)) ∨
    ∃ pdu, encodeResponse response = .ok pdu ∧ pdu.length ≤ 65534 ∧
      t.outcome = some (.ok (.bytes (aduOf s.latches.header pdu))) := by
  unfold conclude at h
  cases he : encodeResponse response with
  | error reason =>
    rw [he] at h
    rcases complete_outcome h with h | h <;> simp [h]
  | ok pdu =>
    rw [he] at h
    by_cases hl : pdu.length ≤ 65534
    · simp only [emitPdu, encodeADU_ok _ _ hl, aduOf_responseHeader] at h
      rcases complete_outcome h with h | h
      · exact .inr (.inr ⟨pdu, rfl, hl, by simpa using h⟩)
      · exact .inl h
    · simp only [emitPdu, encodeADU, if_pos (show 65535 < 1 + pdu.length by omega)] at h
      rcases complete_outcome h with h | h <;> simp [h]

/-- What an instruction gives: nothing (a reset), a construct error, its exception's PDU if its dispatch raised one, or its
response's PDU. -/
theorem exec_outcome {i : Instr} {s t : State} (h : exec i s = .next t) :
    t.outcome = none ∨ (∃ reason, t.outcome = some (.constructError reason)) ∨
    (∃ kind u, dispatchOf i s = .raised kind u ∧
      t.outcome = some (.ok (.bytes (aduOf s.latches.header (exceptionPdu i.functionCode kind.code))))) ∨
    ∃ response u pdu, dispatchOf i s = .ok response u ∧ encodeResponse response = .ok pdu ∧ pdu.length ≤ 65534 ∧
      t.outcome = some (.ok (.bytes (aduOf s.latches.header pdu))) := by
  have followed : Followed s.cfg (fun t => t.cfg = s.cfg ∧ t.latches.header = s.latches.header) fun t => t.outcome = none :=
    ⟨fun _ h => h.1, stable_of_events (fun _ _ _ h _ => h) (fun _ _ _ h _ => h) (fun _ _ h _ => h) fun _ _ _ => rfl⟩
  have ends := dispatchOf_triple i followed.precise (fun _ _ h _ _ => h) s ⟨rfl, rfl⟩
  rw [exec_eq_respond, respond] at h
  cases hd : dispatchOf i s with
  | ok response u =>
    rw [hd] at h ends
    rcases conclude_outcome h with h | h | ⟨pdu, hp, hl, ho⟩
    · exact .inl h
    · exact .inr (.inl h)
    · exact .inr (.inr (.inr ⟨response, u, pdu, rfl, hp, hl, by rw [ho, ends.2]⟩))
  | raised kind u =>
    rw [hd] at h ends
    rcases conclude_outcome h with h | h | ⟨pdu, hp, hl, ho⟩
    · exact .inl h
    · exact .inr (.inl h)
    · rw [encodeResponse_exception] at hp
      cases hp
      exact .inr (.inr (.inl ⟨kind, u, rfl, by rw [ho, ends.2]⟩))
  | abandoned u => rw [hd] at h ends; cases h; exact .inl ends
  | fault r => rw [hd] at h; cases h

/-- A normal response is no exception response: its function code has bit 7 clear (R101). -/
theorem response_ne_exception {i : Instr} {response : Response} {pdu : List Byte} (code : Byte)
    (hcode : response.code = i.functionCode) (h : encodeResponse response = .ok pdu) :
    pdu ≠ exceptionPdu i.functionCode code := by
  obtain ⟨rest, rfl⟩ := encodeResponse_code h
  rw [hcode]
  intro e
  simp only [exceptionPdu, List.cons.injEq] at e
  cases i <;> simp [Instr.functionCode] at e

end Sys2Proof.Machine
end

