-- ==== Sys2Proof/Laws/PerInstr.lean ====
section
/-! SUPPORT. The family `WireForm`: every request's function code is in the table with bit 7 clear (R92, R99), and a well-formed
request's length can be read off its own bytes (R97). -/

namespace Sys2Proof.Laws.WireForm

open Sys2Proof Sys2Proof.Machine

/-- The statement of the family about one instruction. -/
def Statement (i : Instr) : Prop :=
  (createModbusRequest i.functionCode).isSome = true ∧ isException i.functionCode = false ∧
    (i.wellFormed = true → requestLength (encode i) = (encode i).length)

theorem readCoils (reference count : U16) : Statement (.readCoils reference count) := ⟨rfl, (by decide : isException 0x01 = false), fun _ => rfl⟩

theorem readInputDiscretes (reference count : U16) : Statement (.readInputDiscretes reference count) := ⟨rfl, (by decide : isException 0x02 = false), fun _ => rfl⟩

theorem readMultipleRegisters (reference count : U16) : Statement (.readMultipleRegisters reference count) := ⟨rfl, (by decide : isException 0x03 = false), fun _ => rfl⟩

theorem readInputRegisters (reference count : U16) : Statement (.readInputRegisters reference count) := ⟨rfl, (by decide : isException 0x04 = false), fun _ => rfl⟩

theorem writeCoil (reference value : U16) : Statement (.writeCoil reference value) := ⟨rfl, (by decide : isException 0x05 = false), fun _ => rfl⟩

theorem writeSingleRegister (reference value : U16) : Statement (.writeSingleRegister reference value) := ⟨rfl, (by decide : isException 0x06 = false), fun _ => rfl⟩

theorem readExceptionStatus : Statement .readExceptionStatus := ⟨rfl, (by decide : isException 0x07 = false), fun _ => rfl⟩

theorem readSerialDiagnostics (subFunction data : U16) : Statement (.readSerialDiagnostics subFunction data) := ⟨rfl, (by decide : isException 0x08 = false), fun _ => rfl⟩

theorem readCommEventCounter : Statement .readCommEventCounter := ⟨rfl, (by decide : isException 0x0B = false), fun _ => rfl⟩

theorem readCommEventLog : Statement .readCommEventLog := ⟨rfl, (by decide : isException 0x0C = false), fun _ => rfl⟩

theorem writeMultipleCoils (reference count : U16) (data : List Byte) : Statement (.writeMultipleCoils reference count data) := by
  refine ⟨rfl, (by decide : isException 0x0F = false), fun h => ?_⟩
  simp only [Instr.wellFormed, Bool.and_eq_true, decide_eq_true_eq] at h
  simp [encode, encodeBody, counted, requestLength, Instr.functionCode, bytes16, h.2]
  omega

theorem writeMultipleRegisters (reference : U16) (values : List U16) : Statement (.writeMultipleRegisters reference values) := by
  refine ⟨rfl, (by decide : isException 0x10 = false), fun h => ?_⟩
  simp only [Instr.wellFormed, decide_eq_true_eq] at h
  simp [encode, encodeBody, counted, requestLength, Instr.functionCode, bytes16, h]
  omega

theorem reportSlaveID : Statement .reportSlaveID := ⟨rfl, (by decide : isException 0x11 = false), fun _ => rfl⟩

theorem readFileRecord (subs : List FileRead) : Statement (.readFileRecord subs) := by
  refine ⟨rfl, (by decide : isException 0x14 = false), fun h => ?_⟩
  simp only [Instr.wellFormed, Bool.and_eq_true, decide_eq_true_eq] at h
  simp [encode, encodeBody, counted, requestLength, Instr.functionCode, h.2]
  omega

theorem writeFileRecord (subs : List FileWrite) : Statement (.writeFileRecord subs) := by
  refine ⟨rfl, (by decide : isException 0x15 = false), fun h => ?_⟩
  simp only [Instr.wellFormed, Bool.and_eq_true, decide_eq_true_eq] at h
  simp [encode, encodeBody, counted, requestLength, Instr.functionCode, h.2]
  omega

theorem maskWriteRegister (reference andMask orMask : U16) : Statement (.maskWriteRegister reference andMask orMask) := ⟨rfl, (by decide : isException 0x16 = false), fun _ => rfl⟩

theorem readWriteMultiple (readRef readCount writeRef : U16) (values : List U16) : Statement (.readWriteMultiple readRef readCount writeRef values) := by
  refine ⟨rfl, (by decide : isException 0x17 = false), fun h => ?_⟩
  simp only [Instr.wellFormed, decide_eq_true_eq] at h
  simp [encode, encodeBody, counted, requestLength, Instr.functionCode, bytes16, h]
  omega

theorem readFIFOQueue (reference : U16) : Statement (.readFIFOQueue reference) := ⟨rfl, (by decide : isException 0x18 = false), fun _ => rfl⟩

theorem readMEI (subCode fieldLevel fieldId : Byte) : Statement (.readMEI subCode fieldLevel fieldId) := ⟨rfl, (by decide : isException 0x2B = false), fun _ => rfl⟩

end Sys2Proof.Laws.WireForm
end

