-- ==== Sys2Proof/Laws/Refuse.lean ====
section
/-! SUPPORT. What the codec refuses, one lemma per primitive, format and counted list: where a decode is Truncated, Trailing or a
ByteCountMismatch (R11, R93, R98), and the sizes and layouts of counted lists as sums and concatenations. -/

namespace Sys2Proof

/-! ### Checks -/

@[simp] theorem error_bind {ε α β : Type} (e : ε) (f : α → Except ε β) : (Except.error e >>= f) = .error e := rfl

/-- A decode check decides between its error and what follows it. -/
theorem require_bind {α : Type} (holds : Bool) (r : DecodeReason) (next : Unit → Except DecodeReason α) :
    (require holds r >>= next) = if holds then next () else .error r := by
  cases holds <;> rfl

/-- The same with the check said as what it admits. -/
theorem require_bind_eq {α : Type} {holds : Bool} {admitted : Prop} [Decidable admitted] {r : DecodeReason}
    {next : Unit → Except DecodeReason α} {after : Except DecodeReason α} (check : holds = true ↔ admitted)
    (go : next () = after) : (require holds r >>= next) = if admitted then after else .error r := by
  rw [require_bind]
  by_cases h : admitted
  · rw [if_pos h, if_pos (check.mpr h), go]
  · rw [if_neg h, if_neg (fun hb => h (check.mp hb))]

/-! ### Primitives and formats -/

theorem u16_short {input : List Byte} (h : input.length < 2) : u16 input = .error .truncated := by
  match input, h with
  | [], _ => rfl
  | [_], _ => rfl

theorem bytes_short {n : Nat} {input : List Byte} (h : input.length < n) : bytes n input = .error .truncated := by
  simp [bytes, h]

/-- `bytes` on an input that is long enough. -/
theorem bytes_long {n : Nat} {input : List Byte} (h : n ≤ input.length) :
    bytes n input = .ok (input.take n, input.drop n) := by simp [bytes, h]

theorem atEnd_more {input : List Byte} (h : input ≠ []) : atEnd input = .error .trailing := by
  cases input with
  | nil => exact absurd rfl h
  | cons => rfl

/-- A body of at least two bytes is a word and the rest. -/
theorem exists_bytes16 {input : List Byte} (h : 2 ≤ input.length) : ∃ v rest, input = bytes16 v ++ rest := by
  rcases input with _ | ⟨hi, _ | ⟨lo, rest⟩⟩
  · simp at h
  · simp at h
  · exact ⟨be16 hi lo, rest, by simp⟩

/-- `F_RC` (R93) on a body of another length. -/
theorem decodeRC_short {body : List Byte} (h : body.length < 4) : decodeRC body = .error .truncated := by
  rcases body with _ | ⟨a, _ | ⟨b, _ | ⟨c, _ | ⟨d, rest⟩⟩⟩⟩ <;> first | rfl | (simp only [List.length_cons] at h; omega)

theorem decodeRC_long {body : List Byte} (h : 4 < body.length) : decodeRC body = .error .trailing := by
  rcases body with _ | ⟨a, _ | ⟨b, _ | ⟨c, _ | ⟨d, _ | ⟨e, rest⟩⟩⟩⟩⟩ <;> first | rfl | (simp only [List.length_cons, List.length_nil] at h; omega)

/-- `F_MW` (R93) on a body of another length. -/
theorem decodeMW_short {body : List Byte} (h : body.length < 6) : decodeMW body = .error .truncated := by
  rcases body with _ | ⟨a, _ | ⟨b, _ | ⟨c, _ | ⟨d, _ | ⟨e, _ | ⟨f, rest⟩⟩⟩⟩⟩⟩ <;> first | rfl | (simp only [List.length_cons] at h; omega)

theorem decodeMW_long {body : List Byte} (h : 6 < body.length) : decodeMW body = .error .trailing := by
  rcases body with _ | ⟨a, _ | ⟨b, _ | ⟨c, _ | ⟨d, _ | ⟨e, _ | ⟨f, _ | ⟨g, rest⟩⟩⟩⟩⟩⟩⟩ <;> first | rfl | (simp only [List.length_cons, List.length_nil] at h; omega)

@[simp] theorem decodeBC_nil : decodeBC [] = .error .truncated := rfl

/-- `F_BC` (R93) where the counted bytes are not all there. -/
theorem decodeBC_short {n : Byte} {data : List Byte} (h : data.length < n.toNat) :
    decodeBC (n :: data) = .error .truncated := by simp [decodeBC, bytes_short h]

/-- `F_BC` (R93) where the body goes on after the counted bytes. -/
theorem decodeBC_long {n : Byte} {data : List Byte} (h : n.toNat < data.length) :
    decodeBC (n :: data) = .error .trailing := by
  have : data.drop n.toNat ≠ [] := by simp [List.drop_eq_nil_iff]; omega
  simp [decodeBC, bytes_long (Nat.le_of_lt h), atEnd_more this]

/-- `F_RCB` (R93) fails as its counted part does, and where the two words are not there. -/
theorem decodeRCB_error {body : List Byte} {r : DecodeReason} (a b : U16) (h : decodeBC body = .error r) :
    decodeRCB (bytes16 a ++ (bytes16 b ++ body)) = .error r := by simp [decodeRCB, h]

theorem decodeRCB_short {body : List Byte} (h : body.length ≤ 4) : decodeRCB body = .error .truncated := by
  rcases body with _ | ⟨a, _ | ⟨b, _ | ⟨c, _ | ⟨d, _ | ⟨e, rest⟩⟩⟩⟩⟩ <;> first | rfl | (simp only [List.length_cons] at h; omega)

/-- A request of the table is what its own decode makes of the body (R261). -/
theorem decode_of_table {functionCode : Byte} {decodeBody : List Byte → Except DecodeReason Instr} (body : List Byte)
    (h : createModbusRequest functionCode = some decodeBody) :
    decode (functionCode :: body) = (decodeBody body).mapError .malformed := by
  simp only [decode, h]
  cases decodeBody body <;> rfl

/-! ### File sub-requests -/

/-- The byteCount of a WriteFileRecord as a sum (R226). -/
theorem fileWriteBytes_eq_sum (subs : List FileWrite) : fileWriteBytes subs = (subs.map fun x => 7 + 2 * x.data.length).sum := by
  induction subs with
  | nil => rfl
  | cons s rest ih => simp [fileWriteBytes, FileWrite.wireLength, ih]

/-- The sub-requests of a ReadFileRecord as a concatenation (R94). -/
theorem encodeFileReads_eq_flatMap (subs : List FileRead) : encodeFileReads subs =
    subs.flatMap fun x => x.refType :: (bytes16 x.file ++ bytes16 x.record ++ bytes16 x.wordCount) := by
  induction subs with
  | nil => rfl
  | cons s rest ih => simp [encodeFileReads, FileRead.encode, ih]

/-- The sub-requests of a WriteFileRecord as a concatenation (R94). -/
theorem encodeFileWrites_eq_flatMap (subs : List FileWrite) : encodeFileWrites subs =
    subs.flatMap fun x => x.refType :: (bytes16 x.file ++ bytes16 x.record ++ bytes16 (u16Field x.data.length) ++ bytesOf x.data) := by
  induction subs with
  | nil => rfl
  | cons s rest ih => simp [encodeFileWrites, FileWrite.encode, ih]

/-- A run of whole sub-requests is read (R220). -/
theorem exists_fileReads (n : Nat) : ∀ data : List Byte, data.length = 7 * n →
    ∃ subs, fileReads data = .ok subs ∧ subs.length = n := by
  induction n with
  | zero => intro data h; cases data with
    | nil => exact ⟨[], rfl, rfl⟩
    | cons => simp at h
  | succ n ih =>
    intro data h
    rcases data with _ | ⟨a, _ | ⟨f1, _ | ⟨f0, _ | ⟨r1, _ | ⟨r0, _ | ⟨w1, _ | ⟨w0, rest⟩⟩⟩⟩⟩⟩⟩
    all_goals simp only [List.length_cons, List.length_nil] at h
    all_goals try omega
    obtain ⟨subs, read, count⟩ := ih rest (by omega)
    exact ⟨_, by simp [fileReads, read]; rfl, by simp [count]⟩

/-- A run that is no multiple of 7 is a mismatch (R220). -/
theorem fileReads_error (n : Nat) : ∀ data : List Byte, data.length ≤ n → data.length % 7 ≠ 0 →
    fileReads data = .error .byteCountMismatch := by
  induction n with
  | zero => intro data h h7; exact absurd (by simp [Nat.le_zero.mp h]) h7
  | succ n ih =>
    intro data h h7
    rcases data with _ | ⟨a, _ | ⟨f1, _ | ⟨f0, _ | ⟨r1, _ | ⟨r0, _ | ⟨w1, _ | ⟨w0, rest⟩⟩⟩⟩⟩⟩⟩
    · exact absurd rfl h7
    all_goals try rfl
    simp only [List.length_cons] at h h7
    simp [fileReads, ih rest (by omega) (by omega)]

/-- WriteFileRecord's sub-requests are refused with one reason only (R225). -/
theorem fileWrites_error (fuel : Nat) : ∀ (data : List Byte) (r : DecodeReason), fileWrites fuel data = .error r →
    r = .byteCountMismatch := by
  induction fuel with
  | zero =>
    intro data r h
    cases data with
    | nil => simp [fileWrites] at h
    | cons => simp only [fileWrites] at h; cases h; rfl
  | succ fuel ih =>
    intro data r h
    rcases data with _ | ⟨a, _ | ⟨f1, _ | ⟨f0, _ | ⟨r1, _ | ⟨r0, _ | ⟨w1, _ | ⟨w0, rest⟩⟩⟩⟩⟩⟩⟩
    · cases h
    all_goals try (cases h; rfl)
    simp only [fileWrites, require_bind] at h
    split at h
    · cases read : fileWrites fuel (rest.drop (2 * (be16 w1 w0).toNat)) with
      | error e => rw [read] at h; cases h; exact ih _ _ read
      | ok v => rw [read] at h; cases h
    · cases h; rfl

/-- Counted bytes that are no run of whole sub-requests, or none at all, are a mismatch (R98, R225). -/
theorem decodeFileWrites_error {data : List Byte} (hl : data.length ≤ 255)
    (h : ∀ subs : List FileWrite, subs ≠ [] → data ≠ encodeFileWrites subs) :
    decodeFileWrites (counted data) = .error .byteCountMismatch := by
  cases result : decodeFileWrites (counted data) with
  | ok subs =>
    obtain ⟨same, -, some⟩ := decodeFileWrites_ok result
    refine absurd (List.cons.inj same).2 (h subs ?_)
    rintro rfl
    simp at some
  | error r =>
    simp only [decodeFileWrites, decodeBC_counted _ hl, ok_bind] at result
    cases read : fileWrites data.length data with
    | error e => rw [read] at result; cases result; rw [fileWrites_error _ _ _ read]
    | ok subs =>
      simp only [read, ok_bind, require_bind] at result
      split at result
      · cases result
      · cases result; rfl

namespace Machine

/-! ### The encoders' checks and lists -/

/-- A construct check decides between its error and what follows it (R273). -/
theorem constructRequire_bind {α : Type} (holds : Bool) (r : ConstructReason) (next : Unit → Except ConstructReason α) :
    (constructRequire holds r >>= next) = if holds then next () else .error r := by
  cases holds <;> rfl

/-- Comparing with a parameter without unfolding it inside the decision. -/
theorem decide_le_eq_false (a b : Nat) : decide (a ≤ b) = false ↔ b < a := by simp

/-- A two-valued field's check as what it refuses. -/
theorem two_valued_eq_false {α : Type} [DecidableEq α] (v a b : α) : (v == a || v == b) = false ↔ v ≠ a ∧ v ≠ b := by simp

/-- The same with the check said as what it refuses, which is how the rules say it. -/
theorem constructRequire_bind_eq {α : Type} {holds : Bool} {refused : Prop} [Decidable refused] {r : ConstructReason}
    {next : Unit → Except ConstructReason α} {after : Except ConstructReason α} (check : holds = false ↔ refused)
    (go : ¬ refused → next () = after) : (constructRequire holds r >>= next) = if refused then .error r else after := by
  cases holds with
  | false => rw [if_pos (check.mp rfl)]; rfl
  | true =>
    have fine : ¬ refused := fun h => by simpa using check.mpr h
    rw [if_neg fine, ← go fine]
    rfl

/-- The field checks of file sub-requests, as the rules say them (R222, R226). -/
theorem all_fileFieldsLegal {α : Type} (refType : α → Byte) (record : α → U16) (subs : List α) :
    (subs.all fun s => fileFieldsLegal (refType s) (record s)) =
      !decide (∃ x ∈ subs, refType x ≠ 6 ∨ 9999 < (record x).toNat) := by
  rw [Bool.eq_iff_iff]
  simp only [fileFieldsLegal, Config.fileRefType, List.all_eq_true, Bool.and_eq_true, beq_iff_eq, decide_eq_true_eq,
    Bool.not_eq_true', decide_eq_false_iff_not, not_exists, not_and, not_or, not_not, Nat.not_lt]
  rfl

/-- The sub-responses of a ReadFileRecord response as a concatenation (R220). -/
theorem encodeRecords_eq_flatMap (records : List (List U16)) :
    encodeRecords records = records.flatMap fun w => u8Field (1 + 2 * w.length) :: 0x06 :: bytesOf w := by
  induction records with
  | nil => rfl
  | cons w rest ih => simp [encodeRecords, encodeRecord, Config.fileRefType, ih]

/-- The byteCount of a ReadFileRecord response as a sum (R220). -/
theorem recordsTotal_eq_sum (records : List (List U16)) : recordsTotal records = (records.map fun w => 2 + 2 * w.length).sum := by
  induction records with
  | nil => rfl
  | cons w rest ih => simp [recordsTotal, ih]

@[simp] theorem encodeRecords_length (records : List (List U16)) : (encodeRecords records).length = recordsTotal records := by
  induction records with
  | nil => rfl
  | cons w rest ih => simp [encodeRecords, encodeRecord, recordsTotal, ih]; omega

/-- The fields of a ReadMEI response as a concatenation (R240). -/
theorem encodeMeiFields_eq_flatMap (fields : List MeiField) :
    encodeMeiFields fields = fields.flatMap fun f => f.id :: u8Field f.text.length :: f.text := by
  induction fields with
  | nil => rfl
  | cons f rest ih => simp [encodeMeiFields, ih]

/-! ### The counted lists of responses -/

/-- A normal response of the table is what its own decode makes of the body (R270). -/
theorem decodeResponse_of_table {functionCode : Byte} {decodeBody : List Byte → Except DecodeReason Response} (body : List Byte)
    (normal : isException functionCode = false) (h : createModbusResponse functionCode = some decodeBody) :
    decodeResponse (functionCode :: body) = decodeBody body := by
  simp [decodeResponse, normal, h]

/-- The words of a register response: the parity of the byte count first, then the counted bytes (R155). -/
theorem decodeWords_cons (n : Byte) (data : List Byte) : decodeWords (n :: data) =
    if n.toNat % 2 = 0 then (decodeBC (n :: data)).map wordsOf else .error .byteCountMismatch := by
  simp only [decodeWords, u8_cons, ok_bind, require_bind, decodeBC, beq_iff_eq]
  cases bytes n.toNat data with
  | error => rfl
  | ok v => cases h : atEnd v.2 <;> simp [h, Except.map]

theorem length_le_recordsTotal (records : List (List U16)) : records.length ≤ recordsTotal records := by
  induction records with
  | nil => exact Nat.le_refl _
  | cons w rest ih => simp only [recordsTotal, List.length_cons]; omega

/-- Whole sub-responses are read, and what follows them decides (R222). -/
theorem decodeRecords_append (records : List (List U16)) : ∀ (fuel : Nat) (rest : List Byte), records.length ≤ fuel →
    recordsTotal records ≤ 255 →
    decodeRecords fuel (encodeRecords records ++ rest) = (decodeRecords (fuel - records.length) rest).map (records ++ ·) := by
  induction records with
  | nil => intro fuel rest _ _; cases h : decodeRecords fuel rest <;> simp [encodeRecords, h, Except.map]
  | cons w records ih =>
    intro fuel rest hf ht
    simp only [recordsTotal] at ht
    obtain ⟨fuel, rfl⟩ : ∃ k, fuel = k + 1 := ⟨fuel - 1, by simp only [List.length_cons] at hf; omega⟩
    have size : (u8Field (1 + 2 * w.length)).toNat = 1 + 2 * w.length := u8Field_toNat _ (by omega)
    have step : 1 + 2 * w.length = (Config.fileRefType :: bytesOf w).length := by simp; omega
    have odd : (1 + 2 * w.length) % 2 = 1 := by omega
    simp only [encodeRecords, encodeRecord, List.cons_append, List.append_assoc, decodeRecords, size, odd, require_bind]
    rw [show Config.fileRefType :: (bytesOf w ++ (encodeRecords records ++ rest)) =
      (Config.fileRefType :: bytesOf w) ++ (encodeRecords records ++ rest) from rfl, step, List.take_left, List.drop_left,
      ih fuel rest (by simp only [List.length_cons] at hf; omega) (by omega)]
    have fewer : fuel + 1 - (records.length + 1) = fuel - records.length := by omega
    cases h : decodeRecords (fuel - records.length) rest <;>
      simp [fewer, h, Except.map]

/-- A sub-response whose length byte is even or counts past the end, or whose reference type is not 6, is refused (R222). -/
theorem decodeRecords_mismatch {fuel : Nat} {len : Byte} {rest : List Byte} (h : len.toNat % 2 = 0 ∨ rest.length < len.toNat) :
    decodeRecords fuel (len :: rest) = .error .byteCountMismatch := by
  cases fuel with
  | zero => rfl
  | succ fuel =>
    have : (len.toNat % 2 == 1 && decide (len.toNat ≤ rest.length)) = false := by
      rcases h with h | h
      · simp [h]
      · simp [Nat.not_le.mpr h]
    simp [decodeRecords, this, require_bind]

theorem decodeRecords_refType {fuel : Nat} {len : Byte} {rest : List Byte} (odd : len.toNat % 2 = 1)
    (fits : len.toNat ≤ rest.length) (other : rest.head? ≠ some 6) :
    decodeRecords (fuel + 1) (len :: rest) = .error .fieldValue := by
  cases rest with
  | nil => simp at fits; omega
  | cons x rest =>
    obtain ⟨n, hn⟩ : ∃ n, len.toNat = n + 1 := ⟨len.toNat - 1, by omega⟩
    have inside : n ≤ rest.length := by simp only [List.length_cons] at fits; omega
    have wrong : ¬ x = Config.fileRefType := by simpa [Config.fileRefType] using other
    rw [hn] at odd
    simp [decodeRecords, hn, odd, inside, require_bind, wrong]

/-- All the fields of a ReadMEI response are read, and what follows them is left (R241). -/
theorem decodeMeiFields_encode (fields : List MeiField) (rest : List Byte) (h : ∀ f ∈ fields, f.text.length ≤ 255) :
    decodeMeiFields fields.length (encodeMeiFields fields ++ rest) = .ok (fields, rest) := by
  induction fields with
  | nil => rfl
  | cons f fields ih =>
    have size : (u8Field f.text.length).toNat = f.text.length := u8Field_toNat _ (h f (by simp))
    have tail := ih fun g hg => h g (by simp [hg])
    simp [encodeMeiFields, decodeMeiFields, size, tail]

/-- Fields that break off are Truncated (R241). -/
theorem decodeMeiFields_short (fields : List MeiField) (h : ∀ f ∈ fields, f.text.length ≤ 255) :
    ∀ given missing : List Byte, missing ≠ [] → encodeMeiFields fields = given ++ missing →
    decodeMeiFields fields.length given = .error .truncated := by
  induction fields with
  | nil => intro given missing hm he; simp [encodeMeiFields] at he; exact absurd he.2 hm
  | cons f fields ih =>
    intro given missing hm he
    have size : (u8Field f.text.length).toNat = f.text.length := u8Field_toNat _ (h f (by simp))
    rcases given with _ | ⟨a, _ | ⟨b, given⟩⟩
    · rfl
    · rfl
    simp only [encodeMeiFields, List.cons_append, List.cons.injEq] at he
    obtain ⟨rfl, rfl, he⟩ := he
    simp only [List.length_cons, decodeMeiFields, u8_cons, ok_bind, size]
    rcases List.append_eq_append_iff.mp he with ⟨more, rfl, tail⟩ | ⟨less, ht, -⟩
    · simp [ih (fun g hg => h g (by simp [hg])) _ _ hm tail]
    · cases less with
      | nil =>
        simp only [List.append_nil] at ht
        subst ht
        rw [List.append_cancel_left_eq] at he
        simp [ih (fun g hg => h g (by simp [hg])) [] missing hm (by simpa using he)]
      | cons x less =>
        rw [bytes_short (by rw [ht]; simp)]
        rfl

end Machine

end Sys2Proof
end

