-- ==== Sys2Proof/Tests/Slice0.lean ====
section
/-! SUPPORT. The model's own tests. Expected values are those of spec/95_test_vectors.md and of the examples of the rules named, or
worked out by hand from the rule; none is the model's own answer. After them, one witness for the hypotheses of each obligation. -/

namespace Sys2Proof.Tests

open Sys2Proof Sys2Proof.Machine

-- One test after the other: each waits for the kernel, and as tasks of their own they would need a thread each.
set_option Elab.async false

/-! ## A small state and what a step leaves -/

/-- CFG-S of 95_test_vectors.md, with the two files of two records of four registers that the file tests need. -/
def small : Params :=
  { Params.reset with nDI := 16, nCOIL := 64, nIR := 16, nHR := 10, files := [⟨2, [⟨2, 4⟩]⟩] }

/-- A state of this configuration with these elements, no other agent active. -/
def start (writes : List ElementWrite) (commands : List Command) : State :=
  { State.reset with cfg := small, commands := commands, image := writes.foldl Image.write State.reset.image }

/-- The next state, if there is one. -/
def nextOf : Host.Outcome State Fault Refusal → Option State
  | .next t => some t
  | .fault _ => none
  | .refused _ => none

/-- The outcome in the next state. -/
def outcomeOf (o : Host.Outcome State Fault Refusal) : Option Result := (nextOf o).bind State.outcome

/-- A register of the next state. -/
def hrOf (o : Host.Outcome State Fault Refusal) (a : Nat) : Option U16 := (nextOf o).map fun t => t.image.word .hr a

/-- A coil of the next state. -/
def coilOf (o : Host.Outcome State Fault Refusal) (a : Nat) : Option Bool := (nextOf o).map fun t => t.image.bit .coil a

/-- The answer of a SERVE to unit 1, headless: the vectors' convention. -/
def answer (pdu : List Byte) : Option Result := some (.ok (.bytes (0x01 :: pdu)))

/-- A step that serves this PDU. -/
def serveStep (writes : List ElementWrite) (pdu : List Byte) : Host.Outcome State Fault Refusal :=
  step (start writes [.serve true (0x01 :: pdu)])

theorem next_of_isSome {o : Host.Outcome State Fault Refusal} (h : (nextOf o).isSome = true) : ∃ t, o = .next t := by
  cases o with
  | next t => exact ⟨t, rfl⟩
  | fault r => cases h
  | refused r => cases h

/-! ## WellFormed: each check refuses an ill-formed term -/

theorem test_wf_coils_count : (Instr.writeMultipleCoils 0 10 [0xCD]).wellFormed = false := by decide
theorem test_wf_coils_length : (Instr.writeMultipleCoils 0 2048 (List.replicate 256 0)).wellFormed = false := by
  decide +kernel
theorem test_wf_registers_length : (Instr.writeMultipleRegisters 0 (List.replicate 128 0)).wellFormed = false := by
  decide +kernel
theorem test_wf_readFile_empty : (Instr.readFileRecord []).wellFormed = false := by decide
theorem test_wf_readFile_length : (Instr.readFileRecord (List.replicate 37 ⟨6, 0, 0, 0⟩)).wellFormed = false := by
  decide +kernel
theorem test_wf_writeFile_empty : (Instr.writeFileRecord []).wellFormed = false := by decide
theorem test_wf_writeFile_length : (Instr.writeFileRecord [⟨6, 0, 0, List.replicate 125 0⟩]).wellFormed = false := by
  decide +kernel
theorem test_wf_readWrite_length : (Instr.readWriteMultiple 0 0 0 (List.replicate 128 0)).wellFormed = false := by
  decide +kernel

/-! ## Decoding: one PDU of each request written out from the layouts of R94 -/

/-- L1-6. -/
theorem test_decode_readCoils : decode [0x01, 0x00, 0x13, 0x00, 0x13] = .ok (.readCoils 19 19) := by decide
/-- V-R11. -/
theorem test_decode_readInputDiscretes : decode [0x02, 0x00, 0x10, 0x00, 0x01] = .ok (.readInputDiscretes 16 1) := by
  decide
/-- R138. -/
theorem test_decode_readMultipleRegisters :
    decode [0x03, 0x00, 0x6B, 0x00, 0x03] = .ok (.readMultipleRegisters 107 3) := by decide
/-- V-R15. -/
theorem test_decode_readInputRegisters : decode [0x04, 0x00, 0x0F, 0x00, 0x02] = .ok (.readInputRegisters 15 2) := by
  decide
/-- P3. -/
theorem test_decode_writeCoil : decode [0x05, 0x00, 0x3F, 0xFF, 0x00] = .ok (.writeCoil 63 0xFF00) := by decide
/-- P2. -/
theorem test_decode_writeSingleRegister :
    decode [0x06, 0x00, 0x04, 0x12, 0x34] = .ok (.writeSingleRegister 4 0x1234) := by decide
/-- V-E1. -/
theorem test_decode_readExceptionStatus : decode [0x07] = .ok .readExceptionStatus := by decide
/-- V-E3. -/
theorem test_decode_readSerialDiagnostics :
    decode [0x08, 0x00, 0x01, 0xFF, 0x00] = .ok (.readSerialDiagnostics 1 0xFF00) := by decide
/-- V-E5. -/
theorem test_decode_readCommEventCounter : decode [0x0B] = .ok .readCommEventCounter := by decide
/-- V-E6. -/
theorem test_decode_readCommEventLog : decode [0x0C] = .ok .readCommEventLog := by decide
/-- V-X1. -/
theorem test_decode_writeMultipleCoils :
    decode [0x0F, 0x00, 0x13, 0x00, 0x0A, 0x02, 0xCD, 0x01] = .ok (.writeMultipleCoils 19 10 [0xCD, 0x01]) := by decide
/-- P1. -/
theorem test_decode_writeMultipleRegisters :
    decode [0x10, 0x00, 0x64, 0x00, 0x03, 0x06, 0x00, 0x01, 0x00, 0x02, 0x00, 0x03] =
      .ok (.writeMultipleRegisters 100 [1, 2, 3]) := by decide
/-- V-E8. -/
theorem test_decode_reportSlaveID : decode [0x11] = .ok .reportSlaveID := by decide
/-- 43_extended.md R220, the example. -/
theorem test_decode_readFileRecord :
    decode [0x14, 0x0E, 0x06, 0x00, 0x04, 0x00, 0x01, 0x00, 0x02, 0x06, 0x00, 0x03, 0x00, 0x09, 0x00, 0x02] =
      .ok (.readFileRecord [⟨6, 4, 1, 2⟩, ⟨6, 3, 9, 2⟩]) := by decide
/-- P5, step 1. -/
theorem test_decode_writeFileRecord :
    decode [0x15, 0x0D, 0x06, 0x00, 0x04, 0x00, 0x07, 0x00, 0x03, 0x06, 0xAF, 0x04, 0xBE, 0x10, 0x0D] =
      .ok (.writeFileRecord [⟨6, 4, 7, [0x06AF, 0x04BE, 0x100D]⟩]) := by decide
/-- L1-3. -/
theorem test_decode_maskWriteRegister :
    decode [0x16, 0x00, 0x04, 0xFF, 0x00, 0x00, 0xFF] = .ok (.maskWriteRegister 4 0xFF00 0x00FF) := by decide
/-- P4, step 5. -/
theorem test_decode_readWriteMultiple :
    decode [0x17, 0x00, 0x00, 0x00, 0x02, 0x00, 0x09, 0x00, 0x02, 0x04, 0x00, 0x01, 0x00, 0x02] =
      .ok (.readWriteMultiple 0 2 9 [1, 2]) := by decide
/-- L1-4. -/
theorem test_decode_readFIFOQueue : decode [0x18, 0x01, 0x00] = .ok (.readFIFOQueue 0x0100) := by decide
/-- V-E28. -/
theorem test_decode_readMEI : decode [0x2B, 0x0D, 0x01, 0x00] = .ok (.readMEI 0x0D 1 0) := by decide

/-- V-W9: the byte count disagrees with the count. -/
theorem test_decode_byteCount : decode [0x0F, 0x00, 0x13, 0x00, 0x0A, 0x01, 0xCD] =
    .error (.malformed .byteCountMismatch) := by decide
/-- V-W15: an announced byte run is not there. -/
theorem test_decode_truncated : decode [0x10, 0x00, 0x00, 0x00, 0x02, 0x04, 0x00, 0x01] =
    .error (.malformed .truncated) := by decide
/-- V-R17. -/
theorem test_decode_trailing : decode [0x03, 0x00, 0x00, 0x00, 0x01, 0x00] = .error (.malformed .trailing) := by decide
/-- V-D2, V-D3: neither 0x09 nor 0x81 is a function code. -/
theorem test_decode_illegal : decode [0x09, 0x01, 0x02] = .error (.illegalFunction 0x09) ∧
    decode [0x81, 0x00, 0x00] = .error (.illegalFunction 0x81) := by decide
/-- V-E19: the second sub-request announces more words than are there. -/
theorem test_decode_subRequest : decode [0x15, 0x12, 0x06, 0x00, 0x01, 0x00, 0x00, 0x00, 0x01, 0x22, 0x22, 0x06, 0x00, 0x01,
    0x00, 0x00, 0x00, 0xC9, 0x00, 0x00] = .error (.malformed .byteCountMismatch) := by decide
/-- A table word whose bits are only the function code: the first byte is bits 7 to 0. -/
theorem test_tableWord : decodeTableWord 8 0x03 = some (.readMultipleRegisters 0 0) ∧
    decodeTableWord 24 0x050118 = some (.readFIFOQueue 0x0105) := by decide

/-! ## One step of each instruction -/

/-- V-R8: the packed byte of coils 60 to 63, the padding 0. -/
theorem test_readCoils :
    outcomeOf (serveStep [.coil 60 true, .coil 63 true] [0x01, 0x00, 0x3C, 0x00, 0x04]) = answer [0x01, 0x01, 0x09] := by
  decide +kernel
/-- V-R7: past the last coil. -/
theorem test_readCoils_range : outcomeOf (serveStep [] [0x01, 0x00, 0x3C, 0x00, 0x05]) = answer [0x81, 0x02] := by
  decide +kernel
/-- V-R9: nine inputs take two bytes. -/
theorem test_readInputDiscretes :
    outcomeOf (serveStep [.di 0 true, .di 1 true, .di 4 true, .di 6 true, .di 7 true, .di 8 true]
      [0x02, 0x00, 0x00, 0x00, 0x09]) = answer [0x02, 0x02, 0xD3, 0x01] := by decide +kernel
/-- V-R10: an empty range at the end of the space passes. -/
theorem test_readInputDiscretes_empty : outcomeOf (serveStep [] [0x02, 0x00, 0x10, 0x00, 0x00]) = answer [0x02, 0x00] := by
  decide +kernel
/-- P4, step 7: three registers, big-endian, ascending. -/
theorem test_readMultipleRegisters :
    outcomeOf (serveStep [.hr 5 0x0020, .hr 6 0x0007, .hr 7 0x5555] [0x03, 0x00, 0x05, 0x00, 0x03]) =
      answer [0x03, 0x06, 0x00, 0x20, 0x00, 0x07, 0x55, 0x55] := by decide +kernel
/-- V-R13: the count is above MAX_READ_REGS, checked before the range. -/
theorem test_readMultipleRegisters_cap : outcomeOf (serveStep [] [0x03, 0x00, 0x00, 0x00, 0x7E]) = answer [0x83, 0x03] := by
  decide +kernel
/-- V-R14. -/
theorem test_readInputRegisters :
    outcomeOf (serveStep [.ir 0 0x8000, .ir 1 0xFFFF] [0x04, 0x00, 0x00, 0x00, 0x02]) =
      answer [0x04, 0x04, 0x80, 0x00, 0xFF, 0xFF] := by decide +kernel
/-- V-R15. -/
theorem test_readInputRegisters_range : outcomeOf (serveStep [] [0x04, 0x00, 0x0F, 0x00, 0x02]) = answer [0x84, 0x02] := by
  decide +kernel
/-- P3, step 4. -/
theorem test_writeCoil : outcomeOf (serveStep [] [0x05, 0x00, 0x3F, 0xFF, 0x00]) = answer [0x05, 0x00, 0x3F, 0xFF, 0x00] ∧
    coilOf (serveStep [] [0x05, 0x00, 0x3F, 0xFF, 0x00]) 63 = some true := by decide +kernel
/-- V-W4: the value is checked before the reference. -/
theorem test_writeCoil_value : outcomeOf (serveStep [] [0x05, 0x00, 0x40, 0x12, 0x34]) = answer [0x85, 0x03] := by
  decide +kernel
/-- V-W7: the last register. -/
theorem test_writeSingleRegister : hrOf (serveStep [] [0x06, 0x00, 0x09, 0xFF, 0xFF]) 9 = some 0xFFFF := by decide +kernel
/-- V-W6: past the last register. -/
theorem test_writeSingleRegister_range : outcomeOf (serveStep [] [0x06, 0x00, 0x0A, 0x00, 0x01]) = answer [0x86, 0x02] := by
  decide +kernel
/-- V-D11, headless: the status input as it stands. -/
theorem test_readExceptionStatus :
    outcomeOf (step { start [] [.serve true [0x05, 0x07]] with dev := { Device.reset with exceptionStatus := 0x6D } }) =
      some (.ok (.bytes [0x05, 0x07, 0x6D])) := by decide +kernel
/-- V-E3: the identity handler. -/
theorem test_readSerialDiagnostics :
    outcomeOf (serveStep [] [0x08, 0x00, 0x01, 0xFF, 0x00]) = answer [0x08, 0x00, 0x01, 0xFF, 0x00] := by decide +kernel
/-- R205: a handler that is not the identity answers with its own fields. -/
theorem test_readSerialDiagnostics_handler :
    outcomeOf (step { start [] [.serve true [0x01, 0x08, 0x00, 0x02, 0x00, 0x00]] with
      cfg := { small with diagRows := [⟨2, 0, 2, 0x1234⟩] } }) = answer [0x08, 0x00, 0x02, 0x12, 0x34] := by decide +kernel
/-- R210: status, then the event count. -/
theorem test_readCommEventCounter :
    outcomeOf (step { start [] [.serve true [0x01, 0x0B]] with
      dev := { Device.reset with commStatus := 0xFFFF, eventCount := 0x0108 } }) =
      answer [0x0B, 0xFF, 0xFF, 0x01, 0x08] := by decide +kernel
/-- V-E6 with two event bytes: byteCount 8. -/
theorem test_readCommEventLog :
    outcomeOf (step { start [] [.serve true [0x01, 0x0C]] with
      dev := { Device.reset with commStatus := 0xFFFF, eventCount := 3, messageCount := 0x0A, events := [0x20, 0x00] } }) =
      answer [0x0C, 0x08, 0xFF, 0xFF, 0x00, 0x03, 0x00, 0x0A, 0x20, 0x00] := by decide +kernel
/-- V-W10: the padding bits are ignored. -/
theorem test_writeMultipleCoils :
    outcomeOf (serveStep [] [0x0F, 0x00, 0x00, 0x00, 0x03, 0x01, 0xFF]) = answer [0x0F, 0x00, 0x00, 0x00, 0x03] ∧
    coilOf (serveStep [] [0x0F, 0x00, 0x00, 0x00, 0x03, 0x01, 0xFF]) 2 = some true ∧
    coilOf (serveStep [] [0x0F, 0x00, 0x00, 0x00, 0x03, 0x01, 0xFF]) 3 = some false := by decide +kernel
/-- V-W11: nothing is written where the range fails. -/
theorem test_writeMultipleCoils_range :
    outcomeOf (serveStep [] [0x0F, 0x00, 0x3C, 0x00, 0x05, 0x01, 0x1F]) = answer [0x8F, 0x02] ∧
    coilOf (serveStep [] [0x0F, 0x00, 0x3C, 0x00, 0x05, 0x01, 0x1F]) 60 = some false := by decide +kernel
/-- P4, step 1. -/
theorem test_writeMultipleRegisters :
    outcomeOf (serveStep [] [0x10, 0x00, 0x05, 0x00, 0x03, 0x06, 0x00, 0x02, 0xAA, 0xAA, 0x55, 0x55]) =
      answer [0x10, 0x00, 0x05, 0x00, 0x03] ∧
    hrOf (serveStep [] [0x10, 0x00, 0x05, 0x00, 0x03, 0x06, 0x00, 0x02, 0xAA, 0xAA, 0x55, 0x55]) 6 = some 0xAAAA := by
  decide +kernel
/-- V-W16. -/
theorem test_writeMultipleRegisters_range :
    outcomeOf (serveStep [] [0x10, 0x00, 0x08, 0x00, 0x03, 0x06, 0x00, 0x01, 0x00, 0x02, 0x00, 0x03]) =
      answer [0x90, 0x02] := by decide +kernel
/-- V-E8 with device data. -/
theorem test_reportSlaveID :
    outcomeOf (step { start [] [.serve true [0x01, 0x11]] with
      dev := { Device.reset with slaveId := 0x11, runStatus := 0xFF, deviceData := [0x41] } }) =
      answer [0x11, 0x03, 0x11, 0xFF, 0x41] := by decide +kernel
/-- The example of R220, with the file numbers of the small file table. -/
theorem test_readFileRecord :
    outcomeOf (serveStep [.file 1 1 0 0x0DFE, .file 1 1 1 0x0020, .file 0 1 0 0x33CD, .file 0 1 1 0x0040]
      [0x14, 0x0E, 0x06, 0x00, 0x01, 0x00, 0x01, 0x00, 0x02, 0x06, 0x00, 0x00, 0x00, 0x01, 0x00, 0x02]) =
      answer [0x14, 0x0C, 0x05, 0x06, 0x0D, 0xFE, 0x00, 0x20, 0x05, 0x06, 0x33, 0xCD, 0x00, 0x40] := by decide +kernel
/-- V-E18: the first sub-request fails first, whatever the second is. -/
theorem test_readFileRecord_first :
    outcomeOf (serveStep [] [0x14, 0x0E, 0x06, 0x00, 0x14, 0x00, 0x00, 0x00, 0x01, 0x07, 0x00, 0x01, 0x00, 0x00, 0x00, 0x01]) =
      answer [0x94, 0x02] := by decide +kernel
/-- V-E22, with file 1, record 1: the later sub-request wins. -/
theorem test_writeFileRecord :
    (nextOf (serveStep [] [0x15, 0x12, 0x06, 0x00, 0x01, 0x00, 0x01, 0x00, 0x01, 0xAA, 0xAA, 0x06, 0x00, 0x01, 0x00, 0x01, 0x00,
      0x01, 0xBB, 0xBB])).map (fun t => t.image.fileWord 1 1 0) = some 0xBBBB := by decide +kernel
/-- V-E20: nothing is written where a later sub-request fails. -/
theorem test_writeFileRecord_first :
    (nextOf (serveStep [.file 1 0 0 0x1111] [0x15, 0x12, 0x06, 0x00, 0x01, 0x00, 0x00, 0x00, 0x01, 0x22, 0x22, 0x06, 0x00, 0x0A,
      0x00, 0x00, 0x00, 0x01, 0x33, 0x33])).map (fun t => (t.image.fileWord 1 0 0, t.outcome)) =
      some (0x1111, answer [0x95, 0x02]) := by decide +kernel
/-- V-W20: (0x12 & 0xF2) | (0x25 & 0xFF0D). -/
theorem test_maskWriteRegister : hrOf (serveStep [.hr 0 0x0012] [0x16, 0x00, 0x00, 0x00, 0xF2, 0x00, 0x25]) 0 = some 0x0017 := by
  decide +kernel
/-- V-W21. -/
theorem test_maskWriteRegister_range :
    outcomeOf (serveStep [] [0x16, 0x00, 0x0A, 0xFF, 0x00, 0x00, 0xFF]) = answer [0x96, 0x02] := by decide +kernel
/-- V-W25: the read sees the write. -/
theorem test_readWriteMultiple :
    outcomeOf (serveStep [] [0x17, 0x00, 0x00, 0x00, 0x02, 0x00, 0x01, 0x00, 0x01, 0x02, 0xAB, 0xCD]) =
      answer [0x17, 0x04, 0x00, 0x00, 0xAB, 0xCD] := by decide +kernel
/-- V-W24: the write range fails, nothing is written. -/
theorem test_readWriteMultiple_range :
    outcomeOf (serveStep [] [0x17, 0x00, 0x00, 0x00, 0x01, 0x00, 0x09, 0x00, 0x02, 0x04, 0x00, 0x01, 0x00, 0x02]) =
      answer [0x97, 0x02] ∧
    hrOf (serveStep [] [0x17, 0x00, 0x00, 0x00, 0x01, 0x00, 0x09, 0x00, 0x02, 0x04, 0x00, 0x01, 0x00, 0x02]) 9 = some 0 := by
  decide +kernel
/-- P4, step 2. -/
theorem test_readFIFOQueue :
    outcomeOf (serveStep [.hr 5 2, .hr 6 0xAAAA, .hr 7 0x5555] [0x18, 0x00, 0x05]) =
      answer [0x18, 0x00, 0x06, 0x00, 0x02, 0xAA, 0xAA, 0x55, 0x55] := by decide +kernel
/-- L1-4, at register 5: a count of 32 is an illegal value. -/
theorem test_readFIFOQueue_count : outcomeOf (serveStep [.hr 5 32] [0x18, 0x00, 0x05]) = answer [0x98, 0x03] := by
  decide +kernel
/-- V-X3 as an answer of MEI_TABLE. -/
theorem test_readMEI :
    outcomeOf (step { start [] [.serve true [0x01, 0x2B, 0x0E, 0x01, 0x00]] with
      cfg := { small with meiRows := [⟨1, 0, .objects 0x01 0x00 0x00 [⟨0x00, [0x4F, 0x47]⟩, ⟨0x01, [0x4D, 0x31]⟩]⟩] } }) =
      answer [0x2B, 0x0E, 0x01, 0x01, 0x00, 0x00, 0x02, 0x00, 0x02, 0x4F, 0x47, 0x01, 0x02, 0x4D, 0x31] := by decide +kernel
/-- V-E28: another sub-code is an illegal function. -/
theorem test_readMEI_subCode : outcomeOf (serveStep [] [0x2B, 0x0D, 0x01, 0x00]) = answer [0xAB, 0x01] := by decide +kernel

/-! ## The other commands, the header and the other agents -/

/-- V-D10: a framed SERVE; the response's length is its own. -/
theorem test_framed :
    outcomeOf (step { start [.hr 1 0x022B, .hr 3 0x0064]
        [.serve false [0x00, 0x01, 0x00, 0x00, 0x00, 0x06, 0x11, 0x03, 0x00, 0x01, 0x00, 0x03]] with outcome := none }) =
      some (.ok (.bytes [0x00, 0x01, 0x00, 0x00, 0x00, 0x09, 0x11, 0x03, 0x06, 0x02, 0x2B, 0x00, 0x00, 0x00, 0x64])) := by
  decide +kernel
/-- V-D8, V-D9. -/
theorem test_framed_length :
    outcomeOf (step (start [] [.serve false [0x00, 0x01, 0x00, 0x00, 0x00, 0x02, 0x11]])) = some (.decodeError .lengthMismatch) ∧
    outcomeOf (step (start [] [.serve false [0x00, 0x01, 0x00, 0x00, 0x00, 0x01, 0x11]])) = some (.decodeError .truncated) := by
  decide +kernel
/-- V-D19. -/
theorem test_decReq :
    outcomeOf (step (start [] [.decReq true [0x11, 0x03, 0x00, 0x6B, 0x00, 0x03]])) =
      some (.ok (.request ⟨.headless, 0x11, 0x03⟩ (.instr (.readMultipleRegisters 107 3)))) := by decide +kernel
/-- V-D18. -/
theorem test_encReq :
    outcomeOf (step (start [] [.encReq false ⟨1, 0, 0x11, 0, false⟩ (.readMultipleRegisters 107 3)])) =
      some (.ok (.bytes [0x00, 0x01, 0x00, 0x00, 0x00, 0x06, 0x11, 0x03, 0x00, 0x6B, 0x00, 0x03])) := by decide +kernel
/-- V-D17, V-E31. -/
theorem test_encRsp :
    outcomeOf (step (start [] [.encRsp true ⟨0, 0, 1, 0, true⟩ (.exception 0x83 2)])) = some (.constructError .fieldValue) ∧
    outcomeOf (step (start [] [.encRsp true ⟨0, 0, 1, 0, true⟩ (.readCommEventCounter 0x1234 0)])) =
      some (.constructError .fieldValue) := by decide +kernel
/-- V-D13, V-D16. -/
theorem test_decRsp :
    outcomeOf (step (start [] [.decRsp true [0x01, 0xC5, 0x07]])) =
      some (.ok (.response ⟨.headless, 0x01, 0xC5⟩ (.exception 0x45 7))) ∧
    outcomeOf (step (start [] [.decRsp true [0x01, 0x09, 0x01, 0x02]])) =
      some (.ok (.response ⟨.headless, 0x01, 0x09⟩ (.unknown 0x09 [0x01, 0x02]))) := by decide +kernel
/-- V-X4 and V-E36. -/
theorem test_decodeResponse : decodeResponse [0x18, 0x00, 0x06, 0x00, 0x02, 0x01, 0xB8, 0x12, 0x84] =
      .ok (.readFIFOQueue [0x01B8, 0x1284]) ∧
    decodeResponse [0x18, 0x00, 0x04, 0x00, 0x02, 0x00, 0x01] = .error .byteCountMismatch := by decide +kernel
/-- R345, R346: a write between the read and the write of a mask write is lost. -/
theorem test_interleaving :
    hrOf (step { start [.hr 4 0x1234] [.serve true [0x01, 0x16, 0x00, 0x04, 0xFF, 0x00, 0x00, 0xFF]] with
      schedule := [[], [.write .application (.hr 4 0xAAAA)]] }) 4 = some 0x12FF := by decide +kernel
/-- R36: a write that another engine's function codes cannot make does not happen. -/
theorem test_engine_never_writes_inputs :
    outcomeOf (step { start [.ir 0 1] [.serve true [0x01, 0x04, 0x00, 0x00, 0x00, 0x01]] with
      cfg := { small with nEngines := 2 }, schedule := [[.write (.engine 1) (.ir 0 0xAAAA)]] }) =
      answer [0x04, 0x02, 0x00, 0x01] := by decide +kernel
/-- R340: a reset before the second write leaves the first and gives no outcome. -/
theorem test_reset_event :
    (nextOf (step { start [] [.serve true [0x01, 0x10, 0x00, 0x00, 0x00, 0x02, 0x04, 0x00, 0x01, 0x00, 0x02]] with
      schedule := [[], [.reset]] })).map (fun t => (t.image.word .hr 0, t.image.word .hr 1, t.outcome)) =
      some (1, 0, none) := by decide +kernel
/-- A write of the blank value takes the element off the list. -/
theorem test_memory_canonical : Memory.write [(3, (5 : U16)), (7, 1)] 3 0 = [(7, 1)] ∧
    Memory.wf [(3, (0 : U16))] = false ∧ Memory.wf [(7, (1 : U16)), (3, 1)] = false := by decide

/-! ## Witnesses: for each obligation, concrete values that meet its hypotheses, each clause at a boundary -/

/-- A state in the invariant, with elements in every space. -/
def rich : State := start [.di 0 true, .coil 63 true, .ir 15 7, .hr 0 0x1234, .hr 9 2, .file 1 1 3 9] []

theorem witness_DecodeOfEncode : (Instr.writeFileRecord [⟨6, 0, 0, List.replicate 124 0⟩]).wellFormed = true ∧
    (Instr.readFileRecord (List.replicate 36 ⟨6, 0, 0, 0⟩)).wellFormed = true ∧
    (Instr.writeMultipleCoils 0 2040 (List.replicate 255 0)).wellFormed = true ∧
    (Instr.writeMultipleRegisters 0 (List.replicate 127 0)).wellFormed = true := by decide +kernel

theorem witness_EncodeOfDecode : ∃ pdu i, decode pdu = .ok i := ⟨_, _, test_decode_writeFileRecord⟩

theorem witness_BooleansArePackedLsbFirst : ∃ (b : List Bool) (n j k : Nat),
    n = packedLength b.length ∧ j < n ∧ k < 8 ∧ 8 * j + k = b.length := ⟨List.replicate 9 true, 2, 1, 1, by decide⟩

theorem witness_FixedFormatsCheckTheirLength :
    ((0x01 : Byte), 4) ∈ ([(0x01, 4), (0x02, 4), (0x03, 4), (0x04, 4), (0x05, 4), (0x06, 4), (0x07, 0), (0x08, 4), (0x0B, 0),
      (0x0C, 0), (0x11, 0), (0x16, 6), (0x18, 2), (0x2B, 3)] : List (Byte × Nat)) ∧
    ([0, 0, 0] : List Byte).length < 4 ∧ ([0, 0, 0, 0] : List Byte).length = 4 ∧ 4 < ([0, 0, 0, 0, 0] : List Byte).length := by
  decide

theorem witness_ByteCountsMustAgree : (List.replicate 255 (0 : Byte)).length ≤ 255 ∧
    0 < (List.replicate 252 (0 : Byte)).length ∧ (List.replicate 252 (0 : Byte)).length % 7 = 0 ∧
    ¬ (0 < (List.replicate 8 (0 : Byte)).length ∧ (List.replicate 8 (0 : Byte)).length % 7 = 0) ∧
    ([⟨6, 4, 1, 2⟩] : List FileRead) ≠ [] ∧
    ([6, 0, 4, 0, 1, 0, 2] : List Byte) = (([⟨6, 4, 1, 2⟩] : List FileRead).flatMap fun x =>
      x.refType :: (bytes16 x.file ++ bytes16 x.record ++ bytes16 x.wordCount)) ∧
    ([⟨6, 4, 7, [1]⟩] : List FileWrite) ≠ [] ∧
    ([6, 0, 4, 0, 7, 0, 1, 0, 1] : List Byte) = (([⟨6, 4, 7, [1]⟩] : List FileWrite).flatMap fun x =>
      x.refType :: (bytes16 x.file ++ bytes16 x.record ++ bytes16 (u16Field x.data.length) ++ bytesOf x.data)) ∧
    ((0x17 : Byte), 8) ∈ ([(0x0F, 4), (0x10, 4), (0x14, 0), (0x15, 0), (0x17, 8)] : List (Byte × Nat)) ∧
    (List.replicate 8 (0 : Byte)).length ≤ 8 ∧ (List.replicate 8 (0 : Byte)).length = 8 ∧
    ([0] : List Byte).length < (2 : Byte).toNat ∧ (2 : Byte).toNat < ([0, 0, 0] : List Byte).length := by decide +kernel

/-- No run of whole sub-requests has 6 bytes. -/
theorem witness_ByteCountsMustAgree_partial (subs : List FileWrite) (h : subs ≠ []) :
    [6, 0, 0, 0, 0, 0] ≠ (subs.flatMap fun x =>
      x.refType :: (bytes16 x.file ++ bytes16 x.record ++ bytes16 (u16Field x.data.length) ++ bytesOf x.data)) := by
  rw [← encodeFileWrites_eq_flatMap]
  intro same
  have size := congrArg List.length same
  cases subs with
  | nil => exact h rfl
  | cons s rest => simp [fileWriteBytes, FileWrite.wireLength] at size; omega

theorem witness_FunctionCodesMatchExactly :
    (0x2B : Byte) ∈ ([0x01, 0x02, 0x03, 0x04, 0x05, 0x06, 0x07, 0x08, 0x0B, 0x0C, 0x0F, 0x10, 0x11, 0x14, 0x15, 0x16, 0x17,
        0x18, 0x2B] : List Byte) ∧
    (0x2A : Byte) ∉ ([0x01, 0x02, 0x03, 0x04, 0x05, 0x06, 0x07, 0x08, 0x0B, 0x0C, 0x0F, 0x10, 0x11, 0x14, 0x15, 0x16, 0x17,
        0x18, 0x2B] : List Byte) ∧
    (start [] [.serve true [0x01, 0x2A]]).NoReset ∧
    (start [] [.serve true [0x01, 0x2A]]).commands = .serve true [0x01, 0x2A] :: [] ∧
    decodeADU true [0x01, 0x2A] = .ok (⟨.headless, 0x01, 0x2A⟩, 0x2A :: []) := by decide

theorem witness_DecodeAduOfEncodeAdu : ([0x07] : List Byte) ≠ [] ∧
    encodeADU ⟨.framed 1 0, 0x11, 0⟩ [0x07] = .ok [0x00, 0x01, 0x00, 0x00, 0x00, 0x02, 0x11, 0x07] := by decide

/-- The length at the boundary of LengthOverflow: 65535 has its bytes, 65536 has not. -/
theorem witness_DecodeAduOfEncodeAdu_boundary : ¬ 65535 < 1 + (List.replicate 65534 (0 : Byte)).length ∧
    65535 < 1 + (List.replicate 65535 (0 : Byte)).length := by
  constructor <;> rw [List.length_replicate] <;> omega

theorem witness_FramedLengthCountsWhatFollows : ∃ (h : Header) (tid pid : U16) (pdu adu : List Byte),
    h.framing = .framed tid pid ∧ encodeADU h pdu = .ok adu := ⟨_, 1, 0, _, _, rfl, witness_DecodeAduOfEncodeAdu.2⟩

theorem witness_AduDecodeOutcomes : ([0, 0, 0, 0, 0] : List Byte).length < 6 := by decide

theorem witness_MasterRequestsComeBack : ∃ adu,
    encodeRequestADU small false ⟨1, 0, 0x11, 0, false⟩ (.writeMultipleCoils 19 (List.replicate 10 true)) = .ok adu :=
  ⟨_, rfl⟩

theorem witness_ResponsesComeBack : ∃ pdu adu, encodeResponse (.readFIFOQueue [0x01B8, 0x1284]) = .ok pdu ∧
    encodeResponseADU true ⟨0, 0, 1, 0, true⟩ (.readFIFOQueue [0x01B8, 0x1284]) = .ok adu :=
  ⟨_, _, rfl, rfl⟩

theorem witness_ExceptionsAndUnknownResponsesDecode :
    (0x83 : Byte).getLsbD 7 = true ∧ 2 ≤ ([2, 0] : List Byte).length ∧ (0x09 : Byte).getLsbD 7 = false ∧
    (0x09 : Byte) ∉ ([0x01, 0x02, 0x03, 0x04, 0x05, 0x06, 0x07, 0x08, 0x0B, 0x0C, 0x0F, 0x10, 0x11, 0x14, 0x15, 0x16, 0x17,
        0x18, 0x2B] : List Byte) := by decide

theorem witness_RequestEncoderChecksEveryCap : encodeRequest small (.readCoils 0 2001) = .error .countCap ∧
    encodeRequest small (.readInputRegisters 0 126) = .error .countCap ∧
    encodeRequest small (.writeCoil 0 1) = .error .fieldValue ∧
    encodeRequest small (.writeMultipleCoils 0 (List.replicate 2041 true)) = .error .byteCountOverflow ∧
    encodeRequest small (.readWriteMultiple 0 126 0 (List.replicate 128 0)) = .error .byteCountOverflow ∧
    encodeRequest small (.readWriteMultiple 0 126 0 (List.replicate 127 0)) = .error .countCap ∧
    encodeRequest small (.readFileRecord (List.replicate 36 ⟨6, 0, 9999, 0⟩)) = .error .fileRequestCap ∧
    encodeRequest small (.writeFileRecord [⟨5, 0, 0, []⟩]) = .error .fieldValue ∧
    encodeRequest small (.writeFileRecord [⟨6, 0, 10000, []⟩]) = .error .fieldValue := by decide +kernel

theorem witness_ResponseEncoderChecksEveryCap : encodeResponse (.readCoils 0 [0]) = .error .byteCountMismatch ∧
    encodeResponse (.writeCoil 0 1) = .error .fieldValue ∧
    encodeResponse (.readFileRecord [List.replicate 127 0]) = .error .byteCountOverflow ∧
    encodeResponse (.writeFileRecord [⟨5, 0, 0, []⟩]) = .error .fieldValue ∧
    encodeResponse (.writeFileRecord [⟨6, 0, 10000, List.replicate 125 0⟩]) = .error .fieldValue ∧
    encodeResponse (.writeFileRecord [⟨6, 0, 9999, List.replicate 125 0⟩]) = .error .byteCountOverflow ∧
    encodeResponse (.readMEI 0x0E 1 1 0 0 [⟨0, List.replicate 256 0⟩]) = .error .fieldValue ∧
    encodeResponse (.readMEI 0x0E 1 1 0 0 (List.replicate 65 ⟨0, []⟩)) = .error .meiFieldCap ∧
    encodeResponse (.readCommEventLog 0 0 0 (List.replicate 65 0)) = .error .eventCap ∧
    encodeResponse (.reportSlaveID 0 1 (List.replicate 249 0)) = .error .fieldValue ∧
    encodeResponse (.readFIFOQueue (List.replicate 32 0)) = .error .countCap := by decide +kernel

theorem witness_ResponseDecoderChecksEveryLength :
    ((0x16 : Byte), 6) ∈ ([(0x05, 4), (0x06, 4), (0x07, 1), (0x08, 4), (0x0B, 4), (0x0F, 4), (0x10, 4),
      (0x16, 6)] : List (Byte × Nat)) ∧
    (List.replicate 5 (0 : Byte)).length < 6 ∧ 6 < (List.replicate 7 (0 : Byte)).length ∧
    ([0] : List Byte).length < (2 : Byte).toNat ∧ (2 : Byte).toNat < ([0, 0, 0] : List Byte).length ∧
    (3 : Byte).toNat % 2 = 1 ∧ (2 : Byte).toNat % 2 = 0 ∧ ([0] : List Byte).length < 2 ∧
    ([0] : List Byte).length < (2 : U16).toNat ∧ (2 : U16).toNat < ([0, 0, 0] : List Byte).length ∧
    ([⟨0, [0x4F]⟩] : List MeiField).length ≤ 255 ∧ (∀ f ∈ ([⟨0, [0x4F]⟩] : List MeiField), f.text.length ≤ 255) ∧
    ([0x4F] : List Byte) ≠ [] ∧ ([0x0E, 1, 1, 0, 0, 1, 0, 1, 0x4F] : List Byte) = [0x0E, 1, 1, 0, 0, 1, 0, 1] ++ [0x4F] := by
  decide +kernel

theorem witness_ResponseDecoderChecksEveryField : ([0, 0, 0, 0, 0] : List Byte).length < 6 ∧
    70 < (List.replicate 71 (0 : Byte)).length ∧ (List.replicate 64 (0 : Byte)).length ≤ 64 ∧
    ([0] : List Byte).length < 2 ∧ 251 < (List.replicate 252 (0 : Byte)).length ∧
    (List.replicate 249 (0 : Byte)).length ≤ 249 ∧ (List.replicate 255 (0 : Byte)).length ≤ 255 ∧
    ([3, 6, 0, 1, 2] : List Byte) = (([[1]] : List (List U16)).flatMap fun w => u8Field (1 + 2 * w.length) :: 0x06 :: bytesOf w) ++
      (2 : Byte) :: [] ∧
    ((2 : Byte).toNat % 2 = 0 ∨ ([] : List Byte).length < (2 : Byte).toNat) ∧ (1 : Byte).toNat % 2 = 1 ∧
    (1 : Byte).toNat ≤ ([7] : List Byte).length ∧ ([7] : List Byte).head? ≠ some 6 ∧ ([[1]] : List (List U16)) ≠ [] ∧
    2 + (List.replicate 62 (0 : Byte)).length ≤ 65535 ∧ (List.replicate 64 (⟨0, []⟩ : MeiField)).length ≤ 255 ∧
    (∀ f ∈ List.replicate 64 (⟨0, []⟩ : MeiField), f.text.length ≤ 255) := by decide +kernel

theorem witness_StepRunsTheDecodedInstruction :
    (start [] [.serve true [0x01, 0x07]]).commands = .serve true [0x01, 0x07] :: [] ∧
    decodeADU true [0x01, 0x07] = .ok (⟨.headless, 0x01, 0x07⟩, [0x07]) ∧ decode [0x07] = .ok .readExceptionStatus := by
  decide

theorem witness_FetchWordIsRun : ∃ i, decodeTableWord 8 0x03 = some i := ⟨_, test_tableWord.1⟩

theorem witness_CodecCommandsOnlyGiveTheirOutcome : (start [] []).schedule = [] ∧
    (start [] [.decReq true [0x01, 0x07]]).commands = .decReq true [0x01, 0x07] :: [] ∧
    (start [] [.decRsp true [0x01, 0x07]]).commands = .decRsp true [0x01, 0x07] :: [] ∧
    (start [] [.encReq true ⟨0, 0, 1, 0, true⟩ .reportSlaveID]).commands = .encReq true ⟨0, 0, 1, 0, true⟩ .reportSlaveID :: [] ∧
    (start [] [.encRsp true ⟨0, 0, 1, 0, true⟩ (.readExceptionStatus 0)]).commands =
      .encRsp true ⟨0, 0, 1, 0, true⟩ (.readExceptionStatus 0) :: [] := by decide

/-- The codec clauses: each outcome of the header and of the PDU codec occurs. -/
theorem witness_CodecCommandsOnlyGiveTheirOutcome_codec : decodeADU true [0x01] = .error .truncated ∧
    decodeADU true [0x01, 0x07] = .ok (⟨.headless, 0x01, 0x07⟩, [0x07]) ∧ decode [0x07] = .ok .readExceptionStatus ∧
    decode [0x09] = .error (.illegalFunction 0x09) ∧ decode [0x07, 0x00] = .error (.malformed .trailing) ∧
    decodeResponse [0x07, 0x00] = .ok (.readExceptionStatus 0) ∧ decodeResponse [0x07] = .error .truncated ∧
    encodeRequest small (.readCoils 0 2001) = .error .countCap ∧ encodeRequest small .reportSlaveID = .ok [0x11] ∧
    encodeResponse (.writeCoil 0 1) = .error .fieldValue ∧ encodeResponse (.readExceptionStatus 0) = .ok [0x07, 0x00] := by
  decide

theorem witness_DecodeErrorsTouchNothing : (start [] [.serve true [0x01]]).schedule = [] ∧
    (start [] [.serve true [0x01]]).commands = .serve true [0x01] :: [] ∧
    decodeRequestADU true [0x01] = .error .truncated := by decide

theorem witness_IdleEngineStays : rich.schedule = [] ∧ rich.commands = [] := by decide

theorem witness_EveryCommandEnds : ∃ s : State, s.commands ≠ [] ∧ s.schedule ≠ [] ∧ s.NoReset :=
  ⟨{ start [] [.serve true [0x01, 0x07]] with schedule := [[.write .application (.hr 0 1)]] }, by decide, by decide,
    by intro slot hslot; simp at hslot; simp [hslot]⟩

theorem rich_good : rich.Good := ⟨by decide, by decide, by decide +kernel, by decide +kernel, by decide⟩

/-- The same with a command to come. -/
def serving (pdu : List Byte) : State := { rich with commands := [.serve true (0x01 :: pdu)] }

theorem serving_good (pdu : List Byte) : (serving pdu).Good :=
  ⟨rich_good.params, rich_good.device, rich_good.canonical, rich_good.inside, rich_good.idle⟩

/-- The same with another agent's write to come at the second point. -/
def interleaved : State := { rich with schedule := [[], [.write .application (.hr 9 5)]] }

theorem witness_StepsKeepTheInvariant : ∃ s t : State, s.Good ∧ step s = .next t := by
  obtain ⟨t, ht⟩ := next_of_isSome (o := step (serving [0x06, 0x00, 0x09, 0x00, 0x00])) (by decide +kernel)
  exact ⟨_, t, serving_good _, ht⟩

theorem witness_NoTransactionDependsOnAnEarlierOne : (start [] [.serve true [0x01, 0x07]]).commands ≠ [] := by decide

theorem witness_ServeAnswersEveryRequest : ∃ (s : State) (v : Header × Request), s.Good ∧
    s.commands = .serve true [0x01, 0x03, 0x00, 0x00, 0x00, 0x02] :: [] ∧
    decodeRequestADU true [0x01, 0x03, 0x00, 0x00, 0x00, 0x02] = .ok v :=
  ⟨_, _, serving_good [0x03, 0x00, 0x00, 0x00, 0x02], rfl, rfl⟩

theorem witness_ServeOutputDecodes : ∃ (s t : State) (adu : List Byte),
    s.commands = .serve true [0x01, 0x07] :: [] ∧ step s = .next t ∧ t.outcome = some (.ok (.bytes adu)) :=
  ⟨start [] [.serve true [0x01, 0x07]], _, _, rfl, rfl, rfl⟩

theorem witness_InstructionFrame : ∃ (s t : State) (e : Element),
    exec (.writeSingleRegister 9 5) s = .next t ∧ s.schedule ≠ [] ∧ s.cfg.wf = true ∧ s.image.wf = true ∧
    e.present s.cfg = true ∧ ¬ writeTargets (.writeSingleRegister 9 5) e ∧ s.LeftAlone e := by
  obtain ⟨t, ht⟩ := next_of_isSome
    (o := exec (.writeSingleRegister 9 5) { rich with schedule := [[.write .application (.hr 8 1)]] }) (by decide +kernel)
  refine ⟨_, t, .hr 0, ht, by decide, by decide, by decide +kernel, by decide, by simp [writeTargets], ?_⟩
  intro slot hslot agent w hw
  simp only [List.mem_cons, List.not_mem_nil, or_false] at hslot
  subst hslot
  simp only [List.mem_cons, List.not_mem_nil, or_false, Event.write.injEq] at hw
  rw [hw.2]
  decide

theorem witness_InstructionFrame_quiet : ∃ (s t : State), exec (.writeSingleRegister 9 5) s = .next t ∧ s.schedule = [] := by
  obtain ⟨t, ht⟩ := next_of_isSome (o := exec (.writeSingleRegister 9 5) rich) (by decide +kernel)
  exact ⟨_, t, ht, rfl⟩

theorem witness_OnlyTheNamedFunctionCodesWrite : ∃ s t : State, exec (.writeSingleRegister 9 5) s = .next t ∧
    s.schedule = [] ∧ t.image.hr ≠ s.image.hr ∧
    ∀ slot ∈ s.schedule, ∀ w, Event.write .application w ∈ slot → w.byFunctionCode = true := by
  refine ⟨rich, _, rfl, rfl, by decide +kernel, by intro slot hslot; cases hslot⟩

theorem witness_ExceptionsArePrecise : ∃ s t : State, exec (.writeSingleRegister 10 5) s = .next t ∧ s.schedule = [] ∧
    t.outcome = some (.ok (.bytes (aduOf s.latches.header (exceptionPdu (Instr.writeSingleRegister 10 5).functionCode 2)))) ∧
    s.cfg.wf = true ∧ s.image.wf = true ∧ (Element.hr 9).present s.cfg = true ∧ s.LeftAlone (.hr 9) :=
  ⟨rich, _, rfl, rfl, by decide +kernel, by decide, by decide +kernel, by decide, by intro slot hslot; cases hslot⟩

theorem witness_TakingAnException : rich.schedule = [] := by decide

theorem witness_AnswersCarryTheFunctionCode : ∃ (t : State) (adu : List Byte), exec .readExceptionStatus rich = .next t ∧
    t.outcome = some (.ok (.bytes adu)) := ⟨_, _, rfl, rfl⟩

theorem witness_CausesOfIllegalFunction : ∃ (s t : State) (h : Header) (request : Request), s.NoReset ∧
    s.commands = .serve true [0x01, 0x2B, 0x0D, 0x01, 0x00] :: [] ∧
    decodeRequestADU true [0x01, 0x2B, 0x0D, 0x01, 0x00] = .ok (h, request) ∧ step s = .next t :=
  ⟨start [] [.serve true [0x01, 0x2B, 0x0D, 0x01, 0x00]], _, _, _, by decide, rfl, rfl, rfl⟩

theorem witness_BitReadsAnswerTheElements : rich.schedule = [] ∧ (64 : U16).toNat ≤ 2000 ∧
    (0 : U16).toNat + (64 : U16).toNat < 65536 ∧ (0 : U16).toNat + (64 : U16).toNat ≤ rich.cfg.nCOIL ∧
    (0 : U16).toNat + (16 : U16).toNat ≤ rich.cfg.nDI := by decide +kernel

theorem witness_RegisterReadsAnswerTheElements : rich.schedule = [] ∧ rich.cfg.maxReadRegs ≤ 127 ∧
    (10 : U16).toNat ≤ rich.cfg.maxReadRegs ∧ (0 : U16).toNat + (10 : U16).toNat < 65536 ∧
    (0 : U16).toNat + (10 : U16).toNat ≤ rich.cfg.nHR ∧ (0 : U16).toNat + (10 : U16).toNat ≤ rich.cfg.nIR := by
  decide +kernel

theorem witness_ReadsTrap : rich.schedule = [] ∧ 2000 < (2001 : U16).toNat ∧ rich.cfg.maxReadRegs < (126 : U16).toNat ∧
    (1 : U16).toNat ≤ 2000 ∧ 65536 ≤ (65535 : U16).toNat + (1 : U16).toNat ∧
    (1 : U16).toNat ≠ 0 ∧ rich.cfg.nCOIL < (64 : U16).toNat + (1 : U16).toNat ∧
    rich.cfg.nDI < (16 : U16).toNat + (1 : U16).toNat ∧ (1 : U16).toNat ≤ rich.cfg.maxReadRegs ∧
    rich.cfg.nHR < (10 : U16).toNat + (1 : U16).toNat ∧ rich.cfg.nIR < (16 : U16).toNat + (1 : U16).toNat := by
  decide +kernel

theorem witness_SingleWritesStoreAndEcho : rich.schedule = [] ∧ rich.image.wf = true ∧ (63 : U16).toNat < rich.cfg.nCOIL ∧
    (9 : U16).toNat < rich.cfg.nHR := by decide +kernel

theorem witness_MultipleCoilWritesStoreEveryBit : rich.schedule = [] ∧ rich.image.wf = true ∧
    (Instr.writeMultipleCoils 60 4 [0x0F]).wellFormed = true ∧ (60 : U16).toNat + (4 : U16).toNat ≤ rich.cfg.nCOIL ∧
    (Instr.writeMultipleCoils 64 0 []).wellFormed = true := by decide +kernel

theorem witness_MultipleRegisterWritesStoreEveryWord : rich.schedule = [] ∧ rich.image.wf = true ∧
    (8 : U16).toNat + ([1, 2] : List U16).length ≤ rich.cfg.nHR := by decide +kernel

theorem witness_MaskWriteStoresTheMaskedValue : rich.schedule = [] ∧ rich.image.wf = true ∧ (9 : U16).toNat < rich.cfg.nHR := by
  decide +kernel

theorem witness_MaskWriteReplayChangesNothing : ∃ s t u : State, s.schedule = [] ∧ s.image.wf = true ∧
    exec (.maskWriteRegister 0 0xFF00 0x00FF) s = .next t ∧ exec (.maskWriteRegister 0 0xFF00 0x00FF) t = .next u := by
  obtain ⟨t, ht, hcfg⟩ := exec_next (R := fun _ => True) (.maskWriteRegister 0 0xFF00 0x00FF) (c := small)
    (P := fun s => s.cfg = small) (Q := fun _ => True)
    ⟨fun _ h => h, stable_of_events (fun _ _ _ h _ => h) (fun _ _ _ h _ => h) (fun _ _ h _ => h) fun _ _ _ => trivial⟩
    (latchStable_of_latches fun _ _ h => h) (fun _ _ h _ _ => h) (fun _ _ _ => trivial) (fun _ _ => trivial) rich rfl
  obtain ⟨u, hu, -⟩ := exec_next (R := fun _ => True) (.maskWriteRegister 0 0xFF00 0x00FF) (c := t.cfg)
    (P := fun s => s.cfg = t.cfg) (Q := fun _ => True)
    ⟨fun _ h => h, stable_of_events (fun _ _ _ h _ => h) (fun _ _ _ h _ => h) (fun _ _ h _ => h) fun _ _ _ => trivial⟩
    (latchStable_of_latches fun _ _ h => h) (fun _ _ h _ _ => h) (fun _ _ _ => trivial) (fun _ _ => trivial) t rfl
  exact ⟨rich, t, u, rfl, rich_good.canonical, ht, hu⟩

theorem witness_ReadWriteMultipleReadsWhatItWrote : rich.schedule = [] ∧ rich.image.wf = true ∧ rich.cfg.maxReadRegs ≤ 127 ∧
    (10 : U16).toNat ≤ rich.cfg.maxReadRegs ∧ (0 : U16).toNat + (10 : U16).toNat < 65536 ∧
    (0 : U16).toNat + (10 : U16).toNat ≤ rich.cfg.nHR ∧ (9 : U16).toNat + ([7] : List U16).length ≤ rich.cfg.nHR := by
  decide +kernel

theorem witness_WritesTrap : rich.schedule = [] ∧ (1 : U16) ≠ 0xFF00 ∧ (1 : U16) ≠ 0x0000 ∧ rich.cfg.nCOIL ≤ (64 : U16).toNat ∧
    rich.cfg.nHR ≤ (10 : U16).toNat ∧ rich.cfg.nCOIL < (63 : U16).toNat + (2 : U16).toNat ∧
    ([1, 2] : List U16).length ≠ 0 ∧ rich.cfg.nHR < (9 : U16).toNat + ([1, 2] : List U16).length ∧
    rich.cfg.maxReadRegs < (126 : U16).toNat ∧ (125 : U16).toNat ≤ rich.cfg.maxReadRegs ∧
    65536 ≤ (65535 : U16).toNat + (1 : U16).toNat ∧ rich.cfg.nHR < (10 : U16).toNat + (1 : U16).toNat := by decide +kernel

theorem witness_WriteThenReadGivesTheValues : ∃ s t : State, s.schedule = [] ∧ s.image.wf = true ∧ s.cfg.maxReadRegs ≤ 127 ∧
    ([1, 2] : List U16).length ≤ s.cfg.maxReadRegs ∧ (8 : U16).toNat + ([1, 2] : List U16).length < 65536 ∧
    (8 : U16).toNat + ([1, 2] : List U16).length ≤ s.cfg.nHR ∧ exec (.writeMultipleRegisters 8 [1, 2]) s = .next t := by
  obtain ⟨t, ht⟩ := next_of_isSome (o := exec (.writeMultipleRegisters 8 [1, 2]) rich) (by decide +kernel)
  exact ⟨rich, t, rfl, rich_good.canonical, by decide, by decide, by decide +kernel, by decide +kernel, ht⟩

theorem witness_StatusFunctionsAnswerTheInputs : rich.schedule = [] ∧ rich.dev.wf = true := by decide

theorem witness_DiagnosticsAnswerTheHandler : ∃ s : State, s.schedule = [] ∧ s.cfg.diagRows ≠ [] ∧
    ∀ row ∈ s.cfg.diagRows, ¬ (row.subFunction = 1 ∧ row.data = 0) :=
  ⟨{ rich with cfg := { small with diagRows := [⟨2, 0, 2, 1⟩] } }, by decide⟩

theorem witness_FileReadsAnswerTheRecords : rich.schedule = [] ∧ ([⟨6, 1, 1, 4⟩] : List FileRead) ≠ [] ∧
    (∀ x ∈ ([⟨6, 1, 1, 4⟩] : List FileRead), x.refType = 6 ∧ x.file.toNat < rich.cfg.nFiles ∧ x.record.toNat ≤ 9999 ∧
      x.record.toNat < rich.cfg.records x.file.toNat ∧ x.wordCount.toNat ≤ rich.cfg.words x.file.toNat x.record.toNat) ∧
    (([⟨6, 1, 1, 4⟩] : List FileRead).map fun x => 2 + 2 * x.wordCount.toNat).sum ≤ 255 := by decide +kernel

theorem witness_FileWritesStoreAndEcho : rich.schedule = [] ∧ rich.image.wf = true ∧ rich.cfg.wf = true ∧
    (Instr.writeFileRecord [⟨6, 1, 1, [1, 2, 3, 4]⟩, ⟨6, 1, 1, [5]⟩]).wellFormed = true ∧
    (∀ x ∈ ([⟨6, 1, 1, [1, 2, 3, 4]⟩, ⟨6, 1, 1, [5]⟩] : List FileWrite), x.refType = 6 ∧ x.file.toNat < rich.cfg.nFiles ∧
      x.record.toNat ≤ 9999 ∧ x.record.toNat < rich.cfg.records x.file.toNat ∧
      x.data.length ≤ rich.cfg.words x.file.toNat x.record.toNat) ∧
    (Element.file 1 1 3).present rich.cfg = true := by decide +kernel

theorem witness_FileFunctionsTrap : rich.schedule = [] ∧ checkFileRead rich.cfg ⟨6, 1, 1, 4⟩ = none ∧ (5 : Byte) ≠ 6 ∧
    rich.cfg.nFiles ≤ (2 : U16).toNat ∧ 9999 < (10000 : U16).toNat ∧ rich.cfg.records 1 ≤ (2 : U16).toNat ∧
    rich.cfg.words 1 1 < (5 : U16).toNat ∧ checkFileWrite rich.cfg ⟨6, 1, 1, [0]⟩ = none ∧
    State.reset.schedule = [] ∧ checkFileRead State.reset.cfg ⟨6, 1, 1, 127⟩ = none ∧
    255 < (([⟨6, 1, 1, 127⟩] : List FileRead).map fun x => 2 + 2 * x.wordCount.toNat).sum := by decide +kernel

theorem witness_FifoReadsAnswerTheQueue : ∃ s : State, s.schedule = [] ∧ (7 : U16).toNat < s.cfg.nHR ∧
    2 = (s.image.word .hr (7 : U16).toNat).toNat ∧ 2 ≤ 31 ∧ (7 : U16).toNat + 1 + 2 < 65536 ∧
    (7 : U16).toNat + 1 + 2 ≤ s.cfg.nHR := ⟨start [.hr 7 2] [], by decide +kernel⟩

theorem witness_FifoTraps : ∃ s : State, s.schedule = [] ∧ s.cfg.nHR ≤ (10 : U16).toNat ∧ (0 : U16).toNat < s.cfg.nHR ∧
    31 < (s.image.word .hr (0 : U16).toNat).toNat ∧ (9 : U16).toNat < s.cfg.nHR ∧
    (s.image.word .hr (9 : U16).toNat).toNat ≤ 31 ∧
    s.cfg.nHR < (9 : U16).toNat + 1 + (s.image.word .hr (9 : U16).toNat).toNat :=
  ⟨start [.hr 0 32, .hr 9 1] [], by decide +kernel⟩

theorem witness_MeiReadsAnswerTheTable : ∃ s : State, s.schedule = [] ∧ s.cfg.wf = true ∧
    s.cfg.meiTable 1 0 = .objects 1 0xFF 0 (List.replicate 64 ⟨0, []⟩) :=
  ⟨{ rich with cfg := { small with meiRows := [⟨1, 0, .objects 1 0xFF 0 (List.replicate 64 ⟨0, []⟩)⟩] } },
    by decide +kernel⟩

theorem witness_MeiTraps : ∃ s : State, s.schedule = [] ∧ (0x0D : Byte) ≠ 0x0E ∧ s.cfg.meiTable 1 0 = .illegalAddress ∧
    s.cfg.meiTable 1 1 = .illegalValue :=
  ⟨{ rich with cfg := { small with meiRows := [⟨1, 1, .illegalValue⟩] } }, by decide +kernel⟩

theorem witness_MaskWriteLosesAWriteBetween : ∃ t : State, interleaved.image.wf = true ∧ (9 : U16).toNat < interleaved.cfg.nHR ∧
    interleaved.schedule = [[], [.write .application (.hr (9 : U16).toNat 5)]] ∧
    exec (.maskWriteRegister 9 0xFF00 0x00FF) interleaved = .next t := by
  obtain ⟨t, ht⟩ := next_of_isSome (o := exec (.maskWriteRegister 9 0xFF00 0x00FF) interleaved) (by decide +kernel)
  exact ⟨t, rich_good.canonical, by decide +kernel, rfl, ht⟩

theorem witness_ReadsInterleaveElementwise : ∃ s : State, s.image.wf = true ∧ 2 ≤ s.cfg.maxReadRegs ∧
    (8 : U16).toNat + 2 < 65536 ∧ (8 : U16).toNat + 2 ≤ s.cfg.nHR ∧
    s.schedule = [[], [.write .application (.hr (8 : U16).toNat 5), .write .application (.hr ((8 : U16).toNat + 1) 6)]] :=
  ⟨{ rich with schedule := [[], [.write .application (.hr 8 5), .write .application (.hr 9 6)]] }, by decide +kernel⟩

theorem witness_ResetLeavesAPrefixOfTheWrites : rich.image.wf = true ∧ 2 ≤ ([1, 2] : List U16).length ∧
    (8 : U16).toNat + ([1, 2] : List U16).length ≤ rich.cfg.nHR ∧
    ({ rich with schedule := List.replicate 2 [] ++ [[.reset]] } : State).schedule = List.replicate 2 [] ++ [[.reset]] := by
  decide +kernel

end Sys2Proof.Tests
end

section
/-! SUPPORT. The invariant of the machine: what holds in the course of a transaction, and that every step from a good state leads to
one (R8, R34, R43, R44). -/

namespace Sys2Proof.Scope

open Sys2Proof.Machine

/-! ### The invariant -/

/-- What holds of a good state in the course of a transaction: the invariant but for the latches, the parameters being `c`. -/
structure Sound (c : Params) (s : State) : Prop where
  cfg : s.cfg = c
  params : s.cfg.wf = true
  device : s.dev.wf = true
  canonical : s.image.wf = true
  inside : s.image.within s.cfg = true

variable {c : Params} {s : State}

theorem sound_of_good (h : s.Good) : Sound s.cfg s := ⟨rfl, h.params, h.device, h.canonical, h.inside⟩

/-- The latches, the commands, the outcome and the schedule are no part of it. -/
theorem Sound.of_eq {t : State} (h : Sound c s) (hcfg : t.cfg = s.cfg) (hdev : t.dev = s.dev) (himage : t.image = s.image) :
    Sound c t := by
  obtain ⟨cfg, params, device, canonical, inside⟩ := h
  constructor
  all_goals simpa only [hcfg, hdev, himage]

/-- What only idle latches are missing from is good. -/
theorem Sound.good_of_eq {t : State} (h : Sound c s) (hcfg : t.cfg = s.cfg) (hdev : t.dev = s.dev)
    (himage : t.image = s.image) (idle : t.latches = Latches.idle) : t.Good := by
  obtain ⟨-, params, device, canonical, inside⟩ := h.of_eq hcfg hdev himage
  exact ⟨params, device, canonical, inside, idle⟩

/-- A write of an element that exists keeps it (R34, R77, R78). -/
theorem Sound.write (h : Sound c s) {w : ElementWrite} (hw : w.exists s.cfg = true) : Sound c (s.write w) :=
  ⟨h.cfg, h.params, h.device, Image.wf_write _ h.canonical w, Image.within_write h.params _ w h.inside hw⟩

/-- Device inputs in their domains keep it (R44). -/
theorem Sound.withDevice (h : Sound c s) {d : Device} (hd : d.wf = true) : Sound c (s.withDevice d) :=
  ⟨h.cfg, h.params, hd, h.canonical, h.inside⟩

/-- Other agents write only elements that exist (R65). -/
theorem exists_of_writePossible {p : Params} {agent : Agent} {w : ElementWrite} (h : writePossible p agent w = true) :
    w.exists p = true := by
  cases agent with
  | application => exact h
  | engine k =>
    simp only [writePossible, Bool.and_eq_true] at h
    obtain ⟨⟨⟨hexists, -⟩, -⟩, -⟩ := h
    exact hexists

/-- The other agents keep it; after a reset the engine is idle besides (R340, R341). -/
theorem sound_stable : Stable (Sound c) State.Good :=
  stable_of_events (fun _ _ _ h _ => h.of_eq rfl rfl rfl) (fun _ _ _ h hw => h.write (exists_of_writePossible hw))
    (fun _ _ h hd => h.withDevice hd) fun _ _ h => h.good_of_eq rfl rfl rfl rfl

/-- An idle engine's latches stay as they are whatever the other agents do. -/
theorem good_stable : Stable State.Good State.Good :=
  stable_of_events (fun _ _ _ h _ => (sound_of_good h).good_of_eq rfl rfl rfl h.idle)
    (fun _ _ _ h hw => ((sound_of_good h).write (exists_of_writePossible hw)).good_of_eq rfl rfl rfl h.idle)
    (fun _ _ h hd => ((sound_of_good h).withDevice hd).good_of_eq rfl rfl rfl h.idle)
    fun _ _ h => (sound_of_good h).good_of_eq rfl rfl rfl rfl

/-- A command run from a good state ends in one. -/
theorem runCommand_good (command : Command) (h : Sound c s) : ∃ t, runCommand command s = .next t ∧ t.Good :=
  runCommand_next (c := c) ⟨fun _ h => h.cfg, sound_stable⟩ (latchStable_of_latches fun _ _ h => h.of_eq rfl rfl rfl)
    (fun _ _ h hw _ => h.write (h.cfg ▸ hw)) (fun _ _ h => h.good_of_eq rfl rfl rfl rfl) (fun _ h => h) command s h

/-- Every step from a good state leads to one. -/
theorem step_good (h : s.Good) : ∃ t, step s = .next t ∧ t.Good := by
  unfold step
  split
  · exact idle_next good_stable (fun _ h => h) (fun _ h => h) s h
  · exact runCommand_good _ ((sound_of_good h).of_eq rfl rfl rfl)

/-- Settles O24: the step of a good state is to a good state, and a step has one next state. -/
theorem stepsKeepTheInvariant : Obligations.StepsKeepTheInvariant := by
  intro s t good next
  obtain ⟨t', next', good'⟩ := step_good good
  rw [next] at next'
  cases next'
  exact good'

end Sys2Proof.Scope
end

section
/-! SUPPORT. Wire integers are big-endian and packed booleans stand least significant bit first, each with its place (R10, R14). -/

namespace Sys2Proof.Scope

open Sys2Proof.Machine

/-! ### Wire integers -/

theorem be16_toNat (hi lo : Byte) : (be16 hi lo).toNat = hi.toNat * 256 + lo.toNat := by
  rw [be16, BitVec.toNat_append, ← Nat.shiftLeft_add_eq_or_of_lt lo.isLt, Nat.shiftLeft_eq]

/-- Settles O4: `be16` by its value, and `bytes16` as the high and the low byte, which `be16` puts together again. -/
theorem wireIntegersAreBigEndian : Obligations.WireIntegersAreBigEndian := by
  refine ⟨be16_toNat, fun v => ⟨v.extractLsb' 8 8, v.extractLsb' 0 8, rfl, ?_, ?_, be16_extract v⟩⟩
  · have := v.isLt
    rw [BitVec.extractLsb'_toNat, Nat.shiftRight_eq_div_pow]
    omega
  · rw [BitVec.extractLsb'_toNat, Nat.shiftRight_zero]

/-! ### Packed booleans -/

/-- Bit `k` of byte `j` of a packed list is element `8 * j + k`, or 0 past its end (R14, D9). -/
theorem packLsb_getD_getLsbD (n : Nat) : ∀ (bits : List Bool) (j k : Nat), j < n → k < 8 →
    ((packLsb bits n).getD j 0).getLsbD k = bits.getD (8 * j + k) false := by
  induction n with
  | zero => intro bits j k hj; omega
  | succ n ih =>
    intro bits j k hj hk
    cases j with
    | zero => simpa [packLsb] using packByte_getLsbD bits k hk
    | succ j =>
      have shift : 8 * (j + 1) + k = 8 + (8 * j + k) := by omega
      simpa [packLsb, List.getD_eq_getElem?_getD, shift] using ih (bits.drop 8) j k (by omega) hk

/-- Element `k` of an unpacked byte is its bit `k`. -/
theorem unpackByte_getD (x : Byte) (k : Nat) (hk : k < 8) : (unpackByte x).getD k false = x.getLsbD k := by
  interval_cases k <;> rfl

/-- Element `8 * j + k` of unpacked bytes is bit `k` of byte `j` (R14). -/
theorem unpackLsb_getD (data : List Byte) : ∀ j k : Nat, k < 8 →
    (unpackLsb data).getD (8 * j + k) false = (data.getD j 0).getLsbD k := by
  induction data with
  | nil => intro j k _; simp [unpackLsb]
  | cons x rest ih =>
    intro j k hk
    have eight : (unpackByte x).length = 8 := rfl
    rw [unpackLsb]
    cases j with
    | zero => rw [List.getD_append _ _ _ _ (by omega)]; simpa using unpackByte_getD x k hk
    | succ j =>
      rw [List.getD_append_right _ _ _ _ (by omega), eight, show 8 * (j + 1) + k - 8 = 8 * j + k by omega, ih j k hk]
      rfl

/-- Settles O5, packing and unpacking each by the place of every bit. -/
theorem booleansArePackedLsbFirst : Obligations.BooleansArePackedLsbFirst := by
  refine ⟨fun b n _ => ⟨packLsb_length b n, fun j hj k hk => ?_⟩,
    fun s => ⟨unpackLsb_length s, fun j _ k hk => unpackLsb_getD s j k hk⟩⟩
  rw [packLsb_getD_getLsbD n b j k hj hk]
  split
  · rfl
  · exact List.getD_eq_default _ _ (by omega)

end Sys2Proof.Scope
end

section
/-! SUPPORT. The lengths the decoders take: each request and response is refused as its format refuses its body (R11, R93, R97). -/

namespace Sys2Proof.Scope

open Sys2Proof.Machine

/-! ### Formats of fixed length -/

/-- A format takes exactly `length` bytes: a shorter body is Truncated, a longer one Trailing (R11, R93). -/
structure FixedFormat {α : Type} (format : List Byte → Except DecodeReason α) (length : Nat) : Prop where
  short : ∀ body, body.length < length → format body = .error .truncated
  long : ∀ body, length < body.length → format body = .error .trailing
  reads : ∀ body, body.length = length → ∃ v, format body = .ok v

theorem decodeNone_fixed : FixedFormat decodeNone 0 where
  short _ h := absurd h (Nat.not_lt_zero _)
  long _ h := atEnd_more (List.ne_nil_of_length_pos h)
  reads _ h := ⟨(), by rw [List.length_eq_zero_iff.mp h]; rfl⟩

theorem decodeR_fixed : FixedFormat decodeR 2 where
  short _ h := by rw [decodeR, u16_short h]; rfl
  long body h := by
    obtain ⟨v, rest, rfl⟩ := exists_bytes16 (Nat.le_of_lt h)
    have more : rest ≠ [] := by rintro rfl; simp at h
    simp [decodeR, atEnd_more more]
  reads body h := by
    obtain ⟨v, rest, rfl⟩ := exists_bytes16 h.ge
    have none_left : rest = [] := by simpa using h
    exact ⟨v, by simp [none_left]⟩

theorem decodeRC_fixed : FixedFormat decodeRC 4 where
  short _ := decodeRC_short
  long _ := decodeRC_long
  reads body h := by
    match body, h with
    | [a, b, c, d], _ => exact ⟨_, rfl⟩

theorem decodeMW_fixed : FixedFormat decodeMW 6 where
  short _ := decodeMW_short
  long _ := decodeMW_long
  reads body h := by
    match body, h with
    | [a, b, c, d, e, f], _ => exact ⟨_, rfl⟩

/-! ### Requests of fixed length -/

section requests

variable {α : Type} {functionCode : Byte} {length : Nat} {format : List Byte → Except DecodeReason α}

/-- What the body of a request of fixed length decodes to, by its length. -/
def FixedRequest (functionCode : Byte) (length : Nat) : Prop := ∀ body : List Byte,
  (body.length < length → decode (functionCode :: body) = .error (.malformed .truncated)) ∧
  (length < body.length → decode (functionCode :: body) = .error (.malformed .trailing)) ∧
  (body.length = length → ∃ i, decode (functionCode :: body) = .ok i ∧ i.functionCode = functionCode)

/-- A request of the table whose decode fills a record from a format of fixed length. -/
theorem FixedFormat.request {next : α → Except DecodeReason Instr} (fixed : FixedFormat format length)
    (table : createModbusRequest functionCode = some fun body => format body >>= next)
    (code : ∀ v, ∃ i, next v = .ok i ∧ i.functionCode = functionCode) : FixedRequest functionCode length := by
  refine fun body => ⟨fun h => ?_, fun h => ?_, fun h => ?_⟩
  · rw [decode_of_table body table, fixed.short body h]; rfl
  · rw [decode_of_table body table, fixed.long body h]; rfl
  · obtain ⟨v, hv⟩ := fixed.reads body h
    obtain ⟨i, hi, hcode⟩ := code v
    exact ⟨i, by rw [decode_of_table body table, hv, ok_bind, hi]; rfl, hcode⟩

/-- ReadMEI's three bytes (R240). -/
theorem readMEI_fixedRequest : FixedRequest 0x2B 3 := by
  intro body
  rcases body with _ | ⟨a, _ | ⟨b, _ | ⟨c, _ | ⟨d, rest⟩⟩⟩⟩
  · exact ⟨fun _ => rfl, nofun, nofun⟩
  · exact ⟨fun _ => rfl, nofun, nofun⟩
  · exact ⟨fun _ => rfl, nofun, nofun⟩
  · exact ⟨fun h => absurd h (lt_irrefl 3), fun h => absurd h (lt_irrefl 3), fun _ => ⟨_, rfl, rfl⟩⟩
  · exact ⟨fun h => absurd h (by simp), fun _ => rfl, fun h => absurd h (by simp)⟩

/-- A request of the table whose body its format reads. -/
theorem decode_of_format {next : α → Except DecodeReason Instr} {body : List Byte} {v : α} {i : Instr}
    (table : createModbusRequest functionCode = some fun body => format body >>= next) (read : format body = .ok v)
    (build : next v = .ok i) : decode (functionCode :: body) = .ok i := by
  rw [decode_of_table body table, read, ok_bind, build]; rfl

end requests

/-- Settles O6: each request of the 14 by its format, and its fields by what the format reads. -/
theorem fixedFormatsCheckTheirLength : Obligations.FixedFormatsCheckTheirLength := by
  refine ⟨fun functionCode length body row => ?_, fun x y z a b c => ?_⟩
  · suffices fixed : FixedRequest functionCode length from fixed body
    simp only [List.mem_cons, Prod.mk.injEq, List.not_mem_nil, or_false] at row
    obtain ⟨rfl, rfl⟩ | ⟨rfl, rfl⟩ | ⟨rfl, rfl⟩ | ⟨rfl, rfl⟩ | ⟨rfl, rfl⟩ | ⟨rfl, rfl⟩ | ⟨rfl, rfl⟩ | ⟨rfl, rfl⟩ | ⟨rfl, rfl⟩ |
      ⟨rfl, rfl⟩ | ⟨rfl, rfl⟩ | ⟨rfl, rfl⟩ | ⟨rfl, rfl⟩ | ⟨rfl, rfl⟩ := row
    · exact decodeRC_fixed.request rfl fun _ => ⟨_, rfl, rfl⟩
    · exact decodeRC_fixed.request rfl fun _ => ⟨_, rfl, rfl⟩
    · exact decodeRC_fixed.request rfl fun _ => ⟨_, rfl, rfl⟩
    · exact decodeRC_fixed.request rfl fun _ => ⟨_, rfl, rfl⟩
    · exact decodeRC_fixed.request rfl fun _ => ⟨_, rfl, rfl⟩
    · exact decodeRC_fixed.request rfl fun _ => ⟨_, rfl, rfl⟩
    · exact decodeNone_fixed.request rfl fun _ => ⟨_, rfl, rfl⟩
    · exact decodeRC_fixed.request rfl fun _ => ⟨_, rfl, rfl⟩
    · exact decodeNone_fixed.request rfl fun _ => ⟨_, rfl, rfl⟩
    · exact decodeNone_fixed.request rfl fun _ => ⟨_, rfl, rfl⟩
    · exact decodeNone_fixed.request rfl fun _ => ⟨_, rfl, rfl⟩
    · exact decodeMW_fixed.request rfl fun _ => ⟨_, rfl, rfl⟩
    · exact decodeR_fixed.request rfl fun _ => ⟨_, rfl, rfl⟩
    · exact readMEI_fixedRequest
  · have words := decodeRC_bytes16 x y
    refine ⟨decode_of_format rfl words rfl, decode_of_format rfl words rfl, decode_of_format rfl words rfl,
      decode_of_format rfl words rfl, decode_of_format rfl words rfl, decode_of_format rfl words rfl, rfl,
      decode_of_format rfl words rfl, rfl, rfl, rfl, ?_, decode_of_format rfl (decodeR_bytes16 x) rfl, rfl⟩
    rw [List.append_assoc]
    exact decode_of_format rfl (decodeMW_bytes16 x y z) rfl

/-! ### Responses -/

section responses

variable {α : Type} {functionCode : Byte} {format : List Byte → Except DecodeReason α}
  {next : α → Except DecodeReason Response}

/-- A normal response is refused as its format refuses its body (R270). -/
theorem decodeResponse_error (normal : isException functionCode = false)
    (table : createModbusResponse functionCode = some fun body => format body >>= next) {body : List Byte} {r : DecodeReason}
    (refused : format body = .error r) : decodeResponse (functionCode :: body) = .error r := by
  rw [decodeResponse_of_table body normal table, refused]; rfl

/-- What a response of fixed length with a body of another length decodes to. -/
def FixedResponse (functionCode : Byte) (length : Nat) : Prop := ∀ body : List Byte,
  (body.length < length → decodeResponse (functionCode :: body) = .error .truncated) ∧
  (length < body.length → decodeResponse (functionCode :: body) = .error .trailing)

theorem FixedFormat.response {length : Nat} (fixed : FixedFormat format length) (normal : isException functionCode = false)
    (table : createModbusResponse functionCode = some fun body => format body >>= next) :
    FixedResponse functionCode length := fun body =>
  ⟨fun h => decodeResponse_error normal table (fixed.short body h),
    fun h => decodeResponse_error normal table (fixed.long body h)⟩

/-- The one status byte of ReadExceptionStatus (R201). -/
theorem readExceptionStatus_fixedResponse : FixedResponse 0x07 1 := by
  intro body
  rcases body with _ | ⟨a, _ | ⟨b, rest⟩⟩
  · exact ⟨fun _ => rfl, nofun⟩
  · exact ⟨fun h => absurd h (lt_irrefl 1), fun h => absurd h (lt_irrefl 1)⟩
  · exact ⟨fun h => absurd h (by simp), fun _ => rfl⟩

/-- What a response with a byte count and not that many bytes after it decodes to. -/
def CountedResponse (functionCode : Byte) : Prop :=
  decodeResponse [functionCode] = .error .truncated ∧ ∀ (byteCount : Byte) (data : List Byte),
    (data.length < byteCount.toNat → decodeResponse (functionCode :: byteCount :: data) = .error .truncated) ∧
    (byteCount.toNat < data.length → decodeResponse (functionCode :: byteCount :: data) = .error .trailing)

/-- A response whose format begins with the counted bytes is refused as they are. -/
theorem countedResponse_of_format (normal : isException functionCode = false)
    (table : createModbusResponse functionCode = some fun body => format body >>= next)
    (counts : ∀ body r, decodeBC body = .error r → format body = .error r) : CountedResponse functionCode :=
  ⟨decodeResponse_error normal table (counts _ _ decodeBC_nil), fun _ _ =>
    ⟨fun h => decodeResponse_error normal table (counts _ _ (decodeBC_short h)),
      fun h => decodeResponse_error normal table (counts _ _ (decodeBC_long h))⟩⟩

theorem decodeFileWrites_error_of_decodeBC (body : List Byte) (r : DecodeReason) (h : decodeBC body = .error r) :
    decodeFileWrites body = .error r := by
  rw [decodeFileWrites, h]; rfl

/-- What a register response with an odd byte count, or with not that many bytes after it, decodes to. -/
def WordsResponse (functionCode : Byte) : Prop :=
  decodeResponse [functionCode] = .error .truncated ∧ ∀ (byteCount : Byte) (data : List Byte),
    (byteCount.toNat % 2 = 1 → decodeResponse (functionCode :: byteCount :: data) = .error .byteCountMismatch) ∧
    (byteCount.toNat % 2 = 0 → data.length < byteCount.toNat →
      decodeResponse (functionCode :: byteCount :: data) = .error .truncated) ∧
    (byteCount.toNat % 2 = 0 → byteCount.toNat < data.length →
      decodeResponse (functionCode :: byteCount :: data) = .error .trailing)

/-- The parity of the byte count is checked first, then the counted bytes (R155, log entry 26). -/
theorem wordsResponse_of_format {next : List U16 → Except DecodeReason Response} (normal : isException functionCode = false)
    (table : createModbusResponse functionCode = some fun body => decodeWords body >>= next) : WordsResponse functionCode := by
  have refused {body : List Byte} {r : DecodeReason} (h : decodeWords body = .error r) :
      decodeResponse (functionCode :: body) = .error r := decodeResponse_error normal table h
  refine ⟨refused rfl, fun byteCount data => ⟨fun odd => refused ?_, fun even h => refused ?_, fun even h => refused ?_⟩⟩
  · rw [decodeWords_cons, if_neg (by omega)]
  · rw [decodeWords_cons, if_pos even, decodeBC_short h]; rfl
  · rw [decodeWords_cons, if_pos even, decodeBC_long h]; rfl

end responses

/-- The FIFO response's 16-bit byte count (R231). -/
theorem fifoResponse_checks_length (byteCount : U16) (data : List Byte) :
    (data.length < byteCount.toNat → decodeResponse (0x18 :: (bytes16 byteCount ++ data)) = .error .truncated) ∧
    (byteCount.toNat < data.length → decodeResponse (0x18 :: (bytes16 byteCount ++ data)) = .error .trailing) := by
  have table : decodeResponse (0x18 :: (bytes16 byteCount ++ data)) = decodeReadFIFOQueueResponse (bytes16 byteCount ++ data) :=
    decodeResponse_of_table _ (by decide) rfl
  rw [table]
  refine ⟨fun h => ?_, fun h => ?_⟩
  · simp [decodeReadFIFOQueueResponse, bytes_short h]
  · have more : data.drop byteCount.toNat ≠ [] := by simpa using h
    simp [decodeReadFIFOQueueResponse, bytes_long h.le, atEnd_more more]

/-- The wire form of a ReadMEI response (R240). -/
def meiBody (a b c d e : Byte) (fields : List MeiField) : List Byte :=
  a :: b :: c :: d :: e :: u8Field fields.length :: encodeMeiFields fields

section mei

variable {a b c d e : Byte} {fields : List MeiField}

/-- A ReadMEI response that breaks off is Truncated (R241). -/
theorem meiResponse_short (count : fields.length ≤ 255) (texts : ∀ f ∈ fields, f.text.length ≤ 255) {given missing : List Byte}
    (some_missing : missing ≠ []) (split : meiBody a b c d e fields = given ++ missing) :
    decodeReadMEIResponse given = .error .truncated := by
  rcases given with _ | ⟨a', _ | ⟨b', _ | ⟨c', _ | ⟨d', _ | ⟨e', _ | ⟨n, given⟩⟩⟩⟩⟩⟩
  · rfl
  · rfl
  · rfl
  · rfl
  · rfl
  · rfl
  · simp only [meiBody, List.cons_append, List.cons.injEq] at split
    obtain ⟨-, -, -, -, -, rfl, split⟩ := split
    simp [decodeReadMEIResponse, count, decodeMeiFields_short fields texts given missing some_missing split]

/-- A ReadMEI response that goes on after its fields is Trailing (R241). -/
theorem meiResponse_long (count : fields.length ≤ 255) (texts : ∀ f ∈ fields, f.text.length ≤ 255) {more : List Byte}
    (some_more : more ≠ []) : decodeReadMEIResponse (meiBody a b c d e fields ++ more) = .error .trailing := by
  simp [meiBody, decodeReadMEIResponse, count, decodeMeiFields_encode fields more texts, atEnd_more some_more]

end mei

/-- Settles O58: each response refuses its body as its format does. -/
theorem responseDecoderChecksEveryLength : Obligations.ResponseDecoderChecksEveryLength := by
  refine ⟨fun functionCode length body row => ?_, fun functionCode row => ?_, fun functionCode row => ?_, fun body h => ?_,
    fifoResponse_checks_length, fun a b c d e fields body count texts form => ?_⟩
  · suffices fixed : FixedResponse functionCode length from fixed body
    simp only [List.mem_cons, Prod.mk.injEq, List.not_mem_nil, or_false] at row
    obtain ⟨rfl, rfl⟩ | ⟨rfl, rfl⟩ | ⟨rfl, rfl⟩ | ⟨rfl, rfl⟩ | ⟨rfl, rfl⟩ | ⟨rfl, rfl⟩ | ⟨rfl, rfl⟩ | ⟨rfl, rfl⟩ := row
    · exact decodeRC_fixed.response (by decide) rfl
    · exact decodeRC_fixed.response (by decide) rfl
    · exact readExceptionStatus_fixedResponse
    · exact decodeRC_fixed.response (by decide) rfl
    · exact decodeRC_fixed.response (by decide) rfl
    · exact decodeRC_fixed.response (by decide) rfl
    · exact decodeRC_fixed.response (by decide) rfl
    · exact decodeMW_fixed.response (by decide) rfl
  · suffices CountedResponse functionCode from this
    simp only [List.mem_cons, List.not_mem_nil, or_false] at row
    obtain rfl | rfl | rfl | rfl | rfl | rfl := row
    · exact countedResponse_of_format (by decide) rfl fun _ _ h => h
    · exact countedResponse_of_format (by decide) rfl fun _ _ h => h
    · exact countedResponse_of_format (by decide) rfl fun _ _ h => h
    · exact countedResponse_of_format (by decide) rfl fun _ _ h => h
    · exact countedResponse_of_format (by decide) rfl fun _ _ h => h
    · exact countedResponse_of_format (by decide) rfl decodeFileWrites_error_of_decodeBC
  · suffices WordsResponse functionCode from this
    simp only [List.mem_cons, List.not_mem_nil, or_false] at row
    obtain rfl | rfl | rfl := row
    · exact wordsResponse_of_format (by decide) rfl
    · exact wordsResponse_of_format (by decide) rfl
    · exact wordsResponse_of_format (by decide) rfl
  · exact decodeResponse_error (by decide) rfl (u16_short h)
  · rw [← encodeMeiFields_eq_flatMap] at form
    have table (input : List Byte) : decodeResponse (0x2B :: input) = decodeReadMEIResponse input :=
      decodeResponse_of_table input (by decide) rfl
    refine ⟨fun given missing some_missing split => ?_, fun more some_more => ?_⟩
    · rw [table]; exact meiResponse_short count texts some_missing (form.symm.trans split)
    · rw [table, form]; exact meiResponse_long count texts some_more

end Sys2Proof.Scope
end

section
/-! SUPPORT. What earlier transactions left in the latches and at the output interface makes no difference (R30, R43, R342): every
part of a transaction runs alike whatever they hold, and a command reads only what it latched itself. -/

namespace Sys2Proof.Scope

open Sys2Proof.Machine

/-! ### Parts of a transaction that read no latch -/

/-- The state with other contents of the latches and of the output interface. -/
def relatch (l : Latches) (o : Option Result) (s : State) : State := { s with latches := l, outcome := o }

/-- The run with these contents in the state it ends in; a reset has overwritten them (R340). -/
def relatchRun {α : Type} (l : Latches) (o : Option Result) : Run α → Run α
  | .ok a s => .ok a (relatch l o s)
  | .raised kind s => .raised kind (relatch l o s)
  | .abandoned s => .abandoned s
  | .fault reason => .fault reason

/-- The part neither reads nor changes the latches and the output interface, but that a reset ends it. -/
def Oblivious {α : Type} (m : Txn α) : Prop := ∀ l o s, m (relatch l o s) = relatchRun l o (m s)

section sequencing

variable {α β : Type}

theorem Oblivious.bind {m : Txn α} {f : α → Txn β} (hm : Oblivious m) (hf : ∀ a, Oblivious (f a)) :
    Oblivious (Txn.bind m f) := by
  intro l o s
  unfold Txn.bind
  rw [hm]
  cases m s with
  | ok a t => exact hf a l o t
  | raised kind t => rfl
  | abandoned t => rfl
  | fault reason => rfl

/-- An oblivious part ends with the latches and the output interface as it found them. -/
theorem Oblivious.relatchRun_eq {m : Txn α} (hm : Oblivious m) (s : State) : relatchRun s.latches s.outcome (m s) = m s :=
  (hm s.latches s.outcome s).symm

theorem oblivious_pure (a : α) : Oblivious (Txn.pure a) := fun _ _ _ => rfl

theorem oblivious_raise (kind : ExceptionKind) : Oblivious (Txn.raise kind : Txn α) := fun _ _ _ => rfl

theorem oblivious_readConfig (parameter : Params → α) : Oblivious (readConfig parameter) := fun _ _ _ => rfl

theorem oblivious_check (holds : Bool) (kind : ExceptionKind) : Oblivious (Txn.check holds kind) := by
  cases holds
  · exact oblivious_raise kind
  · exact oblivious_pure ()

theorem oblivious_applyEvents (slot : List Event) : Oblivious (applyEvents slot) := by
  intro l o
  induction slot with
  | nil => exact fun s => rfl
  | cons event rest ih =>
    intro s
    cases event with
    | write agent w =>
      unfold applyEvents
      rw [← ih, apply_ite (relatch l o)]
      rfl
    | device d =>
      unfold applyEvents
      rw [← ih, apply_ite (relatch l o)]
      rfl
    | reset => rfl

theorem oblivious_otherAgents : Oblivious otherAgents := by
  intro l o s
  unfold otherAgents
  rw [show (relatch l o s).schedule = s.schedule from rfl]
  cases s.schedule with
  | nil => rfl
  | cons slot rest => exact oblivious_applyEvents slot l o (s.withSchedule rest)

/-! ### The accessors -/

/-- An access of an element that exists. -/
theorem oblivious_guarded {present : Params → Bool} {access : Txn α} (h : Oblivious access) :
    Oblivious fun s => if present s.cfg then access s else .fault .addressRange := by
  intro l o s
  change (if present s.cfg then access (relatch l o s) else _) = _
  rw [h, apply_ite (relatchRun l o)]
  rfl

theorem oblivious_memReadBit (space : BitSpace) (a : Nat) : Oblivious (memReadBit space a) :=
  oblivious_otherAgents.bind fun _ => oblivious_guarded (present := fun p => validOne (p.bitSize space) a)
    (access := fun s => .ok (s.image.bit space a) s) fun _ _ _ => rfl

theorem oblivious_memReadWord (space : WordSpace) (a : Nat) : Oblivious (memReadWord space a) :=
  oblivious_otherAgents.bind fun _ => oblivious_guarded (present := fun p => validOne (p.wordSize space) a)
    (access := fun s => .ok (s.image.word space a) s) fun _ _ _ => rfl

theorem oblivious_memReadFile (f r i : Nat) : Oblivious (memReadFile f r i) :=
  oblivious_otherAgents.bind fun _ => oblivious_guarded (present := fun p => p.fileExists f r i)
    (access := fun s => .ok (s.image.fileWord f r i) s) fun _ _ _ => rfl

theorem oblivious_memWrite (w : ElementWrite) : Oblivious (memWrite w) :=
  oblivious_otherAgents.bind fun _ => oblivious_guarded (present := fun p => w.exists p)
    (access := fun s => .ok () (s.write w)) fun _ _ _ => rfl

theorem oblivious_sampleDevice (input : Device → α) : Oblivious (sampleDevice input) :=
  oblivious_otherAgents.bind fun _ _ _ _ => rfl

theorem oblivious_readEach {read : Nat → Txn α} (h : ∀ a, Oblivious (read a)) (n : Nat) :
    ∀ a, Oblivious (readEach read a n) := by
  induction n with
  | zero => exact fun _ => oblivious_pure _
  | succ n ih => exact fun a => (h a).bind fun _ => (ih (a + 1)).bind fun _ => oblivious_pure _

theorem oblivious_writeEach (target : Nat → α → ElementWrite) (vs : List α) :
    ∀ a, Oblivious (writeEach target a vs) := by
  induction vs with
  | nil => exact fun _ => oblivious_pure _
  | cons v vs ih => exact fun a => (oblivious_memWrite _).bind fun _ => ih (a + 1)

/-! ### The dispatches -/

theorem oblivious_checkEach (check : Params → α → Option ExceptionKind) (subs : List α) :
    Oblivious (checkEach check subs) := by
  induction subs with
  | nil => exact oblivious_pure _
  | cons sub rest ih =>
    refine (oblivious_readConfig _).bind fun failed => ?_
    cases failed with
    | some kind => exact oblivious_raise kind
    | none => exact ih

end sequencing

theorem oblivious_readRecords (subs : List FileRead) : Oblivious (readRecords subs) := by
  induction subs with
  | nil => exact oblivious_pure _
  | cons sub rest ih =>
    exact (oblivious_readEach (oblivious_memReadFile _ _) _ _).bind fun _ => ih.bind fun _ => oblivious_pure _

theorem oblivious_writeRecords (subs : List FileWrite) : Oblivious (writeRecords subs) := by
  induction subs with
  | nil => exact oblivious_pure _
  | cons sub rest ih => exact (oblivious_writeEach _ _ _).bind fun _ => ih

theorem oblivious_dispatchReadBits (space : BitSpace) (respondWith : Byte → List Byte → Response) (reference count : U16) :
    Oblivious (dispatchReadBits space respondWith reference count) :=
  (oblivious_readConfig _).bind fun _ => (oblivious_check _ _).bind fun _ => (oblivious_check _ _).bind fun _ =>
  (oblivious_readEach (oblivious_memReadBit _) _ _).bind fun _ => oblivious_pure _

theorem oblivious_dispatchReadWords (space : WordSpace) (respondWith : List U16 → Response) (reference count : U16) :
    Oblivious (dispatchReadWords space respondWith reference count) :=
  (oblivious_readConfig _).bind fun _ => (oblivious_readConfig _).bind fun _ => (oblivious_check _ _).bind fun _ =>
  (oblivious_check _ _).bind fun _ => (oblivious_readEach (oblivious_memReadWord _) _ _).bind fun _ => oblivious_pure _

theorem oblivious_dispatchWriteOne (size : Params → Nat) (target : ElementWrite) (reference : U16) (echo : Response) :
    Oblivious (dispatchWriteOne size target reference echo) :=
  (oblivious_readConfig _).bind fun _ => (oblivious_check _ _).bind fun _ => (oblivious_memWrite _).bind fun _ =>
  oblivious_pure _

theorem oblivious_dispatchWriteMany {α : Type} (size : Params → Nat) (target : Nat → α → ElementWrite) (reference : U16)
    (count : Nat) (values : List α) (echo : Response) :
    Oblivious (dispatchWriteMany size target reference count values echo) :=
  (oblivious_readConfig _).bind fun _ => (oblivious_check _ _).bind fun _ => (oblivious_writeEach _ _ _).bind fun _ =>
  oblivious_pure _

theorem oblivious_dispatchWriteCoil (reference value : U16) : Oblivious (dispatchWriteCoil reference value) :=
  (oblivious_check _ _).bind fun _ => oblivious_dispatchWriteOne _ _ _ _

theorem oblivious_dispatchMaskWrite (reference andMask orMask : U16) :
    Oblivious (dispatchMaskWrite reference andMask orMask) :=
  (oblivious_readConfig _).bind fun _ => (oblivious_check _ _).bind fun _ => (oblivious_memReadWord _ _).bind fun _ =>
  (oblivious_memWrite _).bind fun _ => oblivious_pure _

theorem oblivious_dispatchReadWrite (readRef readCount writeRef : U16) (values : List U16) :
    Oblivious (dispatchReadWrite readRef readCount writeRef values) :=
  (oblivious_readConfig _).bind fun _ => (oblivious_readConfig _).bind fun _ => (oblivious_check _ _).bind fun _ =>
  (oblivious_check _ _).bind fun _ => (oblivious_check _ _).bind fun _ => (oblivious_writeEach _ _ _).bind fun _ =>
  (oblivious_readEach (oblivious_memReadWord _) _ _).bind fun _ => oblivious_pure _

theorem oblivious_dispatchExceptionStatus : Oblivious dispatchExceptionStatus :=
  (oblivious_sampleDevice _).bind fun _ => oblivious_pure _

theorem oblivious_dispatchDiagnostics (subFunction data : U16) : Oblivious (dispatchDiagnostics subFunction data) :=
  (oblivious_readConfig _).bind fun _ => oblivious_pure _

theorem oblivious_dispatchEventCounter : Oblivious dispatchEventCounter :=
  (oblivious_sampleDevice _).bind fun _ => (oblivious_sampleDevice _).bind fun _ => oblivious_pure _

theorem oblivious_dispatchEventLog : Oblivious dispatchEventLog :=
  (oblivious_sampleDevice _).bind fun _ => (oblivious_sampleDevice _).bind fun _ => (oblivious_sampleDevice _).bind fun _ =>
  (oblivious_sampleDevice _).bind fun _ => oblivious_pure _

theorem oblivious_dispatchSlaveID : Oblivious dispatchSlaveID :=
  (oblivious_sampleDevice _).bind fun _ => (oblivious_sampleDevice _).bind fun _ => (oblivious_sampleDevice _).bind fun _ =>
  oblivious_pure _

theorem oblivious_dispatchReadFile (subs : List FileRead) : Oblivious (dispatchReadFile subs) :=
  (oblivious_checkEach _ _).bind fun _ => (oblivious_check _ _).bind fun _ => (oblivious_readRecords _).bind fun _ =>
  oblivious_pure _

theorem oblivious_dispatchWriteFile (subs : List FileWrite) : Oblivious (dispatchWriteFile subs) :=
  (oblivious_checkEach _ _).bind fun _ => (oblivious_writeRecords _).bind fun _ => oblivious_pure _

theorem oblivious_dispatchFifo (reference : U16) : Oblivious (dispatchFifo reference) :=
  (oblivious_readConfig _).bind fun _ => (oblivious_check _ _).bind fun _ => (oblivious_memReadWord _ _).bind fun _ =>
  (oblivious_check _ _).bind fun _ => (oblivious_check _ _).bind fun _ =>
  (oblivious_readEach (oblivious_memReadWord _) _ _).bind fun _ => oblivious_pure _

theorem oblivious_dispatchMEI (subCode fieldLevel fieldId : Byte) : Oblivious (dispatchMEI subCode fieldLevel fieldId) := by
  refine (oblivious_check _ _).bind fun _ => (oblivious_readConfig _).bind fun answer => ?_
  cases answer with
  | illegalAddress => exact oblivious_raise _
  | illegalValue => exact oblivious_raise _
  | objects _ _ _ _ => exact oblivious_pure _

/-- No instruction's dispatch reads a latch. -/
theorem oblivious_dispatchOf (i : Instr) : Oblivious (dispatchOf i) := by
  cases i with
  | readCoils reference count => exact oblivious_dispatchReadBits _ _ _ _
  | readInputDiscretes reference count => exact oblivious_dispatchReadBits _ _ _ _
  | readMultipleRegisters reference count => exact oblivious_dispatchReadWords _ _ _ _
  | readInputRegisters reference count => exact oblivious_dispatchReadWords _ _ _ _
  | writeCoil reference value => exact oblivious_dispatchWriteCoil _ _
  | writeSingleRegister reference value => exact oblivious_dispatchWriteOne _ _ _ _
  | readExceptionStatus => exact oblivious_dispatchExceptionStatus
  | readSerialDiagnostics subFunction data => exact oblivious_dispatchDiagnostics _ _
  | readCommEventCounter => exact oblivious_dispatchEventCounter
  | readCommEventLog => exact oblivious_dispatchEventLog
  | writeMultipleCoils reference count data => exact oblivious_dispatchWriteMany _ _ _ _ _ _
  | writeMultipleRegisters reference values => exact oblivious_dispatchWriteMany _ _ _ _ _ _
  | reportSlaveID => exact oblivious_dispatchSlaveID
  | readFileRecord subs => exact oblivious_dispatchReadFile _
  | writeFileRecord subs => exact oblivious_dispatchWriteFile _
  | maskWriteRegister reference andMask orMask => exact oblivious_dispatchMaskWrite _ _ _
  | readWriteMultiple readRef readCount writeRef values => exact oblivious_dispatchReadWrite _ _ _ _
  | readFIFOQueue reference => exact oblivious_dispatchFifo _
  | readMEI subCode fieldLevel fieldId => exact oblivious_dispatchMEI _ _ _

/-! ### The end of a transaction -/

/-- The end of a command overwrites the latches and the output interface (R42, R43). -/
theorem complete_relatch (result : Result) (l : Latches) (o : Option Result) (s : State) :
    complete result (relatch l o s) = complete result s := by
  unfold complete
  rw [oblivious_otherAgents]
  cases otherAgents s <;> rfl

/-- Encoding the answer reads no latch but the header. -/
theorem emitPdu_relatch (pdu : List Byte) {l : Latches} (o : Option Result) {s : State}
    (header : l.header = s.latches.header) : emitPdu pdu (relatch l o s) = emitPdu pdu s := by
  unfold emitPdu
  rw [show (relatch l o s).latches.header = s.latches.header from header]
  cases encodeADU (responseHeader s.latches.header pdu) pdu with
  | error reason => exact complete_relatch _ _ _ _
  | ok adu => exact complete_relatch _ { l with output := adu } o (s.latchOutput adu)

/-- Concluding reads no latch but the header. -/
theorem conclude_relatch (response : Response) {l : Latches} (o : Option Result) {s : State}
    (header : l.header = s.latches.header) : conclude response (relatch l o s) = conclude response s := by
  have latched : (relatch l o s).latchResponse response =
      relatch { l with response := some response } o (s.latchResponse response) := rfl
  unfold conclude
  rw [latched]
  cases encodeResponse response with
  | error reason => exact complete_relatch _ _ _ _
  | ok pdu => exact emitPdu_relatch pdu o header

/-- An instruction reads no latch but the header. -/
theorem exec_relatch (i : Instr) {l : Latches} (o : Option Result) {s : State} (header : l.header = s.latches.header) :
    exec i (relatch l o s) = exec i s := by
  have oblivious := oblivious_dispatchOf i
  have kept := oblivious.relatchRun_eq s
  rw [exec_eq_respond, exec_eq_respond]
  unfold respond
  rw [oblivious]
  cases h : dispatchOf i s with
  | ok response t =>
    rw [h] at kept
    injection kept with _ same
    exact conclude_relatch response o (header.trans (congrArg (·.latches.header) same))
  | raised kind t =>
    rw [h] at kept
    injection kept with _ same
    exact conclude_relatch _ o (header.trans (congrArg (·.latches.header) same))
  | abandoned t => rfl
  | fault reason => rfl

/-! ### The commands -/

/-- A SERVE latches the header it answers under, so nothing of an earlier one remains (R43). -/
theorem serve_relatch (headless : Bool) (input : List Byte) (l : Latches) (o : Option Result) (s : State) :
    serve headless input (relatch l o s) = serve headless input s := by
  unfold serve
  cases decodeRequestADU headless input with
  | error reason => exact complete_relatch _ _ _ _
  | ok v =>
    obtain ⟨header, request⟩ := v
    have latched : (relatch l o s).latchRequest header request input.length =
        relatch { l with header := header, request := some request, cursor := input.length } o
          (s.latchRequest header request input.length) := rfl
    simp only [latched]
    cases request with
    | instr i => exact exec_relatch i o rfl
    | illegalFunction functionCode => exact conclude_relatch _ o rfl

theorem completeEncode_relatch (encoded : Except ConstructReason (List Byte)) (l : Latches) (o : Option Result) (s : State) :
    completeEncode encoded (relatch l o s) = completeEncode encoded s := by
  cases encoded with
  | error reason => exact complete_relatch _ _ _ _
  | ok adu => exact complete_relatch _ { l with output := adu } o (s.latchOutput adu)

theorem runCommand_relatch (command : Command) (l : Latches) (o : Option Result) (s : State) :
    runCommand command (relatch l o s) = runCommand command s := by
  cases command with
  | serve headless input => exact serve_relatch headless input l o s
  | decReq headless input =>
    simp only [runCommand, decReq]
    cases decodeRequestADU headless input with
    | error reason => exact complete_relatch _ _ _ _
    | ok v =>
      exact complete_relatch _ { l with header := v.1, request := some v.2, cursor := input.length } o (s.latchRequest _ _ _)
  | encRsp headless header record =>
    exact completeEncode_relatch _
      { l with header := headerFor headless header, response := some record, cursor := 0 } o
      ((s.latchHeader _ _).latchResponse _)
  | encReq headless header record =>
    exact completeEncode_relatch _
      { l with header := headerFor headless header, request := some (.instr record.instr), cursor := 0 } o
      (s.latchRequest _ _ _)
  | decRsp headless input =>
    simp only [runCommand, decRsp]
    cases decodeResponseADU headless input with
    | error reason => exact complete_relatch _ _ _ _
    | ok v =>
      exact complete_relatch _ { l with header := v.1, response := some v.2, cursor := input.length } o
        ((s.latchHeader _ _).latchResponse _)

/-- Settles O26: the command at the port runs alike from the relatched state. -/
theorem noTransactionDependsOnAnEarlierOne : Obligations.NoTransactionDependsOnAnEarlierOne := by
  intro s l o some_command
  unfold step
  cases commands : s.commands with
  | nil => exact absurd commands some_command
  | cons command rest => exact runCommand_relatch command l o { s with commands := rest }

end Sys2Proof.Scope
end

section
/-! SUPPORT. The frame of the instructions: what they leave unchanged whatever the other agents do, and which spaces they write
(R35, R36, R43, R64). -/

namespace Sys2Proof.Scope

open Sys2Proof.Machine

variable {i : Instr} {s t : State}

/-! ### What an instruction keeps -/

/-- An instruction has one next state, so what `exec_next` finds holds in it. -/
theorem exec_holds {c : Params} {P Q R : State → Prop} (followed : Followed c P Q) (latching : LatchStable P)
    (own : KeepsWrites c P (writeTargets i)) (finished : ∀ s result, P s → R (s.finish result)) (reset : ∀ s, Q s → R s)
    (start : P s) (next : exec i s = .next t) : R t := by
  obtain ⟨t', next', holds⟩ := exec_next i followed latching own finished reset s start
  rw [next] at next'
  cases next'
  exact holds

/-- The configuration and the commands to come are unchanged, and no latch survives (R35, R43). -/
theorem exec_keeps_ports (next : exec i s = .next t) :
    t.cfg = s.cfg ∧ t.commands = s.commands ∧ t.latches = Latches.idle := by
  have stable : Stable (fun u => u.cfg = s.cfg ∧ u.commands = s.commands)
      fun u => u.cfg = s.cfg ∧ u.commands = s.commands ∧ u.latches = Latches.idle :=
    stable_of_events (fun _ _ _ h _ => h) (fun _ _ _ h _ => h) (fun _ _ h _ => h) fun _ _ ⟨cfg, commands⟩ =>
      ⟨cfg, commands, rfl⟩
  exact exec_holds ⟨fun _ h => h.1, stable⟩ (latchStable_of_latches fun _ _ h => h) (fun _ _ h _ _ => h)
    (fun _ _ ⟨cfg, commands⟩ => ⟨cfg, commands, rfl⟩) (fun _ h => h) ⟨rfl, rfl⟩ next

/-- With no other agent active the device inputs and the schedule are unchanged (R44). -/
theorem exec_keeps_inputs (quiet : s.schedule = []) (next : exec i s = .next t) : t.dev = s.dev ∧ t.schedule = [] := by
  have stable : Stable (fun u => u.cfg = s.cfg ∧ u.dev = s.dev ∧ u.schedule = []) fun _ => False := by
    intro u ⟨cfg, dev, slots⟩
    rw [otherAgents_quiet u slots]
    exact ⟨cfg, dev, slots⟩
  exact exec_holds (R := fun u => u.dev = s.dev ∧ u.schedule = []) ⟨fun _ h => h.1, stable⟩
    (latchStable_of_latches fun _ _ h => h) (fun _ _ h _ _ => h) (fun _ _ h => h.2) (fun _ h => h.elim)
    ⟨rfl, rfl, quiet⟩ next

/-- What the instruction's own writes and those of the events to come keep, the instruction keeps. -/
theorem exec_keeps_image {I : Image → Prop} (next : exec i s = .next t)
    (own : ∀ im w, I im → w.exists s.cfg = true → writeTargets i w.element → I (im.write w))
    (others : ∀ im agent w, I im → (∃ slot ∈ s.schedule, Event.write agent w ∈ slot) →
      writePossible s.cfg agent w = true → I (im.write w))
    (start : I s.image) : I t.image := by
  have stable : Stable (fun u => u.cfg = s.cfg ∧ (∀ slot ∈ u.schedule, slot ∈ s.schedule) ∧ I u.image)
      fun u => I u.image := by
    refine stable_of_schedule s.schedule (fun _ h => h.2.1) ?_ ?_ (fun _ _ h _ _ => h) fun _ _ h _ => h.2.2
    · intro u slot rest ⟨cfg, slots, image⟩ split
      exact ⟨cfg, fun x hx => slots x (by rw [split]; exact List.mem_cons_of_mem _ hx), image⟩
    · intro u agent w ⟨cfg, slots, image⟩ event possible
      exact ⟨cfg, slots, others _ agent w image event (cfg ▸ possible)⟩
  exact exec_holds (R := fun u => I u.image) ⟨fun _ h => h.1, stable⟩ (latchStable_of_latches fun _ _ h => h)
    (fun _ w ⟨cfg, slots, image⟩ present target => ⟨cfg, slots, own _ w image present target⟩)
    (fun _ _ h => h.2.2) (fun _ h => h) ⟨rfl, fun _ h => h, start⟩ next

/-! ### Single elements -/

/-- An element that neither the instruction nor an event writes keeps its value. -/
theorem exec_keeps_element (next : exec i s = .next t) (params : s.cfg.wf = true) (canonical : s.image.wf = true)
    {e : Element} (present : e.present s.cfg = true) (spared : ¬ writeTargets i e) (alone : s.LeftAlone e) :
    t.image.element e = s.image.element e := by
  have written : ∀ (im : Image) (w : ElementWrite), (im.wf = true ∧ im.element e = s.image.element e) →
      w.exists s.cfg = true → w.element ≠ e → (im.write w).wf = true ∧ (im.write w).element e = s.image.element e :=
    fun im w ⟨wf, value⟩ exists_ other =>
      ⟨Image.wf_write im wf w, (Image.element_write params im wf w e exists_ present other).trans value⟩
  refine (exec_keeps_image (I := fun im => im.wf = true ∧ im.element e = s.image.element e) next ?_ ?_
    ⟨canonical, rfl⟩).2
  · intro im w kept exists_ target
    exact written im w kept exists_ fun same => spared (same ▸ target)
  · intro im agent w kept ⟨slot, mem, event⟩ possible
    exact written im w kept (exists_of_writePossible possible) (alone slot mem agent w event)

/-- Settles O29: the ports, the inputs and the image each by what an instruction keeps. -/
theorem instructionFrame : Obligations.InstructionFrame := by
  intro i s t next
  obtain ⟨cfg, commands, latches⟩ := exec_keeps_ports next
  exact ⟨cfg, commands, latches, fun quiet => exec_keeps_inputs quiet next,
    fun params canonical _ present spared alone => exec_keeps_element next params canonical present spared alone⟩

/-! ### Whole spaces -/

/-- A write that a function code may make leaves DI and IR alone (R36). -/
theorem write_byFunctionCode {w : ElementWrite} (h : w.byFunctionCode = true) (im : Image) :
    (im.write w).di = im.di ∧ (im.write w).ir = im.ir := by
  cases w with
  | di a v => cases h
  | coil a v => exact ⟨rfl, rfl⟩
  | ir a v => cases h
  | hr a v => exact ⟨rfl, rfl⟩
  | file f r i v => exact ⟨rfl, rfl⟩

/-- Another engine writes only what some function code may write (R36, R315). -/
theorem byFunctionCode_of_writePossible {p : Params} {k : Nat} {w : ElementWrite}
    (h : writePossible p (.engine k) w = true) : w.byFunctionCode = true := by
  simp only [writePossible, Bool.and_eq_true] at h
  obtain ⟨⟨⟨-, byCode⟩, -⟩, -⟩ := h
  exact byCode

/-- DI and IR are unchanged while the application leaves them alone. -/
theorem exec_keeps_inputSpaces (next : exec i s = .next t)
    (application : ∀ slot ∈ s.schedule, ∀ w, Event.write .application w ∈ slot → w.byFunctionCode = true) :
    t.image.di = s.image.di ∧ t.image.ir = s.image.ir := by
  have written : ∀ (im : Image) (w : ElementWrite), (im.di = s.image.di ∧ im.ir = s.image.ir) → w.byFunctionCode = true →
      (im.write w).di = s.image.di ∧ (im.write w).ir = s.image.ir := by
    intro im w ⟨di, ir⟩ byCode
    obtain ⟨di', ir'⟩ := write_byFunctionCode byCode im
    exact ⟨di'.trans di, ir'.trans ir⟩
  refine exec_keeps_image (I := fun im => im.di = s.image.di ∧ im.ir = s.image.ir) next ?_ ?_ ⟨rfl, rfl⟩
  · exact fun im w kept _ target => written im w kept (writeTargets_byFunctionCode i w target)
  · intro im agent w kept ⟨slot, mem, event⟩ possible
    cases agent with
    | application => exact written im w kept (application slot mem w event)
    | engine k => exact written im w kept (byFunctionCode_of_writePossible possible)

/-- With no other agent active, what has changed in the image was changed by a write to a target of the instruction. -/
theorem exists_target_of_changed {α : Type} (space : Image → α) (next : exec i s = .next t) (quiet : s.schedule = [])
    (changed : space t.image ≠ space s.image) :
    ∃ im w, writeTargets i w.element ∧ space (im.write w) ≠ space im := by
  by_contra unchanged
  refine changed (exec_keeps_image (I := fun im => space im = space s.image) next ?_ ?_ rfl)
  · intro im w kept _ target
    have same : space (im.write w) = space im := by
      by_contra other
      exact unchanged ⟨im, w, target, other⟩
    exact same.trans kept
  · intro im agent w _ ⟨slot, mem, _⟩
    rw [quiet] at mem
    cases mem

/-- Only a write to a coil changes COIL. -/
theorem coil_of_changed {im : Image} {w : ElementWrite} (h : (im.write w).coil ≠ im.coil) : ∃ a, w.element = .coil a := by
  cases w with
  | coil a v => exact ⟨a, rfl⟩
  | _ => exact absurd rfl h

/-- Only a write to a holding register changes HR. -/
theorem hr_of_changed {im : Image} {w : ElementWrite} (h : (im.write w).hr ≠ im.hr) : ∃ a, w.element = .hr a := by
  cases w with
  | hr a v => exact ⟨a, rfl⟩
  | _ => exact absurd rfl h

/-- Only a write to a file register changes FILE. -/
theorem file_of_changed {im : Image} {w : ElementWrite} (h : (im.write w).file ≠ im.file) :
    ∃ f r k, w.element = .file f r k := by
  cases w with
  | file f r k v => exact ⟨f, r, k, rfl⟩
  | _ => exact absurd rfl h

/-- The instructions with coils among their targets (R36). -/
theorem writes_coils {a : Nat} (h : writeTargets i (.coil a)) :
    (∃ a b, i = .writeCoil a b) ∨ ∃ a b c, i = .writeMultipleCoils a b c := by
  cases i <;> simp [writeTargets] at h ⊢

/-- The instructions with holding registers among their targets (R36). -/
theorem writes_registers {a : Nat} (h : writeTargets i (.hr a)) :
    (∃ a b, i = .writeSingleRegister a b) ∨ (∃ a b, i = .writeMultipleRegisters a b) ∨
      (∃ a b c, i = .maskWriteRegister a b c) ∨ ∃ a b c d, i = .readWriteMultiple a b c d := by
  cases i <;> simp [writeTargets] at h ⊢

/-- The instructions with file registers among their targets (R36). -/
theorem writes_files {f r k : Nat} (h : writeTargets i (.file f r k)) : ∃ a, i = .writeFileRecord a := by
  cases i <;> simp [writeTargets] at h ⊢

/-- Settles O30: a space that has changed holds a target of the instruction, and only the instructions named have targets in it. -/
theorem onlyTheNamedFunctionCodesWrite : Obligations.OnlyTheNamedFunctionCodesWrite := by
  intro i s t next
  refine ⟨exec_keeps_inputSpaces next, fun quiet => ⟨fun changed => ?_, fun changed => ?_, fun changed => ?_⟩⟩
  · obtain ⟨im, w, target, other⟩ := exists_target_of_changed Image.coil next quiet changed
    obtain ⟨a, coil⟩ := coil_of_changed other
    exact writes_coils (coil ▸ target)
  · obtain ⟨im, w, target, other⟩ := exists_target_of_changed Image.hr next quiet changed
    obtain ⟨a, register⟩ := hr_of_changed other
    exact writes_registers (register ▸ target)
  · obtain ⟨im, w, target, other⟩ := exists_target_of_changed Image.file next quiet changed
    obtain ⟨f, r, k, register⟩ := file_of_changed other
    exact writes_files (register ▸ target)

end Sys2Proof.Scope
end

section
/-! SUPPORT. The four commands that make no image access, as their codecs (R40, R133, R135, R261, R267, R268, R270), and the reset
state (R47, R340). -/

namespace Sys2Proof.Scope

open Sys2Proof.Machine

/-! ### The commands -/

section commands

variable {s : State}

theorem step_of_commands {command : Command} {rest : List Command} (h : s.commands = command :: rest) :
    step s = runCommand command { s with commands := rest } := by
  rw [step, h]

/-- DEC_REQ with no other agent active: the whole next state. -/
theorem decReq_quiet (quiet : s.schedule = []) (headless : Bool) (input : List Byte) :
    decReq headless input s = .next (s.finish (match decodeRequestADU headless input with
      | .ok v => .ok (.request v.1 v.2)
      | .error reason => .decodeError reason)) := by
  unfold decReq
  cases decodeRequestADU headless input with
  | error reason => exact complete_quiet _ _ quiet
  | ok v => exact complete_quiet _ _ quiet

/-- DEC_RSP with no other agent active: the whole next state. -/
theorem decRsp_quiet (quiet : s.schedule = []) (headless : Bool) (input : List Byte) :
    decRsp headless input s = .next (s.finish (match decodeResponseADU headless input with
      | .ok v => .ok (.response v.1 v.2)
      | .error reason => .decodeError reason)) := by
  unfold decRsp
  cases decodeResponseADU headless input with
  | error reason => exact complete_quiet _ _ quiet
  | ok v => exact complete_quiet _ _ quiet

/-- The end of an encode with no other agent active: the whole next state. -/
theorem completeEncode_quiet (quiet : s.schedule = []) (encoded : Except ConstructReason (List Byte)) :
    completeEncode encoded s = .next (s.finish (match encoded with
      | .ok adu => .ok (.bytes adu)
      | .error reason => .constructError reason)) := by
  cases encoded with
  | error reason => exact complete_quiet _ _ quiet
  | ok adu => exact complete_quiet _ _ quiet

/-- ENC_REQ with no other agent active: the whole next state. -/
theorem encReq_quiet (quiet : s.schedule = []) (headless : Bool) (header : HeaderFields) (record : RequestRecord) :
    encReq headless header record s = .next (s.finish (match encodeRequestADU s.cfg headless header record with
      | .ok adu => .ok (.bytes adu)
      | .error reason => .constructError reason)) :=
  completeEncode_quiet (by exact quiet) _

/-- ENC_RSP with no other agent active: the whole next state. -/
theorem encRsp_quiet (quiet : s.schedule = []) (headless : Bool) (header : HeaderFields) (record : Response) :
    encRsp headless header record s = .next (s.finish (match encodeResponseADU headless header record with
      | .ok adu => .ok (.bytes adu)
      | .error reason => .constructError reason)) :=
  completeEncode_quiet (by exact quiet) _

end commands

/-- Settles O19: each command by its codec, and each codec by its header and PDU parts. -/
theorem codecCommandsOnlyGiveTheirOutcome : Obligations.CodecCommandsOnlyGiveTheirOutcome := by
  refine ⟨fun s rest headless input h request response quiet => ⟨?_, ?_, ?_, ?_⟩, ?_, ?_⟩
  · exact fun decReq => (step_of_commands decReq).trans (decReq_quiet (s := { s with commands := rest }) quiet _ _)
  · exact fun decRsp => (step_of_commands decRsp).trans (decRsp_quiet (s := { s with commands := rest }) quiet _ _)
  · exact fun encReq => (step_of_commands encReq).trans (encReq_quiet (s := { s with commands := rest }) quiet _ _ _)
  · exact fun encRsp => (step_of_commands encRsp).trans (encRsp_quiet (s := { s with commands := rest }) quiet _ _ _)
  · intro headless input
    refine ⟨fun reason noHeader => ?_, fun header pdu split => ⟨fun i instr => ?_, fun functionCode illegal => ?_,
      fun reason malformed => ?_, fun record response => ?_, fun reason malformed => ?_⟩⟩
    · simp [decodeRequestADU, decodeResponseADU, noHeader]
    · simp [decodeRequestADU, split, instr]
    · simp [decodeRequestADU, split, illegal]
    · simp [decodeRequestADU, split, malformed]
    · simp [decodeResponseADU, split, response]
    · simp [decodeResponseADU, split, malformed]
  · intro p headless h request response
    refine ⟨fun pdu built => ?_, fun reason refused => ?_, fun pdu built => ?_, fun reason refused => ?_⟩
    · simp [encodeRequestADU, built, headerFor]
    · simp [encodeRequestADU, refused]
    · simp [encodeResponseADU, built, headerFor]
    · simp [encodeResponseADU, refused]

/-! ### The reset state -/

/-- Settles O25: the parameters are in their domains and the image lists no element. -/
theorem resetHasTheInvariant : Obligations.ResetHasTheInvariant where
  params := by decide
  device := by decide
  canonical := reset_image_wf
  inside := by decide
  idle := rfl

end Sys2Proof.Scope
end

section
/-! SUPPORT. What an exception answer says of the image, and what a read sees of the writes that fall between its accesses
(R68, R70, R72, R307). -/

namespace Sys2Proof.Scope

open Sys2Proof.Machine

/-! ### An exception is raised before the first write -/

section exceptions

variable {i : Instr} {s t : State} {code : Byte} {I : Image → Prop}

/-- An instruction that answers with an exception response has raised one: no normal response begins with `fc | 0x80`. -/
theorem raised_of_exceptionAnswer (next : exec i s = .next t)
    (answer : t.outcome = some (.ok (.bytes (aduOf s.latches.header (exceptionPdu i.functionCode code))))) :
    ∃ kind u, dispatchOf i s = .raised kind u := by
  rcases exec_outcome next with
    reset | ⟨reason, refused⟩ | ⟨kind, u, raised, -⟩ | ⟨response, u, pdu, given, encoded, -, normal⟩
  · rw [reset] at answer
    cases answer
  · rw [refused] at answer
    cases answer
  · exact ⟨kind, u, raised⟩
  · rw [normal] at answer
    have same : pdu = exceptionPdu i.functionCode code := aduOf_injective (by simpa using answer)
    exact absurd same (response_ne_exception code (dispatchOf_code i s response u given) encoded)

/-- In the course of a command that has written nothing: the configuration is `s`'s, only slots of `s` are still to come, and
`I` holds of the image. -/
structure Unwritten (s : State) (I : Image → Prop) (u : State) : Prop where
  cfg : u.cfg = s.cfg
  slots : ∀ slot ∈ u.schedule, slot ∈ s.schedule
  image : I u.image

/-- What the events to come keep of the image, the other agents keep; a reset leaves no outcome (R340). -/
theorem stable_unwritten
    (others : ∀ im agent w, I im → (∃ slot ∈ s.schedule, Event.write agent w ∈ slot) →
      writePossible s.cfg agent w = true → I (im.write w)) :
    Stable (Unwritten s I) fun u => u.outcome = none := by
  refine stable_of_schedule s.schedule (fun _ h => h.slots) ?_ ?_ (fun _ _ h _ _ => ⟨h.cfg, h.slots, h.image⟩)
    fun _ _ _ _ => rfl
  · intro u slot rest ⟨cfg, slots, image⟩ split
    exact ⟨cfg, fun x hx => slots x (by rw [split]; exact List.mem_cons_of_mem _ hx), image⟩
  · intro u agent w ⟨cfg, slots, image⟩ event possible
    exact ⟨cfg, slots, others _ agent w image event (cfg ▸ possible)⟩

/-- What the events to come keep of the image holds where a dispatch has raised an exception: its own writes come after every
check (R70). -/
theorem unwritten_of_raised {kind : ExceptionKind} {u : State} (raised : dispatchOf i s = .raised kind u)
    (stable : Stable (Unwritten s I) fun u => u.outcome = none) (start : I s.image) : Unwritten s I u := by
  have afterwards : Stable (fun u => u.cfg = s.cfg) fun u => u.outcome = none :=
    stable_of_events (fun _ _ _ h _ => h) (fun _ _ _ h _ => h) (fun _ _ h _ => h) fun _ _ _ => rfl
  have precise : Precise s.cfg (Unwritten s I) (fun u => u.cfg = s.cfg) fun u => u.outcome = none :=
    ⟨⟨fun _ h => h.cfg, stable⟩, ⟨fun _ h => h, afterwards⟩, fun _ h => h.cfg⟩
  have ends := dispatchOf_triple i precise (fun _ _ h _ _ => h) s ⟨rfl, fun _ h => h, start⟩
  rw [raised] at ends
  exact ends

/-- What the events to come keep of the image holds after an instruction that answers with an exception (R70, R307). -/
theorem exceptionAnswer_keeps_image (next : exec i s = .next t)
    (answer : t.outcome = some (.ok (.bytes (aduOf s.latches.header (exceptionPdu i.functionCode code)))))
    (others : ∀ im agent w, I im → (∃ slot ∈ s.schedule, Event.write agent w ∈ slot) →
      writePossible s.cfg agent w = true → I (im.write w))
    (start : I s.image) : I t.image := by
  have stable := stable_unwritten others
  obtain ⟨kind, u, raised⟩ := raised_of_exceptionAnswer next answer
  have latching : LatchStable (Unwritten s I) := latchStable_of_latches fun _ _ h => ⟨h.cfg, h.slots, h.image⟩
  obtain ⟨t', taken, ended⟩ := conclude_next (R := fun v => v.outcome = none ∨ I v.image) stable latching
    (fun _ _ h => .inr h.image) (fun _ h => .inl h) (.exception (withoutExceptionBit i.functionCode) kind.code) u
    (unwritten_of_raised raised stable start)
  rw [exec_eq_respond, respond_raised raised, takeException, taken] at next
  cases next
  rcases ended with reset | kept
  · rw [reset] at answer
    cases answer
  · exact kept

/-- Settles O31: no event makes a write at all, or none to this element, and the instruction has made none. -/
theorem exceptionsArePrecise : Obligations.ExceptionsArePrecise := by
  intro i s t code next answer
  refine ⟨fun quiet => ?_, fun params canonical e present alone => ?_⟩
  · refine exceptionAnswer_keeps_image (I := fun im => im = s.image) next answer ?_ rfl
    intro im agent w _ ⟨slot, mem, _⟩
    rw [quiet] at mem
    cases mem
  · refine (exceptionAnswer_keeps_image (I := fun im => im.wf = true ∧ im.element e = s.image.element e) next answer ?_
      ⟨canonical, rfl⟩).2
    intro im agent w ⟨wf, value⟩ ⟨slot, mem, event⟩ possible
    have other := Image.element_write params im wf w e (exists_of_writePossible possible) present
      (alone slot mem agent w event)
    exact ⟨Image.wf_write im wf w, other.trans value⟩

end exceptions

/-! ### A read between the writes of another agent -/

section interleaving

variable {s u t : State} {reference count : U16}

/-- The next slot of the schedule is what the other agents do. -/
theorem otherAgents_of_schedule {slot : List Event} {rest : List (List Event)} (h : s.schedule = slot :: rest) :
    otherAgents s = applyEvents slot (s.withSchedule rest) := by
  simp [otherAgents, h]

/-- The application may write any element that exists (R36, R65). -/
theorem applyEvents_application {w : ElementWrite} (rest : List Event) (h : w.exists s.cfg = true) :
    applyEvents (.write .application w :: rest) s = applyEvents rest (s.write w) := by
  simp [applyEvents, writePossible, h]

/-- A register read gives what the other agents have left in the register (R66, R68). -/
theorem memReadWord_after_others (others : otherAgents s = .ok () u) {space : WordSpace} {a : Nat}
    (inside : a < u.cfg.wordSize space) : memReadWord space a s = .ok (u.image.word space a) u := by
  rw [memReadWord, Txn.bind_ok others]
  simp [validOne, inside]

/-- Two reads, the second in the state the first left (R69). -/
theorem readEach_two {α : Type} {read : Nat → Txn α} {a : Nat} {v w : α} (first : read a s = .ok v u)
    (second : read (a + 1) u = .ok w t) : readEach read a 2 s = .ok [v, w] t := by
  have rest : readEach read (a + 1) 1 u = .ok [w] t := by
    rw [readEach, Txn.bind_ok second]
    rfl
  rw [readEach, Txn.bind_ok first, Txn.bind_ok rest]
  rfl

/-- A register read whose checks pass responds with what its reads gave, whatever the other agents did meanwhile (R154, R156). -/
theorem dispatchReadWords_of_reads {space : WordSpace} {respondWith : List U16 → Response} {values : List U16}
    (cap : count.toNat ≤ s.cfg.maxReadRegs) (inside : validRead (s.cfg.wordSize space) reference.toNat count.toNat = true)
    (reads : readEach (memReadWord space) reference.toNat count.toNat s = .ok values u) :
    dispatchReadWords space respondWith reference count s = .ok (respondWith values) u := by
  rw [dispatchReadWords, Txn.readConfig_bind, Txn.readConfig_bind, Txn.check_bind _ _ _ (decide_eq_true cap),
    Txn.check_bind _ _ _ inside, Txn.bind_ok reads]
  rfl

/-- The application writes these two neighbouring holding registers. -/
def pairWrites (a : Nat) (first second : U16) : List Event :=
  [.write .application (.hr a first), .write .application (.hr (a + 1) second)]

/-- The application has written these two neighbouring holding registers, and nothing else is to come. -/
def pairWritten (s : State) (a : Nat) (first second : U16) : State :=
  ((s.withSchedule []).write (.hr a first)).write (.hr (a + 1) second)

theorem pairWritten_first (canonical : s.image.wf = true) (a : Nat) (first second : U16) :
    (pairWritten s a first second).image.word .hr a = first := by
  have written : (s.image.write (.hr a first)).wf = true := Image.wf_write _ canonical _
  simp [pairWritten, canonical, written]

theorem pairWritten_second (canonical : s.image.wf = true) (a : Nat) (first second : U16) :
    (pairWritten s a first second).image.word .hr (a + 1) = second := by
  have written : (s.image.write (.hr a first)).wf = true := Image.wf_write _ canonical _
  simp [pairWritten, written]

/-- Both writes take effect at the point whose slot they are. -/
theorem otherAgents_writesPair {a : Nat} {first second : U16} (inside : a + 2 ≤ s.cfg.nHR)
    (slots : s.schedule = [pairWrites a first second]) : otherAgents s = .ok () (pairWritten s a first second) := by
  have firstExists : (ElementWrite.hr a first).exists s.cfg = true := (validOne_iff _ _).mpr (by omega)
  have secondExists : (ElementWrite.hr (a + 1) second).exists s.cfg = true := (validOne_iff _ _).mpr (by omega)
  calc
    otherAgents s = applyEvents _ (s.withSchedule []) := otherAgents_of_schedule slots
    _ = applyEvents _ ((s.withSchedule []).write (.hr a first)) := applyEvents_application _ firstExists
    _ = applyEvents [] (pairWritten s a first second) := applyEvents_application _ secondExists

/-- Where the application writes both registers between the two reads, the first read gives the old value and the second the new
one (R68, R72). -/
theorem readPair_interleaved {a : Nat} {first second : U16} (canonical : s.image.wf = true) (inside : a + 2 ≤ s.cfg.nHR)
    (slots : s.schedule = [[], pairWrites a first second]) :
    readEach (memReadWord .hr) a 2 s = .ok [s.image.word .hr a, second] (pairWritten s a first second) := by
  have before : otherAgents s = .ok () (s.withSchedule [pairWrites a first second]) := otherAgents_of_schedule slots
  have between : otherAgents (s.withSchedule [pairWrites a first second]) = .ok () (pairWritten s a first second) :=
    otherAgents_writesPair inside rfl
  refine readEach_two (memReadWord_after_others before (show a < s.cfg.nHR by omega)) ?_
  rw [memReadWord_after_others between (show a + 1 < s.cfg.nHR by omega), pairWritten_second canonical]

/-- The PDU of a response with two registers (R155). -/
theorem encodeResponse_registerPair (v w : U16) :
    encodeResponse (.readMultipleRegisters [v, w]) = .ok (0x03 :: 4 :: (bytes16 v ++ bytes16 w)) := rfl

/-- Settles O56: the pair of reads, and the answer to it with no event left to come. -/
theorem readsInterleaveElementwise : Obligations.ReadsInterleaveElementwise := by
  intro s reference first second canonical cap bound inside slots
  have checked : validRead s.cfg.nHR reference.toNat (2 : U16).toNat = true :=
    (validRead_iff _ _ _).mpr ⟨bound, .inr inside⟩
  have dispatched : dispatchOf (.readMultipleRegisters reference 2) s = .ok
      (.readMultipleRegisters [s.image.word .hr reference.toNat, second])
      (pairWritten s reference.toNat first second) :=
    dispatchReadWords_of_reads cap checked (readPair_interleaved canonical inside slots)
  rw [exec_eq_respond, respond_ok dispatched]
  exact ⟨_, conclude_quiet _ _ rfl _ (encodeResponse_registerPair _ _) (by simp [bytes16]), rfl,
    pairWritten_first canonical _ _ _⟩

end interleaving

end Sys2Proof.Scope
end

section
/-! SUPPORT. Requests and their PDUs stand one for one: a well-formed request is read back from its PDU, and what a PDU decodes to
encodes to that PDU (R94, R98, R99). -/

namespace Sys2Proof.Scope

open Sys2Proof.Machine

/-! ### The counted requests, each with its data of at most 255 bytes

The byte count agrees with the data here; what is left to decide is whether it agrees with the count. -/

section counted

variable {data : List Byte}

theorem decodeWriteMultipleCoils_counted (reference count : U16) (small : data.length ≤ 255) :
    decodeWriteMultipleCoils (bytes16 reference ++ bytes16 count ++ counted data) =
      if data.length = (count.toNat + 7) / 8 then .ok (.writeMultipleCoils reference count data)
      else .error .byteCountMismatch := by
  rw [List.append_assoc, decodeWriteMultipleCoils, decodeRCB_counted _ _ _ small, ok_bind]
  exact require_bind_eq beq_iff_eq rfl

theorem decodeWriteMultipleRegisters_counted (reference count : U16) (small : data.length ≤ 255) :
    decodeWriteMultipleRegisters (bytes16 reference ++ bytes16 count ++ counted data) =
      if data.length = 2 * count.toNat then .ok (.writeMultipleRegisters reference (wordsOf data))
      else .error .byteCountMismatch := by
  rw [List.append_assoc, decodeWriteMultipleRegisters, decodeRCB_counted _ _ _ small, ok_bind]
  exact require_bind_eq beq_iff_eq rfl

theorem decodeReadWriteMultiple_counted (readRef readCount writeRef writeCount : U16) (small : data.length ≤ 255) :
    decodeReadWriteMultiple (bytes16 readRef ++ bytes16 readCount ++ bytes16 writeRef ++ bytes16 writeCount ++ counted data) =
      if data.length = 2 * writeCount.toNat then .ok (.readWriteMultiple readRef readCount writeRef (wordsOf data))
      else .error .byteCountMismatch := by
  simp only [List.append_assoc, decodeReadWriteMultiple, u16_bytes16, decodeRCB_counted _ _ _ small, ok_bind]
  exact require_bind_eq beq_iff_eq rfl

theorem decodeReadFileRecord_counted (small : data.length ≤ 255) : decodeReadFileRecord (counted data) =
    if data = [] then .error .byteCountMismatch else (fileReads data).map .readFileRecord := by
  rw [decodeReadFileRecord, decodeBC_counted _ small, ok_bind, require_bind]
  cases data with
  | nil => rfl
  | cons x rest => cases fileReads (x :: rest) <;> rfl

theorem decodeReadFileRecord_encode {subs : List FileRead} (some_subs : subs ≠ []) (small : 7 * subs.length ≤ 255) :
    decodeReadFileRecord (counted (encodeFileReads subs)) = .ok (.readFileRecord subs) := by
  have some_data : encodeFileReads subs ≠ [] := by
    rw [← List.length_pos_iff, encodeFileReads_length]
    have := List.length_pos_iff.mpr some_subs
    omega
  rw [decodeReadFileRecord_counted (by rwa [encodeFileReads_length]), if_neg some_data, fileReads_encode]
  rfl

theorem decodeWriteFileRecord_encode {subs : List FileWrite} (some_subs : subs ≠ []) (small : fileWriteBytes subs ≤ 255) :
    decodeWriteFileRecord (counted (encodeFileWrites subs)) = .ok (.writeFileRecord subs) := by
  rw [decodeWriteFileRecord, decodeFileWrites_encode subs (List.length_pos_iff.mpr some_subs) small]
  rfl

end counted

/-! ### A well-formed request is read back -/

/-- A request of the table whose own decode reads its body. -/
theorem decode_of_body {functionCode : Byte} {decodeBody : List Byte → Except DecodeReason Instr} {body : List Byte} {i : Instr}
    (table : createModbusRequest functionCode = some decodeBody) (read : decodeBody body = .ok i) :
    decode (functionCode :: body) = .ok i := by
  rw [decode_of_table body table, read]
  rfl

/-- Settles O2: the fixed formats by what they read, the counted ones by the agreement of their counts. -/
theorem decodeOfEncode : Obligations.DecodeOfEncode := by
  intro i wf
  cases i with
  | readCoils reference count => exact decode_of_format rfl (decodeRC_bytes16 _ _) rfl
  | readInputDiscretes reference count => exact decode_of_format rfl (decodeRC_bytes16 _ _) rfl
  | readMultipleRegisters reference count => exact decode_of_format rfl (decodeRC_bytes16 _ _) rfl
  | readInputRegisters reference count => exact decode_of_format rfl (decodeRC_bytes16 _ _) rfl
  | writeCoil reference value => exact decode_of_format rfl (decodeRC_bytes16 _ _) rfl
  | writeSingleRegister reference value => exact decode_of_format rfl (decodeRC_bytes16 _ _) rfl
  | readExceptionStatus => rfl
  | readSerialDiagnostics subFunction data => exact decode_of_format rfl (decodeRC_bytes16 _ _) rfl
  | readCommEventCounter => rfl
  | readCommEventLog => rfl
  | writeMultipleCoils reference count data =>
    simp only [Instr.wellFormed, Bool.and_eq_true, beq_iff_eq, decide_eq_true_eq] at wf
    obtain ⟨agree, small⟩ := wf
    exact decode_of_body rfl ((decodeWriteMultipleCoils_counted reference count small).trans (if_pos agree))
  | writeMultipleRegisters reference values =>
    simp only [Instr.wellFormed, decide_eq_true_eq] at wf
    refine decode_of_body rfl ((decodeWriteMultipleRegisters_counted reference _ (by simpa using wf)).trans ?_)
    rw [if_pos (by rw [bytesOf_length, u16Field_toNat _ (by omega)]), wordsOf_bytesOf]
  | reportSlaveID => rfl
  | readFileRecord subs =>
    simp only [Instr.wellFormed, Bool.and_eq_true, decide_eq_true_eq] at wf
    obtain ⟨some_subs, small⟩ := wf
    exact decode_of_body rfl (decodeReadFileRecord_encode (List.length_pos_iff.mp some_subs) small)
  | writeFileRecord subs =>
    simp only [Instr.wellFormed, Bool.and_eq_true, decide_eq_true_eq] at wf
    obtain ⟨some_subs, small⟩ := wf
    exact decode_of_body rfl (decodeWriteFileRecord_encode (List.length_pos_iff.mp some_subs) small)
  | maskWriteRegister reference andMask orMask =>
    refine decode_of_format rfl (v := (reference, andMask, orMask)) ?_ rfl
    rw [encodeBody, List.append_assoc, decodeMW_bytes16]
  | readWriteMultiple readRef readCount writeRef values =>
    simp only [Instr.wellFormed, decide_eq_true_eq] at wf
    refine decode_of_body rfl ((decodeReadWriteMultiple_counted readRef readCount writeRef _ (by simpa using wf)).trans ?_)
    rw [if_pos (by rw [bytesOf_length, u16Field_toNat _ (by omega)]), wordsOf_bytesOf]
  | readFIFOQueue reference => exact decode_of_format rfl (decodeR_bytes16 _) rfl
  | readMEI subCode fieldLevel fieldId => rfl

/-! ### What a PDU decodes to encodes to the PDU -/

/-- What this body decode makes of a body is a well-formed request of this function code with that body. -/
def ReadsBodiesOf (functionCode : Byte) (decodeBody : List Byte → Except DecodeReason Instr) : Prop :=
  ∀ body i, decodeBody body = .ok i → i.functionCode = functionCode ∧ i.wellFormed = true ∧ encodeBody i = body

section rows

variable {α : Type} {functionCode : Byte} {format : List Byte → Except DecodeReason α} {next : α → Except DecodeReason Instr}

/-- A decode that reads a format which lays its value out in one way, and then builds the request from the value. -/
theorem readsBodiesOf_format {admitted : α → List Byte → Prop} (reads : ∀ {body v}, format body = .ok v → admitted v body)
    (builds : ∀ v i body, next v = .ok i → admitted v body →
      i.functionCode = functionCode ∧ i.wellFormed = true ∧ encodeBody i = body) :
    ReadsBodiesOf functionCode fun body => format body >>= next := by
  intro body i decoded
  obtain ⟨v, read, built⟩ := bind_ok decoded
  exact builds v i body built (reads read)

/-- The requests that are their two words (R93). -/
theorem readsBodiesOf_words {build : U16 → U16 → Instr}
    (code : ∀ a b, (build a b).functionCode = functionCode) (wf : ∀ a b, (build a b).wellFormed = true)
    (layout : ∀ a b, encodeBody (build a b) = bytes16 a ++ bytes16 b) :
    ReadsBodiesOf functionCode fun body => decodeRC body >>= fun v => .ok (build v.1 v.2) :=
  readsBodiesOf_format decodeRC_ok fun v i body built read => by
    cases built
    exact ⟨code _ _, wf _ _, (layout _ _).trans read.symm⟩

/-- The requests without operands (R93). -/
theorem readsBodiesOf_nothing {i : Instr} (code : i.functionCode = functionCode) (wf : i.wellFormed = true)
    (layout : encodeBody i = []) : ReadsBodiesOf functionCode fun body => decodeNone body >>= fun _ => .ok i :=
  readsBodiesOf_format atEnd_ok fun _ _ _ built read => by
    cases built
    exact ⟨code, wf, layout.trans read.symm⟩

end rows

theorem readsBodiesOf_writeMultipleCoils : ReadsBodiesOf 0x0F decodeWriteMultipleCoils :=
  readsBodiesOf_format decodeRCB_ok fun ⟨reference, count, data⟩ i body built ⟨read, small⟩ => by
    obtain ⟨_, check, built⟩ := bind_ok built
    cases built
    refine ⟨rfl, ?_, by rw [read, ← List.append_assoc]; rfl⟩
    rw [Instr.wellFormed, require_ok check]
    simpa using small

/-- Words counted in bytes and in words: what both multiple register writes read. -/
theorem words_of_counted {data : List Byte} {count : U16} {r : DecodeReason} {x : Unit}
    (check : require (data.length == 2 * count.toNat) r = .ok x) (small : data.length ≤ 255) :
    2 * (wordsOf data).length ≤ 255 ∧ u16Field (wordsOf data).length = count ∧ bytesOf (wordsOf data) = data := by
  have agree : data.length = 2 * count.toNat := by simpa using require_ok check
  rw [wordsOf_length _ _ agree, u16Field_of_toNat, bytesOf_wordsOf _ _ agree]
  exact ⟨agree ▸ small, rfl, rfl⟩

theorem readsBodiesOf_writeMultipleRegisters : ReadsBodiesOf 0x10 decodeWriteMultipleRegisters :=
  readsBodiesOf_format decodeRCB_ok fun ⟨reference, count, data⟩ i body built ⟨read, small⟩ => by
    obtain ⟨_, check, built⟩ := bind_ok built
    cases built
    obtain ⟨fits, counts, layout⟩ := words_of_counted check small
    exact ⟨rfl, decide_eq_true fits, by rw [encodeBody, counts, layout, read, List.append_assoc]⟩

theorem readsBodiesOf_readWriteMultiple : ReadsBodiesOf 0x17 decodeReadWriteMultiple := by
  intro body i decoded
  obtain ⟨⟨readRef, rest⟩, first, decoded⟩ := bind_ok decoded
  obtain ⟨⟨readCount, rest'⟩, second, decoded⟩ := bind_ok decoded
  obtain ⟨⟨writeRef, writeCount, data⟩, third, decoded⟩ := bind_ok decoded
  obtain ⟨_, check, built⟩ := bind_ok decoded
  cases built
  obtain ⟨read, small⟩ := decodeRCB_ok third
  obtain ⟨fits, counts, layout⟩ := words_of_counted check small
  refine ⟨rfl, decide_eq_true fits, ?_⟩
  simp only [encodeBody, counts, layout, u16_ok first, u16_ok second, read, List.append_assoc]

theorem readsBodiesOf_readFileRecord : ReadsBodiesOf 0x14 decodeReadFileRecord :=
  readsBodiesOf_format decodeBC_ok fun data i body built ⟨read, small⟩ => by
    obtain ⟨_, check, built⟩ := bind_ok built
    obtain ⟨subs, list, built⟩ := bind_ok built
    cases built
    obtain rfl := fileReads_ok data subs list
    have some_subs : subs ≠ [] := by
      rintro rfl
      cases require_ok check
    refine ⟨rfl, ?_, read.symm⟩
    simpa [Instr.wellFormed, Nat.one_le_iff_ne_zero, some_subs] using small

theorem readsBodiesOf_writeFileRecord : ReadsBodiesOf 0x15 decodeWriteFileRecord :=
  readsBodiesOf_format decodeFileWrites_ok fun subs i body built ⟨read, small, some_subs⟩ => by
    cases built
    exact ⟨rfl, by simp [Instr.wellFormed, small, some_subs], read.symm⟩

theorem readsBodiesOf_maskWriteRegister : ReadsBodiesOf 0x16 decodeMaskWriteRegister :=
  readsBodiesOf_format decodeMW_ok fun v i body built read => by
    cases built
    exact ⟨rfl, rfl, by rw [read, ← List.append_assoc]; rfl⟩

theorem readsBodiesOf_readFIFOQueue : ReadsBodiesOf 0x18 decodeReadFIFOQueue :=
  readsBodiesOf_format decodeR_ok fun v i body built read => by
    cases built
    exact ⟨rfl, rfl, read.symm⟩

theorem readsBodiesOf_readMEI : ReadsBodiesOf 0x2B decodeReadMEI := by
  intro body i decoded
  obtain ⟨⟨subCode, rest⟩, first, decoded⟩ := bind_ok decoded
  obtain ⟨⟨fieldLevel, rest'⟩, second, decoded⟩ := bind_ok decoded
  obtain ⟨⟨fieldId, rest''⟩, third, decoded⟩ := bind_ok decoded
  obtain ⟨_, ends, built⟩ := bind_ok decoded
  cases built
  refine ⟨rfl, rfl, ?_⟩
  rw [u8_ok first, u8_ok second, u8_ok third, atEnd_ok ends]
  rfl

/-- Every row of the request table reads bodies of its own function code. -/
theorem requestTable_readsBodies : ∀ row ∈ requestTable, ReadsBodiesOf row.1 row.2 := by
  simp only [requestTable, List.forall_mem_cons, List.not_mem_nil, false_implies, implies_true, and_true]
  refine ⟨?_, ?_, ?_, ?_, ?_, ?_, ?_, ?_, ?_, ?_, readsBodiesOf_writeMultipleCoils, readsBodiesOf_writeMultipleRegisters, ?_,
    readsBodiesOf_readFileRecord, readsBodiesOf_writeFileRecord, readsBodiesOf_maskWriteRegister,
    readsBodiesOf_readWriteMultiple, readsBodiesOf_readFIFOQueue, readsBodiesOf_readMEI⟩
  · exact readsBodiesOf_words (build := .readCoils) (fun _ _ => rfl) (fun _ _ => rfl) fun _ _ => rfl
  · exact readsBodiesOf_words (build := .readInputDiscretes) (fun _ _ => rfl) (fun _ _ => rfl) fun _ _ => rfl
  · exact readsBodiesOf_words (build := .readMultipleRegisters) (fun _ _ => rfl) (fun _ _ => rfl) fun _ _ => rfl
  · exact readsBodiesOf_words (build := .readInputRegisters) (fun _ _ => rfl) (fun _ _ => rfl) fun _ _ => rfl
  · exact readsBodiesOf_words (build := .writeCoil) (fun _ _ => rfl) (fun _ _ => rfl) fun _ _ => rfl
  · exact readsBodiesOf_words (build := .writeSingleRegister) (fun _ _ => rfl) (fun _ _ => rfl) fun _ _ => rfl
  · exact readsBodiesOf_nothing (i := .readExceptionStatus) rfl rfl rfl
  · exact readsBodiesOf_words (build := .readSerialDiagnostics) (fun _ _ => rfl) (fun _ _ => rfl) fun _ _ => rfl
  · exact readsBodiesOf_nothing (i := .readCommEventCounter) rfl rfl rfl
  · exact readsBodiesOf_nothing (i := .readCommEventLog) rfl rfl rfl
  · exact readsBodiesOf_nothing (i := .reportSlaveID) rfl rfl rfl

/-- A PDU that decodes has a row of the table, and the row's decode read its body. -/
theorem decode_ok {pdu : List Byte} {i : Instr} (decoded : decode pdu = .ok i) : ∃ functionCode body decodeBody,
    pdu = functionCode :: body ∧ createModbusRequest functionCode = some decodeBody ∧ decodeBody body = .ok i := by
  cases pdu with
  | nil => cases decoded
  | cons functionCode body =>
    cases table : createModbusRequest functionCode with
    | none => simp [decode, table] at decoded
    | some decodeBody =>
      refine ⟨functionCode, body, decodeBody, rfl, table, ?_⟩
      rw [decode_of_table body table] at decoded
      cases read : decodeBody body with
      | error reason => rw [read] at decoded; cases decoded
      | ok j => rw [read] at decoded; cases decoded; rfl

/-- The decoder of a function code reads bodies of that code. -/
theorem createModbusRequest_readsBodies {functionCode : Byte} {decodeBody : List Byte → Except DecodeReason Instr}
    (table : createModbusRequest functionCode = some decodeBody) : ReadsBodiesOf functionCode decodeBody := by
  obtain ⟨before, after, split, -⟩ := List.lookup_eq_some_iff.mp table
  exact requestTable_readsBodies (functionCode, decodeBody) (by rw [split]; simp)

/-- Settles O3: the row that decoded the PDU read a body of its own function code. -/
theorem encodeOfDecode : Obligations.EncodeOfDecode := by
  intro pdu i decoded
  obtain ⟨functionCode, body, decodeBody, rfl, table, read⟩ := decode_ok decoded
  obtain ⟨code, wf, layout⟩ := createModbusRequest_readsBodies table body i read
  exact ⟨wf, by rw [encode, code, layout]⟩

end Sys2Proof.Scope
end

section
/-! SUPPORT. What the request decoder refuses of the counted requests (R98, R176 to R225), the function codes it knows (R99), and the
words of the specification that it reads (R93, R94). -/

namespace Sys2Proof.Scope

open Sys2Proof.Machine

/-! ### Byte counts that agree, or not, with what they count -/

/-- A request of the table whose own decode is decided by one check. -/
theorem decode_of_check {functionCode : Byte} {decodeBody : List Byte → Except DecodeReason Instr} {body : List Byte} {i : Instr}
    {r : DecodeReason} {agrees : Prop} [Decidable agrees] (table : createModbusRequest functionCode = some decodeBody)
    (check : decodeBody body = if agrees then .ok i else .error r) :
    decode (functionCode :: body) = if agrees then .ok i else .error (.malformed r) := by
  rw [decode_of_table body table, check]
  split <;> rfl

section fileReads

variable {data : List Byte} (small : data.length ≤ 255)
include small

/-- A ReadFileRecord body is a positive number of 7-byte sub-requests exactly when its length says so (R220). -/
theorem decode_readFileRecord_iff :
    (∃ subs, decode (0x14 :: counted data) = .ok (.readFileRecord subs) ∧ 7 * subs.length = data.length) ↔
      0 < data.length ∧ data.length % 7 = 0 := by
  refine ⟨fun ⟨subs, decoded, whole⟩ => ?_, fun ⟨some_data, whole⟩ => ?_⟩
  · obtain ⟨wf, -⟩ := encodeOfDecode _ _ decoded
    simp only [Instr.wellFormed, Bool.and_eq_true, decide_eq_true_eq] at wf
    omega
  · obtain ⟨subs, read, number⟩ := exists_fileReads (data.length / 7) data (by omega)
    refine ⟨subs, decode_of_body rfl ?_, by omega⟩
    rw [decodeReadFileRecord_counted small, if_neg (List.length_pos_iff.mp some_data), read]
    rfl

theorem decode_readFileRecord_mismatch (uneven : ¬ (0 < data.length ∧ data.length % 7 = 0)) :
    decode (0x14 :: counted data) = .error (.malformed .byteCountMismatch) := by
  have refused : decodeReadFileRecord (counted data) = .error .byteCountMismatch := by
    rw [decodeReadFileRecord_counted small]
    split
    · rfl
    · next some_data =>
      have rest : data.length % 7 ≠ 0 := fun h => uneven ⟨List.length_pos_iff.mpr some_data, h⟩
      rw [fileReads_error _ data le_rfl rest]
      rfl
  rw [decode_of_table (decodeBody := decodeReadFileRecord) _ rfl, refused]
  rfl

end fileReads

/-- Counted bytes that are no WriteFileRecord sub-requests (R225). -/
theorem decode_writeFileRecord_mismatch {data : List Byte} (small : data.length ≤ 255)
    (none_fit : ∀ subs : List FileWrite, subs ≠ [] → data ≠ encodeFileWrites subs) :
    decode (0x15 :: counted data) = .error (.malformed .byteCountMismatch) := by
  rw [decode_of_table (decodeBody := decodeWriteFileRecord) _ rfl, decodeWriteFileRecord, decodeFileWrites_error small none_fit]
  rfl

/-! ### Bodies that end before their counted bytes do, or go on after them -/

/-- A format of `offset` bytes and then the counted bytes: a body without its byte count is Truncated, and one whose counted bytes
are refused is refused as they are. -/
structure CountedFormat {α : Type} (format : List Byte → Except DecodeReason α) (offset : Nat) : Prop where
  uncounted : ∀ body, body.length ≤ offset → format body = .error .truncated
  refuses : ∀ fields body r, fields.length = offset → decodeBC body = .error r → format (fields ++ body) = .error r

section formats

variable {α β : Type} {offset : Nat}

theorem decodeBC_countedFormat : CountedFormat decodeBC 0 where
  uncounted body h := by rw [List.length_eq_zero_iff.mp (Nat.le_zero.mp h), decodeBC_nil]
  refuses fields body r h refused := by rw [List.length_eq_zero_iff.mp h]; exact refused

/-- What is done with the value comes after the refusals. -/
theorem CountedFormat.bind {format : List Byte → Except DecodeReason α} (counts : CountedFormat format offset)
    (next : α → Except DecodeReason β) : CountedFormat (fun body => format body >>= next) offset where
  uncounted body h := by rw [counts.uncounted body h]; rfl
  refuses fields body r h refused := by rw [counts.refuses fields body r h refused]; rfl

/-- A word before the format. -/
theorem CountedFormat.afterWord {format : U16 → List Byte → Except DecodeReason α} (counts : ∀ v, CountedFormat (format v) offset) :
    CountedFormat (fun body => u16 body >>= fun v => format v.1 v.2) (offset + 2) where
  uncounted body h := by
    by_cases short : body.length < 2
    · rw [u16_short short]; rfl
    · obtain ⟨v, rest, rfl⟩ := exists_bytes16 (Nat.not_lt.mp short)
      rw [u16_bytes16, ok_bind, (counts v).uncounted rest (by rw [List.length_append, bytes16_length] at h; omega)]
  refuses fields body r h refused := by
    obtain ⟨v, rest, rfl⟩ := exists_bytes16 (Nat.le_of_add_left_le h.ge)
    rw [List.append_assoc, u16_bytes16, ok_bind, (counts v).refuses rest body r (by rw [List.length_append, bytes16_length] at h; omega) refused]

theorem decodeRCB_countedFormat : CountedFormat decodeRCB 4 :=
  .afterWord fun reference => .afterWord fun count => decodeBC_countedFormat.bind fun data => .ok (reference, count, data)

theorem decodeReadWriteMultiple_countedFormat : CountedFormat decodeReadWriteMultiple 8 :=
  .afterWord fun readRef => .afterWord fun readCount => decodeRCB_countedFormat.bind fun write =>
    require (write.2.2.length == 2 * write.2.1.toNat) .byteCountMismatch >>= fun _ =>
      .ok (Instr.readWriteMultiple readRef readCount write.1 (wordsOf write.2.2))

/-- A request whose body has such a format. -/
theorem CountedFormat.request {functionCode : Byte} {format : List Byte → Except DecodeReason Instr}
    (counts : CountedFormat format offset) (table : createModbusRequest functionCode = some format) :
    (∀ body : List Byte, body.length ≤ offset → decode (functionCode :: body) = .error (.malformed .truncated)) ∧
    ∀ (fields : List Byte) (byteCount : Byte) (data : List Byte), fields.length = offset →
      (data.length < byteCount.toNat →
        decode (functionCode :: (fields ++ byteCount :: data)) = .error (.malformed .truncated)) ∧
      (byteCount.toNat < data.length →
        decode (functionCode :: (fields ++ byteCount :: data)) = .error (.malformed .trailing)) := by
  have refused {body : List Byte} {r : DecodeReason} (h : format body = .error r) :
      decode (functionCode :: body) = .error (.malformed r) := by rw [decode_of_table body table, h]; rfl
  exact ⟨fun body h => refused (counts.uncounted body h), fun fields byteCount data h =>
    ⟨fun short => refused (counts.refuses _ _ _ h (decodeBC_short short)),
      fun long => refused (counts.refuses _ _ _ h (decodeBC_long long))⟩⟩

end formats

/-- Settles O7: each relation by the decode of counted data, the lengths by the format. -/
theorem byteCountsMustAgree : Obligations.ByteCountsMustAgree := by
  refine ⟨fun reference count data small => ⟨?_, ?_, fun readRef readCount => ?_, fun subs some_subs layout => ?_, ?_, ?_,
    fun subs some_subs layout => ?_, fun none_fit => ?_⟩, fun functionCode offset row => ?_⟩
  · exact decode_of_check rfl (decodeWriteMultipleCoils_counted reference count small)
  · exact decode_of_check rfl (decodeWriteMultipleRegisters_counted reference count small)
  · exact decode_of_check rfl (decodeReadWriteMultiple_counted readRef readCount reference count small)
  · rw [← encodeFileReads_eq_flatMap] at layout
    subst layout
    exact decode_of_body rfl (decodeReadFileRecord_encode some_subs (by rwa [encodeFileReads_length] at small))
  · exact decode_readFileRecord_iff small
  · exact decode_readFileRecord_mismatch small
  · rw [← encodeFileWrites_eq_flatMap] at layout
    subst layout
    exact decode_of_body rfl (decodeWriteFileRecord_encode some_subs (by rwa [encodeFileWrites_length] at small))
  · simp only [← encodeFileWrites_eq_flatMap] at none_fit
    exact decode_writeFileRecord_mismatch small none_fit
  · simp only [List.mem_cons, Prod.mk.injEq, List.not_mem_nil, or_false] at row
    obtain ⟨rfl, rfl⟩ | ⟨rfl, rfl⟩ | ⟨rfl, rfl⟩ | ⟨rfl, rfl⟩ | ⟨rfl, rfl⟩ := row
    · exact (decodeRCB_countedFormat.bind _).request rfl
    · exact (decodeRCB_countedFormat.bind _).request rfl
    · exact (decodeBC_countedFormat.bind _).request rfl
    · exact ((decodeBC_countedFormat.bind _).bind _).request rfl
    · exact decodeReadWriteMultiple_countedFormat.request rfl

/-! ### The function codes -/

/-- The function codes without a row in the request table (R99). -/
theorem createModbusRequest_eq_none_iff (functionCode : Byte) : createModbusRequest functionCode = none ↔
    functionCode ∉ ([0x01, 0x02, 0x03, 0x04, 0x05, 0x06, 0x07, 0x08, 0x0B, 0x0C, 0x0F, 0x10, 0x11, 0x14, 0x15, 0x16, 0x17, 0x18,
      0x2B] : List Byte) := by
  simp [createModbusRequest, requestTable, List.lookup_eq_none_iff]

/-- With no reset to come a command that ends has the outcome it ends with. -/
theorem complete_of_noReset (result : Result) {s : State} (noReset : s.NoReset) :
    ∃ t, complete result s = .next t ∧ t.outcome = some result := by
  have stable : Stable (fun u => ∀ slot ∈ u.schedule, slot ∈ s.schedule) fun _ => False := by
    refine stable_of_schedule s.schedule (fun _ slots => slots) (fun u slot rest slots split x hx => ?_)
      (fun _ _ _ slots _ _ => slots) (fun _ _ slots _ _ => slots) fun _ _ _ ⟨slot, mem, event⟩ => noReset slot mem event
    exact slots x (by rw [split]; exact List.mem_cons_of_mem _ hx)
  exact complete_next (R := fun t => t.outcome = some result) stable result (fun _ _ => rfl) (fun _ h => h.elim) s fun _ h => h

/-- With no reset to come the exception taken is answered with, under the header that is latched (R301). -/
theorem takeException_of_noReset (functionCode : Byte) (kind : ExceptionKind) {s : State} (noReset : s.NoReset) :
    ∃ t, takeException functionCode kind s = .next t ∧
      t.outcome = some (.ok (.bytes (aduOf s.latches.header (exceptionPdu functionCode kind.code)))) := by
  have fits : (exceptionPdu functionCode kind.code).length ≤ 65534 := by simp [exceptionPdu]
  simp only [takeException, conclude, encodeResponse_exception, emitPdu, encodeADU_ok _ _ fits, aduOf_responseHeader]
  exact complete_of_noReset _ noReset

/-- Settles O8: by whether the function code has a row in the request table. -/
theorem functionCodesMatchExactly : Obligations.FunctionCodesMatchExactly := by
  refine fun functionCode body => ⟨fun known => ?_, fun unknown => ?_⟩
  · obtain ⟨decodeBody, table⟩ : ∃ decodeBody, createModbusRequest functionCode = some decodeBody :=
      Option.ne_none_iff_exists'.mp fun none => (createModbusRequest_eq_none_iff functionCode).mp none known
    rw [decode_of_table body table]
    cases read : decodeBody body with
    | error reason => exact ⟨fun _ => nofun, nofun⟩
    | ok i =>
      obtain ⟨code, -, -⟩ := createModbusRequest_readsBodies table body i read
      refine ⟨fun j decoded => ?_, nofun⟩
      cases decoded
      exact code
  · have placeholder : decode (functionCode :: body) = .error (.illegalFunction functionCode) := by
      rw [decode, (createModbusRequest_eq_none_iff functionCode).mpr unknown]
    refine ⟨placeholder, fun s headless input rest h noReset command split => ?_⟩
    rw [step_of_commands command, runCommand, serve, decodeRequestADU, split]
    simp only [placeholder]
    exact takeException_of_noReset (s := { s with commands := rest }.latchRequest h _ _) functionCode .illegalFunction noReset

/-- Settles O33: an exception answer has the code of its kind, and a normal answer is the PDU of a response of the instruction. -/
theorem answersCarryTheFunctionCode : Obligations.AnswersCarryTheFunctionCode := by
  intro i s t adu next answer
  rcases exec_outcome next with
    reset | ⟨reason, refused⟩ | ⟨kind, u, -, exception⟩ | ⟨response, u, pdu, given, encoded, -, normal⟩
  · rw [reset] at answer
    cases answer
  · rw [refused] at answer
    cases answer
  · rw [exception] at answer
    cases answer
    exact ⟨_, rfl, .inr ⟨kind.code, by cases kind <;> decide, rfl⟩⟩
  · rw [normal] at answer
    cases answer
    obtain ⟨rest, rfl⟩ := encodeResponse_code encoded
    exact ⟨_, rfl, .inl ⟨rest, by rw [dispatchOf_code i s response u given]⟩⟩

/-- Settles O1: the decoder run on each word. -/
theorem specWordsDecode : Obligations.SpecWordsDecode := by
  exact ⟨rfl, rfl, rfl, rfl, rfl, rfl, rfl, rfl, rfl, rfl, rfl⟩

end Sys2Proof.Scope
end

section
/-! SUPPORT. What the two encoders make of each record: its bytes, or the construct error of the first check it fails (R94, R95,
R267, R268, R273). -/

namespace Sys2Proof.Scope

open Sys2Proof.Machine

/-! ### The checks as what they refuse, and the counted bytes -/

theorem words_fit_eq_false (values : List U16) : decide (2 * values.length ≤ 255) = false ↔ 127 < values.length := by
  rw [decide_le_eq_false]
  omega

theorem counted_bytesOf (values : List U16) : counted (bytesOf values) = u8Field (2 * values.length) :: bytesOf values := by
  rw [counted, bytesOf_length]

theorem counted_encodeFileReads (subs : List FileRead) : counted (encodeFileReads subs) = u8Field (7 * subs.length) ::
    subs.flatMap fun x => x.refType :: (bytes16 x.file ++ bytes16 x.record ++ bytes16 x.wordCount) := by
  rw [counted, encodeFileReads_length, encodeFileReads_eq_flatMap]

theorem counted_encodeFileWrites (subs : List FileWrite) : counted (encodeFileWrites subs) =
    u8Field (subs.map fun x => 7 + 2 * x.data.length).sum :: subs.flatMap fun x =>
      x.refType :: (bytes16 x.file ++ bytes16 x.record ++ bytes16 (u16Field x.data.length) ++ bytesOf x.data) := by
  rw [counted, encodeFileWrites_length, encodeFileWrites_eq_flatMap, fileWriteBytes_eq_sum]

theorem counted_encodeRecords (records : List (List U16)) : counted (encodeRecords records) =
    u8Field (records.map fun w => 2 + 2 * w.length).sum ::
      records.flatMap fun w => u8Field (1 + 2 * w.length) :: 0x06 :: bytesOf w := by
  rw [counted, encodeRecords_length, encodeRecords_eq_flatMap, recordsTotal_eq_sum]

/-- The checks of a list of file sub-requests in their order: some sub-request, legal fields, and then the size (R222, R226). -/
theorem fileChecks_eq {α : Type} {refType : α → Byte} {record : α → U16} {subs : List α} {fits : Bool} {tooBig : Prop}
    [Decidable tooBig] [Decidable (subs = [])] {r : ConstructReason} {built pdu : List Byte} (size : fits = false ↔ tooBig)
    (layout : built = pdu) :
    (constructRequire (!subs.isEmpty) .noSubRequests >>= fun _ =>
      constructRequire (subs.all fun s => fileFieldsLegal (refType s) (record s)) .fieldValue >>= fun _ =>
      constructRequire fits r >>= fun _ => Except.ok built) =
    if subs = [] then .error .noSubRequests
    else if ∃ s ∈ subs, refType s ≠ 6 ∨ 9999 < (record s).toNat then .error .fieldValue
    else if tooBig then .error r
    else .ok pdu := by
  have fields : (subs.all fun s => fileFieldsLegal (refType s) (record s)) = false ↔
      ∃ s ∈ subs, refType s ≠ 6 ∨ 9999 < (record s).toNat := by
    rw [all_fileFieldsLegal, Bool.not_eq_false', decide_eq_true_iff]
  exact constructRequire_bind_eq (by simp) fun _ => constructRequire_bind_eq fields fun _ =>
    constructRequire_bind_eq size fun _ => congrArg _ layout

/-! ### Requests -/

/-- A request record with one check. -/
theorem encodeRequest_of_check {p : Params} {request : RequestRecord} {fits : Bool} {refused : Prop} [Decidable refused]
    {r : ConstructReason} {pdu : List Byte} (check : request.check p = constructRequire fits r)
    (refuses : fits = false ↔ refused) (layout : encode request.instr = pdu) :
    encodeRequest p request = if refused then .error r else .ok pdu := by
  rw [encodeRequest, check]
  exact constructRequire_bind_eq refuses fun _ => congrArg _ layout

/-- Settles O15: each record by its checks, as what they refuse, and by the layout of its PDU. -/
theorem requestEncoderChecksEveryCap : Obligations.RequestEncoderChecksEveryCap := by
  intro p x y z a b c bits values reads writes reading writing
  have capped (cap : Nat) := decide_le_eq_false y.toNat cap
  have bytesFit := words_fit_eq_false values
  have layout : bytes16 (u16Field values.length) ++ counted (bytesOf values) = writing := by rw [counted_bytesOf]
  refine ⟨?_, ?_, ?_, ?_, ?_, rfl, rfl, rfl, rfl, rfl, ?_, ?_, rfl, ?_, ?_, rfl, ?_, rfl, rfl⟩
  · exact encodeRequest_of_check rfl (capped _) rfl
  · exact encodeRequest_of_check rfl (capped _) rfl
  · exact encodeRequest_of_check rfl (capped _) rfl
  · exact encodeRequest_of_check rfl (capped _) rfl
  · exact encodeRequest_of_check rfl (two_valued_eq_false _ _ _) rfl
  · refine encodeRequest_of_check rfl (decide_le_eq_false _ _) ?_
    simp [encode, encodeBody, RequestRecord.instr, Instr.functionCode, counted, packedLength]
  · refine encodeRequest_of_check rfl bytesFit ?_
    rw [← layout, ← List.append_assoc]
    rfl
  · rw [encodeRequest, RequestRecord.check]
    simp only [bind_assoc]
    exact fileChecks_eq (decide_le_eq_false _ _) (congrArg _ (counted_encodeFileReads reads))
  · rw [encodeRequest, RequestRecord.check, fileWriteBytes_eq_sum]
    simp only [bind_assoc]
    exact fileChecks_eq (decide_le_eq_false _ _) (congrArg _ (counted_encodeFileWrites writes))
  · rw [encodeRequest, RequestRecord.check, bind_assoc]
    refine constructRequire_bind_eq bytesFit fun _ => constructRequire_bind_eq (capped _) fun _ => ?_
    rw [← layout, ← List.append_assoc]
    rfl

/-! ### Responses -/

theorem isException_eq (functionCode : Byte) : isException functionCode = functionCode.getLsbD 7 := by
  revert functionCode
  decide

/-- The table's function codes (R99). -/
theorem recognized_eq_true_iff (functionCode : Byte) : recognized functionCode = true ↔
    functionCode ∈ ([0x01, 0x02, 0x03, 0x04, 0x05, 0x06, 0x07, 0x08, 0x0B, 0x0C, 0x0F, 0x10, 0x11, 0x14, 0x15, 0x16, 0x17, 0x18,
      0x2B] : List Byte) := by
  rw [recognized, Option.isSome_iff_ne_none, ← not_iff_not, not_not]
  exact createModbusRequest_eq_none_iff functionCode

theorem encodeWords_eq (functionCode : Byte) (values : List U16) : encodeWords functionCode values =
    if 127 < values.length then .error .byteCountMismatch
    else .ok (functionCode :: u8Field (2 * values.length) :: bytesOf values) :=
  constructRequire_bind_eq (words_fit_eq_false values) fun _ => congrArg _ (congrArg _ (counted_bytesOf values))

theorem encodeBits_eq (functionCode byteCount : Byte) (data : List Byte) : encodeBits functionCode byteCount data =
    if data.length ≠ byteCount.toNat then .error .byteCountMismatch else .ok (functionCode :: byteCount :: data) :=
  constructRequire_bind_eq beq_eq_false_iff_ne fun _ => rfl

theorem meiFieldsLegal_eq_false (subCode moreFollows : Byte) (fields : List MeiField) :
    (subCode == Config.meiSubcode && moreFollowsLegal moreFollows && fields.all fun f => decide (f.text.length ≤ 255)) = false ↔
      subCode ≠ 0x0E ∨ (moreFollows ≠ 0x00 ∧ moreFollows ≠ 0xFF) ∨ ∃ f ∈ fields, 255 < f.text.length := by
  rw [Bool.and_eq_false_iff, Bool.and_eq_false_iff, beq_eq_false_iff_ne, moreFollowsLegal, two_valued_eq_false,
    List.all_eq_false, or_assoc]
  simp [Config.meiSubcode]

/-- Settles O16: each record by its checks, as what they refuse, and by the layout of its PDU. -/
theorem responseEncoderChecksEveryCap : Obligations.ResponseEncoderChecksEveryCap := by
  intro x y z a b c d e data values records subs fields bits words
  refine ⟨encodeBits_eq _ _ _, encodeBits_eq _ _ _, encodeWords_eq _ _, encodeWords_eq _ _, encodeWords_eq _ _, ?_, rfl, rfl, rfl,
    ?_, ?_, rfl, rfl, ?_, ?_, ?_, rfl, ?_, ?_, ?_, ?_⟩
  · exact constructRequire_bind_eq (two_valued_eq_false _ _ _) fun _ => rfl
  · exact constructRequire_bind_eq (two_valued_eq_false _ _ _) fun _ => rfl
  · refine constructRequire_bind_eq (decide_le_eq_false _ _) fun _ =>
      constructRequire_bind_eq (two_valued_eq_false _ _ _) fun _ => ?_
    have size : (bytes16 x ++ bytes16 y ++ bytes16 z ++ data).length = 6 + data.length := by simp; omega
    rw [counted, size]
    rfl
  · exact constructRequire_bind_eq (decide_le_eq_false _ _) fun _ =>
      constructRequire_bind_eq (two_valued_eq_false _ _ _) fun _ => rfl
  · rw [encodeResponse, recordsTotal_eq_sum]
    exact constructRequire_bind_eq (by simp) fun _ => constructRequire_bind_eq (decide_le_eq_false _ _) fun _ =>
      congrArg _ (congrArg _ (counted_encodeRecords records))
  · rw [encodeResponse, fileWriteBytes_eq_sum]
    exact fileChecks_eq (decide_le_eq_false _ _) (congrArg _ (counted_encodeFileWrites subs))
  · exact constructRequire_bind_eq (decide_le_eq_false _ _) fun _ => rfl
  · refine constructRequire_bind_eq (decide_le_eq_false _ _) fun _ =>
      constructRequire_bind_eq (meiFieldsLegal_eq_false a d fields) fun _ => ?_
    rw [encodeMeiFields_eq_flatMap]
    rfl
  · exact constructRequire_bind_eq (by rw [Bool.not_eq_false', isException_eq]) fun _ => rfl
  · refine constructRequire_bind_eq ?_ fun _ => rfl
    rw [Bool.and_eq_false_iff, Bool.not_eq_false', Bool.not_eq_false', isException_eq, recognized_eq_true_iff]

end Sys2Proof.Scope
end

section
/-! SUPPORT. What the response decoder makes of a normal response of the right length: the record of its fields, or the field or
count it refuses (R98, R151 to R241, R270). -/

namespace Sys2Proof.Scope

open Sys2Proof.Machine

/-- A normal response of the table by what its own decode makes of the body (R270). -/
theorem decodeResponse_of_body {functionCode : Byte} {decodeBody : List Byte → Except DecodeReason Response} {body : List Byte}
    {result : Except DecodeReason Response} (table : createModbusResponse functionCode = some decodeBody)
    (read : decodeBody body = result) (normal : isException functionCode = false := by decide) :
    decodeResponse (functionCode :: body) = result :=
  (decodeResponse_of_table body normal table).trans read

/-- The same where the decode reads a format and goes on from its value. -/
theorem decodeResponse_of_format {α : Type} {functionCode : Byte} {format : List Byte → Except DecodeReason α}
    {next : α → Except DecodeReason Response} {body : List Byte} {v : α} {result : Except DecodeReason Response}
    (table : createModbusResponse functionCode = some fun body => format body >>= next) (read : format body = .ok v)
    (build : next v = result) (normal : isException functionCode = false := by decide) :
    decodeResponse (functionCode :: body) = result := by
  rw [decodeResponse_of_table body normal table, read, ok_bind, build]

/-- A two-valued field's check as what it admits. -/
theorem two_valued_eq_true {α : Type} [DecidableEq α] (v a b : α) : (v == a || v == b) = true ↔ v = a ∨ v = b := by simp

/-- A failed check ends the decode. -/
theorem require_false_bind {α : Type} {holds : Bool} {r : DecodeReason} {next : Unit → Except DecodeReason α}
    (fails : holds = false) : (require holds r >>= next) = .error r := by rw [fails]; rfl

/-- A passed check does nothing. -/
theorem require_true_bind {α : Type} {holds : Bool} {r : DecodeReason} {next : Unit → Except DecodeReason α}
    (passes : holds = true) : (require holds r >>= next) = next () := by rw [passes]; rfl

/-! ### Counted responses -/

section counted

variable {data : List Byte}

theorem decodeWords_counted (small : data.length ≤ 255) (even : data.length % 2 = 0) :
    decodeWords (counted data) = .ok (wordsOf data) := by
  rw [counted, decodeWords_cons, u8Field_toNat _ small, if_pos even]
  exact congrArg (Except.map wordsOf) (decodeBC_counted data small)

/-- Fewer than the three words, or more than 64 events (R214). -/
theorem decodeReadCommEventLogResponse_mismatch (small : data.length ≤ 255) (wrong : data.length < 6 ∨ 70 < data.length) :
    decodeReadCommEventLogResponse (counted data) = .error .byteCountMismatch := by
  rw [decodeReadCommEventLogResponse, decodeBC_counted data small, ok_bind]
  refine require_false_bind ?_
  rw [Bool.and_eq_false_iff, decide_eq_false_iff_not, decide_eq_false_iff_not, Config.maxEvents]
  omega

theorem decodeReadCommEventLogResponse_counted (x y z : U16) (few : data.length ≤ 64) :
    decodeReadCommEventLogResponse (u8Field (6 + data.length) :: (bytes16 x ++ bytes16 y ++ bytes16 z ++ data)) =
      if x = 0x0000 ∨ x = 0xFFFF then .ok (.readCommEventLog x y z data) else .error .fieldValue := by
  have size : (bytes16 x ++ bytes16 y ++ bytes16 z ++ data).length = 6 + data.length := by simp; omega
  have read := decodeBC_counted (bytes16 x ++ bytes16 y ++ bytes16 z ++ data) (by omega)
  rw [counted, size] at read
  have admitted : (decide (6 ≤ 6 + data.length) && decide (6 + data.length ≤ 6 + Config.maxEvents)) = true := by
    rw [Bool.and_eq_true, decide_eq_true_eq, decide_eq_true_eq, Config.maxEvents]
    omega
  rw [decodeReadCommEventLogResponse, read, ok_bind, size, require_true_bind admitted]
  simp only [List.append_assoc, u16_bytes16, ok_bind]
  exact require_bind_eq (two_valued_eq_true _ _ _) rfl

/-- Fewer than the two bytes before the device data, or more than 249 bytes of it (R217). -/
theorem decodeReportSlaveIDResponse_mismatch (small : data.length ≤ 255) (wrong : data.length < 2 ∨ 251 < data.length) :
    decodeReportSlaveIDResponse (counted data) = .error .byteCountMismatch := by
  rw [decodeReportSlaveIDResponse, decodeBC_counted data small, ok_bind]
  refine require_false_bind ?_
  rw [Bool.and_eq_false_iff, decide_eq_false_iff_not, decide_eq_false_iff_not, Config.maxDeviceData]
  omega

theorem decodeReportSlaveIDResponse_counted (a b : Byte) (few : data.length ≤ 249) :
    decodeReportSlaveIDResponse (u8Field (2 + data.length) :: a :: b :: data) =
      if b = 0x00 ∨ b = 0xFF then .ok (.reportSlaveID a b data) else .error .fieldValue := by
  have size : (a :: b :: data).length = 2 + data.length := by simp; omega
  have read := decodeBC_counted (a :: b :: data) (by omega)
  rw [counted, size] at read
  have admitted : (decide (2 ≤ 2 + data.length) && decide (2 + data.length ≤ 2 + Config.maxDeviceData)) = true := by
    rw [Bool.and_eq_true, decide_eq_true_eq, decide_eq_true_eq, Config.maxDeviceData]
    omega
  rw [decodeReportSlaveIDResponse, read, ok_bind, size, require_true_bind admitted]
  exact require_bind_eq (two_valued_eq_true _ _ _) rfl

end counted

/-! ### File responses -/

section files

variable {records : List (List U16)} {len : Byte} {rest : List Byte}

/-- A non-empty ReadFileRecord response is what its list of sub-responses decodes to (R222). -/
theorem decodeReadFileRecordResponse_counted {data : List Byte} (small : data.length ≤ 255) (some_data : data ≠ []) :
    decodeReadFileRecordResponse (counted data) = (decodeRecords data.length data).map .readFileRecord := by
  rw [decodeReadFileRecordResponse, decodeBC_counted data small, ok_bind, require_true_bind (by simpa using some_data)]
  cases decodeRecords data.length data <;> rfl

/-- After whole sub-responses, what is made of the next one decides (R222). -/
theorem decodeReadFileRecordResponse_append (small : (encodeRecords records ++ len :: rest).length ≤ 255) {r : DecodeReason}
    (refused : ∀ fuel, decodeRecords (fuel + 1) (len :: rest) = .error r) :
    decodeReadFileRecordResponse (counted (encodeRecords records ++ len :: rest)) = .error r := by
  have size : (encodeRecords records ++ len :: rest).length = recordsTotal records + rest.length + 1 := by simp; omega
  have shorter := length_le_recordsTotal records
  rw [decodeReadFileRecordResponse_counted small (by simp), decodeRecords_append _ _ _ (by omega) (by omega), size,
    show recordsTotal records + rest.length + 1 - records.length = recordsTotal records + rest.length - records.length + 1 by omega,
    refused]
  rfl

/-- Whole sub-responses are read (R222). -/
theorem decodeReadFileRecordResponse_encode (some_records : records ≠ []) (small : (encodeRecords records).length ≤ 255) :
    decodeReadFileRecordResponse (counted (encodeRecords records)) = .ok (.readFileRecord records) := by
  have some_data : encodeRecords records ≠ [] := by
    cases records with
    | nil => exact absurd rfl some_records
    | cons w rest => simp [encodeRecords, encodeRecord]
  have read := decodeRecords_append records (encodeRecords records).length [] (by simpa using length_le_recordsTotal records)
    (by rwa [encodeRecords_length] at small)
  rw [List.append_nil] at read
  rw [decodeReadFileRecordResponse_counted small some_data, read]
  simp [decodeRecords, Except.map]

end files

/-! ### FIFO and encapsulated responses -/

/-- A FIFO response too short for its count (R231). -/
theorem decodeReadFIFOQueueResponse_short {data : List Byte} (short : data.length < 2) :
    decodeReadFIFOQueueResponse (bytes16 (u16Field data.length) ++ data) = .error .byteCountMismatch := by
  have size : (u16Field data.length).toNat = data.length := u16Field_toNat _ (by omega)
  simp only [decodeReadFIFOQueueResponse, u16_bytes16, ok_bind, size, bytes_all, atEnd_nil]
  exact require_false_bind (by simpa using short)

/-- A FIFO response is read when its count is the number of its values and within the cap (R231). -/
theorem decodeReadFIFOQueueResponse_counted (count : U16) {values : List Byte} (small : 2 + values.length ≤ 65535) :
    decodeReadFIFOQueueResponse (bytes16 (u16Field (2 + values.length)) ++ bytes16 count ++ values) =
      if values.length = 2 * count.toNat ∧ count.toNat ≤ 31 then .ok (.readFIFOQueue (wordsOf values))
      else .error .byteCountMismatch := by
  have size : (u16Field (2 + values.length)).toNat = (bytes16 count ++ values).length := by
    rw [u16Field_toNat _ small, List.length_append, bytes16_length]
  simp only [decodeReadFIFOQueueResponse, List.append_assoc, u16_bytes16, ok_bind, size, bytes_all, atEnd_nil]
  rw [require_true_bind (by simp)]
  refine require_bind_eq ?_ rfl
  rw [Bool.and_eq_true, beq_iff_eq, decide_eq_true_eq, List.length_append, bytes16_length, Config.maxFifo]
  omega

/-- A ReadMEI response with its fields is read when its own values are legal (R241). -/
theorem decodeReadMEIResponse_encode (a b c d e : Byte) {fields : List MeiField} (count : fields.length ≤ 255)
    (texts : ∀ f ∈ fields, f.text.length ≤ 255) :
    decodeReadMEIResponse (meiBody a b c d e fields) =
      if fields.length ≤ 64 ∧ (d = 0x00 ∨ d = 0xFF) ∧ a = 0x0E then .ok (.readMEI a b c d e fields)
      else .error .fieldValue := by
  have read := decodeMeiFields_encode fields [] texts
  rw [List.append_nil] at read
  simp only [meiBody, decodeReadMEIResponse, u8_cons, ok_bind, u8Field_toNat _ count, read, atEnd_nil]
  refine require_bind_eq ?_ rfl
  simp only [Bool.and_eq_true, decide_eq_true_eq, moreFollowsLegal, two_valued_eq_true, beq_iff_eq, and_assoc]
  rfl

/-- Settles O59: each response by its own decode, which reads its fields and checks them. -/
theorem responseDecoderChecksEveryField : Obligations.ResponseDecoderChecksEveryField := by
  intro x y z a b c d e data small
  have read := decodeBC_counted data small
  have words := decodeRC_bytes16 x y
  refine ⟨?_, ?_, fun even => ⟨?_, ?_, ?_⟩, ?_, ?_, rfl, ?_, ?_, fun wrong => ?_, fun few => ?_, ?_, ?_, fun wrong => ?_, fun few => ?_,
    rfl, fun records len rest layout => ?_, fun records some_records layout => ?_, fun subs some_subs layout => ?_,
    fun none_fit => ?_, ?_, fun short => ?_, fun values fits => ?_, fun fields count texts => ?_⟩
  · exact decodeResponse_of_format rfl read rfl
  · exact decodeResponse_of_format rfl read rfl
  · exact decodeResponse_of_format rfl (decodeWords_counted small even) rfl
  · exact decodeResponse_of_format rfl (decodeWords_counted small even) rfl
  · exact decodeResponse_of_format rfl (decodeWords_counted small even) rfl
  · exact decodeResponse_of_format rfl words (require_bind_eq (two_valued_eq_true _ _ _) rfl)
  · exact decodeResponse_of_format rfl words rfl
  · exact decodeResponse_of_format rfl words rfl
  · exact decodeResponse_of_format rfl words (require_bind_eq (two_valued_eq_true _ _ _) rfl)
  · exact decodeResponse_of_body rfl (decodeReadCommEventLogResponse_mismatch small wrong)
  · exact decodeResponse_of_body rfl (decodeReadCommEventLogResponse_counted x y z few)
  · exact decodeResponse_of_format rfl words rfl
  · exact decodeResponse_of_format rfl words rfl
  · exact decodeResponse_of_body rfl (decodeReportSlaveIDResponse_mismatch small wrong)
  · exact decodeResponse_of_body rfl (decodeReportSlaveIDResponse_counted a b few)
  · rw [← encodeRecords_eq_flatMap] at layout
    subst layout
    refine ⟨fun wrong => ?_, fun odd inside other => ?_⟩
    · exact decodeResponse_of_body rfl (decodeReadFileRecordResponse_append small fun _ => decodeRecords_mismatch wrong)
    · exact decodeResponse_of_body rfl
        (decodeReadFileRecordResponse_append small fun _ => decodeRecords_refType odd inside other)
  · rw [← encodeRecords_eq_flatMap] at layout
    subst layout
    exact decodeResponse_of_body rfl (decodeReadFileRecordResponse_encode some_records small)
  · rw [← encodeFileWrites_eq_flatMap] at layout
    subst layout
    rw [encodeFileWrites_length] at small
    exact decodeResponse_of_format rfl (decodeFileWrites_encode subs (List.length_pos_iff.mpr some_subs) small) rfl
  · simp only [← encodeFileWrites_eq_flatMap] at none_fit
    exact decodeResponse_error (by decide) rfl (decodeFileWrites_error small none_fit)
  · rw [List.append_assoc]
    exact decodeResponse_of_format rfl (decodeMW_bytes16 x y z) rfl
  · exact decodeResponse_of_body rfl (decodeReadFIFOQueueResponse_short short)
  · exact decodeResponse_of_body rfl (decodeReadFIFOQueueResponse_counted x fits)
  · rw [← encodeMeiFields_eq_flatMap]
    exact decodeResponse_of_body rfl (decodeReadMEIResponse_encode a b c d e count texts)

end Sys2Proof.Scope
end

section
/-! SUPPORT. What the header's wrapping makes of a PDU and what its decode gives back, framed and headless (R130 to R135). -/

namespace Sys2Proof.Scope

open Sys2Proof.Machine

/-! ### Decoding (R133) -/

theorem decodeUnit_cons (framing : Framing) (unit functionCode : Byte) (body : List Byte) :
    decodeUnit framing (unit :: functionCode :: body) = .ok (⟨framing, unit, functionCode⟩, functionCode :: body) := rfl

/-- A framed input with its six leading bytes: the length is checked before the rest is read. -/
theorem decodeADU_framed (tid pid len : U16) (rest : List Byte) :
    decodeADU false (bytes16 tid ++ bytes16 pid ++ bytes16 len ++ rest) =
      if len.toNat = rest.length then decodeUnit (.framed tid pid) rest else .error .lengthMismatch := by
  simp only [List.append_assoc, decodeADU, u16_bytes16, ok_bind, Bool.false_eq_true, if_false]
  have size : (bytes16 tid ++ (bytes16 pid ++ (bytes16 len ++ rest))).length - 6 = rest.length := by
    simp only [List.length_append, bytes16_length]
    omega
  rw [size]
  exact require_bind_eq beq_iff_eq rfl

/-- A framed input that ends inside its three leading fields: the first of them that is not there ends the decode. -/
theorem decodeADU_framed_short {input : List Byte} (short : input.length < 6) : decodeADU false input = .error .truncated := by
  by_cases noTid : input.length < 2
  · simp [decodeADU, u16_short noTid]
  obtain ⟨tid, afterTid, rfl⟩ := exists_bytes16 (Nat.le_of_not_lt noTid)
  by_cases noPid : afterTid.length < 2
  · simp [decodeADU, u16_short noPid]
  obtain ⟨pid, afterPid, rfl⟩ := exists_bytes16 (Nat.le_of_not_lt noPid)
  have noLength : afterPid.length < 2 := by
    simp only [List.length_append, bytes16_length] at short
    omega
  simp [decodeADU, u16_short noLength]

/-- Settles O11: the framed fields and then the unit id and the PDU, each by its own decode. -/
theorem aduDecodeOutcomes : Obligations.AduDecodeOutcomes := by
  refine ⟨fun tid pid len rest => ?_, fun input => decodeADU_framed_short, fun input => ?_⟩
  · rw [decodeADU_framed, ite_not]
    match rest with
    | [] => rfl
    | [_] => rfl
    | _ :: _ :: _ => rfl
  · match input with
    | [] => rfl
    | [_] => rfl
    | _ :: _ :: _ => rfl

/-! ### Encoding (R135) -/

/-- `EncodeADU` as its one check and its layout. -/
theorem encodeADU_eq (h : Header) (pdu : List Byte) :
    encodeADU h pdu = if 65535 < 1 + pdu.length then .error .lengthOverflow else .ok (aduOf h pdu) := by
  by_cases overflow : 65535 < 1 + pdu.length
  · rw [encodeADU, if_pos overflow, if_pos overflow]
  · rw [if_neg overflow, encodeADU_ok h pdu (by omega)]

/-- Bytes given are the ADU of a PDU that fits. -/
theorem encodeADU_eq_ok {h : Header} {pdu adu : List Byte} (encoded : encodeADU h pdu = .ok adu) :
    1 + pdu.length ≤ 65535 ∧ adu = aduOf h pdu := by
  rw [encodeADU_eq] at encoded
  split at encoded
  · cases encoded
  · next fits =>
    cases encoded
    exact ⟨Nat.le_of_not_lt fits, rfl⟩

theorem aduOf_framed {h : Header} {tid pid : U16} (framing : h.framing = .framed tid pid) (pdu : List Byte) :
    aduOf h pdu = bytes16 tid ++ bytes16 pid ++ bytes16 (u16Field (1 + pdu.length)) ++ h.unitID :: pdu := by
  rw [aduOf, framing]

theorem aduOf_headless {h : Header} (framing : h.framing = .headless) (pdu : List Byte) : aduOf h pdu = h.unitID :: pdu := by
  rw [aduOf, framing]

/-- Settles O10: the layout of the framed ADU, whose length field holds what it was given. -/
theorem framedLengthCountsWhatFollows : Obligations.FramedLengthCountsWhatFollows := by
  intro h tid pid pdu adu framing encoded
  obtain ⟨fits, rfl⟩ := encodeADU_eq_ok encoded
  have held : (u16Field (1 + pdu.length)).toNat = 1 + pdu.length := u16Field_toNat _ fits
  have leading : (bytes16 tid ++ bytes16 pid ++ bytes16 (u16Field (1 + pdu.length))).length = 6 := rfl
  have rest : (aduOf h pdu).drop 6 = h.unitID :: pdu := by rw [aduOf_framed framing, List.drop_left' leading]
  refine ⟨u16Field (1 + pdu.length), ?_, held, ?_, rest⟩
  · rw [aduOf_framed framing, List.take_left' leading]
  · rw [rest, held, List.length_cons, Nat.add_comm]

/-! ### The way back -/

/-- The ADU of a PDU that fits decodes to the PDU and the header with the PDU's function code. -/
theorem decodeADU_aduOf (h : Header) {pdu : List Byte} (some_pdu : pdu ≠ []) (fits : 1 + pdu.length ≤ 65535) :
    decodeADU h.headless (aduOf h pdu) = .ok (responseHeader h pdu, pdu) := by
  obtain ⟨functionCode, body, rfl⟩ := List.exists_cons_of_ne_nil some_pdu
  obtain ⟨framing, unit, givenCode⟩ := h
  cases framing with
  | headless =>
    rw [aduOf_headless rfl]
    exact decodeUnit_cons _ _ _ _
  | framed tid pid =>
    have held : (u16Field (1 + (functionCode :: body).length)).toNat = (unit :: functionCode :: body).length := by
      rw [u16Field_toNat _ fits, List.length_cons (a := unit), Nat.add_comm]
    rw [aduOf_framed rfl]
    exact (decodeADU_framed tid pid _ _).trans ((if_pos held).trans (decodeUnit_cons _ _ _ _))

/-- Settles O9: the encoder by its check and its layout, and the decoder on that layout. -/
theorem decodeAduOfEncodeAdu : Obligations.DecodeAduOfEncodeAdu := by
  refine ⟨encodeADU_eq, fun h pdu adu some_pdu encoded => ?_⟩
  obtain ⟨fits, rfl⟩ := encodeADU_eq_ok encoded
  exact decodeADU_aduOf h some_pdu fits

end Sys2Proof.Scope
end

section
/-! SUPPORT. The four reads with no other agent active: what each answers where its checks pass, and which exception it answers where
one fails (R150 to R158, R262). -/

namespace Sys2Proof.Scope

open Sys2Proof.Machine

/-- What `ValidRead` refuses (R262). -/
theorem not_validRead_iff (size ref n : Nat) :
    ¬ validRead size ref n = true ↔ 65536 ≤ ref + n ∨ (n ≠ 0 ∧ size < ref + n) := by
  rw [validRead_iff]
  omega

section reads

variable {s : State} {reference count : U16} {functionCode : Byte}

/-! ### Reads the checks admit

The two bit reads differ in function code, space and response record only, and so do the two register reads. -/

/-- The packed bits and their byte count always agree, and 2000 bits fit the byte count (R151, R153). -/
theorem encodeBits_packLsb (functionCode : Byte) (bits : List Bool) {n : Nat} (few : n ≤ 2000) :
    encodeBits functionCode (u8Field (packedLength n)) (packLsb bits (packedLength n)) =
      .ok (functionCode :: u8Field (packedLength n) :: packLsb bits (packedLength n)) := by
  have fits : packedLength n ≤ 255 := by
    rw [packedLength]
    omega
  rw [encodeBits_eq, u8Field_toNat _ fits, packLsb_length, if_neg (not_not.mpr rfl)]

/-- A bit read: the elements of the range, packed (R150, R152). -/
theorem respond_dispatchReadBits (quiet : s.schedule = []) (space : BitSpace) {respondWith : Byte → List Byte → Response}
    (encodes : ∀ byteCount data, encodeResponse (respondWith byteCount data) = encodeBits functionCode byteCount data)
    (cap : count.toNat ≤ 2000) (valid : validRead (s.cfg.bitSize space) reference.toNat count.toNat = true) :
    respond functionCode (dispatchReadBits space respondWith reference count) s = .next (s.answered s.image
      (functionCode :: u8Field (packedLength count.toNat) ::
        packLsb ((List.range count.toNat).map fun k => s.image.bit space (reference.toNat + k)) (packedLength count.toNat))) := by
  refine respond_answered quiet (dispatchReadBits_quiet quiet space respondWith cap valid)
    ((encodes _ _).trans (encodeBits_packLsb _ _ cap)) ?_
  rw [List.length_cons, List.length_cons, packLsb_length, packedLength]
  omega

/-- A register read: the registers of the range, big-endian (R154, R156). -/
theorem respond_dispatchReadWords (quiet : s.schedule = []) (space : WordSpace) {respondWith : List U16 → Response}
    (encodes : ∀ values, encodeResponse (respondWith values) = encodeWords functionCode values)
    (small : s.cfg.maxReadRegs ≤ 127) (cap : count.toNat ≤ s.cfg.maxReadRegs)
    (valid : validRead (s.cfg.wordSize space) reference.toNat count.toNat = true) :
    respond functionCode (dispatchReadWords space respondWith reference count) s = .next (s.answered s.image
      (functionCode :: u8Field (2 * count.toNat) ::
        bytesOf ((List.range count.toNat).map fun k => s.image.word space (reference.toNat + k)))) := by
  have size : ((List.range count.toNat).map fun k => s.image.word space (reference.toNat + k)).length = count.toNat := by simp
  refine respond_answered quiet (dispatchReadWords_quiet quiet space respondWith cap valid) ?_ ?_
  · rw [encodes, encodeWords_eq, size, if_neg (by omega)]
  · rw [List.length_cons, List.length_cons, bytesOf_length, size]
    omega

/-! ### Reads a check refuses -/

/-- The count is checked before the range (R150, R152). -/
theorem dispatchReadBits_overCap {space : BitSpace} {respondWith : Byte → List Byte → Response} (exceeds : 2000 < count.toNat) :
    dispatchReadBits space respondWith reference count s = .raised .illegalValue s := by
  have fails : ¬ decide (count.toNat ≤ Config.maxReadBits) = true := by
    rw [decide_eq_true_eq, Config.maxReadBits]
    omega
  rw [dispatchReadBits, Txn.readConfig_bind, Txn.check_raises _ _ _ fails]

/-- A range that the validator refuses, with an admitted count (R150, R152). -/
theorem dispatchReadBits_outside {space : BitSpace} {respondWith : Byte → List Byte → Response} (cap : count.toNat ≤ 2000)
    (outside : ¬ validRead (s.cfg.bitSize space) reference.toNat count.toNat = true) :
    dispatchReadBits space respondWith reference count s = .raised .illegalAddress s := by
  have passes : decide (count.toNat ≤ Config.maxReadBits) = true := decide_eq_true cap
  rw [dispatchReadBits, Txn.readConfig_bind, Txn.check_bind _ _ _ passes, Txn.check_raises _ _ _ outside]

/-- The count is checked before the range (R154, R156). -/
theorem dispatchReadWords_overCap {space : WordSpace} {respondWith : List U16 → Response}
    (exceeds : s.cfg.maxReadRegs < count.toNat) :
    dispatchReadWords space respondWith reference count s = .raised .illegalValue s := by
  have fails : ¬ decide (count.toNat ≤ s.cfg.maxReadRegs) = true := by
    rw [decide_eq_true_eq]
    omega
  rw [dispatchReadWords, Txn.readConfig_bind, Txn.readConfig_bind, Txn.check_raises _ _ _ fails]

/-- A range that the validator refuses, with an admitted count (R154, R156). -/
theorem dispatchReadWords_outside {space : WordSpace} {respondWith : List U16 → Response}
    (cap : count.toNat ≤ s.cfg.maxReadRegs)
    (outside : ¬ validRead (s.cfg.wordSize space) reference.toNat count.toNat = true) :
    dispatchReadWords space respondWith reference count s = .raised .illegalAddress s := by
  rw [dispatchReadWords, Txn.readConfig_bind, Txn.readConfig_bind, Txn.check_bind _ _ _ (decide_eq_true cap),
    Txn.check_raises _ _ _ outside]

end reads

/-- Settles O35: the bit read of each of the two spaces on a range that is valid. -/
theorem bitReadsAnswerTheElements : Obligations.BitReadsAnswerTheElements := by
  intro s reference count quiet cap bound
  refine ⟨fun inside => ?_, fun inside => ?_⟩
  · rw [exec_eq_respond]
    exact respond_dispatchReadBits quiet .coil (fun _ _ => rfl) cap ((validRead_iff _ _ _).mpr ⟨bound, inside⟩)
  · rw [exec_eq_respond]
    exact respond_dispatchReadBits quiet .di (fun _ _ => rfl) cap ((validRead_iff _ _ _).mpr ⟨bound, inside⟩)

/-- Settles O36: the register read of each of the two spaces on a range that is valid. -/
theorem registerReadsAnswerTheElements : Obligations.RegisterReadsAnswerTheElements := by
  intro s reference count quiet small cap bound
  refine ⟨fun inside => ?_, fun inside => ?_⟩
  · rw [exec_eq_respond]
    exact respond_dispatchReadWords quiet .hr (fun _ => rfl) small cap ((validRead_iff _ _ _).mpr ⟨bound, inside⟩)
  · rw [exec_eq_respond]
    exact respond_dispatchReadWords quiet .ir (fun _ => rfl) small cap ((validRead_iff _ _ _).mpr ⟨bound, inside⟩)

/-- Settles O37: each dispatch by the first of its two checks that fails, and the exception it then answers. -/
theorem readsTrap : Obligations.ReadsTrap := by
  intro s reference count quiet
  simp only [exec_eq_respond, ← not_validRead_iff]
  refine ⟨fun exceeds => ⟨?_, ?_⟩, fun exceeds => ⟨?_, ?_⟩, fun cap => ⟨fun outside => ?_, fun outside => ?_⟩,
    fun cap => ⟨fun outside => ?_, fun outside => ?_⟩⟩
  · exact respond_trapped quiet (dispatchReadBits_overCap exceeds) (by decide : exceptionPdu 0x01 3 = [0x81, 3])
  · exact respond_trapped quiet (dispatchReadBits_overCap exceeds) (by decide : exceptionPdu 0x02 3 = [0x82, 3])
  · exact respond_trapped quiet (dispatchReadWords_overCap exceeds) (by decide : exceptionPdu 0x03 3 = [0x83, 3])
  · exact respond_trapped quiet (dispatchReadWords_overCap exceeds) (by decide : exceptionPdu 0x04 3 = [0x84, 3])
  · exact respond_trapped quiet (dispatchReadBits_outside cap outside) (by decide : exceptionPdu 0x01 2 = [0x81, 2])
  · exact respond_trapped quiet (dispatchReadBits_outside cap outside) (by decide : exceptionPdu 0x02 2 = [0x82, 2])
  · exact respond_trapped quiet (dispatchReadWords_outside cap outside) (by decide : exceptionPdu 0x03 2 = [0x83, 2])
  · exact respond_trapped quiet (dispatchReadWords_outside cap outside) (by decide : exceptionPdu 0x04 2 = [0x84, 2])

end Sys2Proof.Scope
end

section
/-! SUPPORT. The six writes with no other agent active: what each stores, leaves alone and answers where its checks pass, and which
exception it answers where one fails (R170 to R191, R263, R264). -/

namespace Sys2Proof.Scope

open Sys2Proof.Machine

/-! ### The checks as what they refuse, and the stored values -/

/-- What `ValidWrite` refuses (R263). -/
theorem not_validWrite_iff (size ref n : Nat) : ¬ validWrite size ref n = true ↔ n ≠ 0 ∧ size < ref + n := by
  rw [validWrite_iff]
  omega

/-- What `ValidOne` refuses (R264). -/
theorem not_validOne_iff (size ref : Nat) : ¬ validOne size ref = true ↔ size ≤ ref := by
  rw [validOne_iff]
  omega

/-- The two values a coil may be given (R170). -/
theorem coilValueLegal_iff (v : U16) : coilValueLegal v = true ↔ v = 0xFF00 ∨ v = 0x0000 := two_valued_eq_true v coilOn coilOff

/-- Register `a + k` holds value `k` after a run of register writes from `a` on. -/
theorem word_writeEach_written {im : Image} (canonical : im.wf = true) (a : Nat) {values : List U16} {k : Nat}
    (written : k < values.length) : (Image.writeEach .hr a values im).word .hr (a + k) = values.getD k 0 := by
  rw [Image.word_writeEach_hr _ _ _ canonical, if_pos (by omega), Nat.add_sub_cancel_left]

/-- Coil `a + k` holds value `k` after a run of coil writes from `a` on. -/
theorem bit_writeEach_written {im : Image} (canonical : im.wf = true) (a : Nat) {values : List Bool} {k : Nat}
    (written : k < values.length) : (Image.writeEach .coil a values im).bit .coil (a + k) = values.getD k false := by
  rw [Image.bit_writeEach_coil _ _ _ canonical, if_pos (by omega), Nat.add_sub_cancel_left]

/-- Bit `k` of the data is element `k` of the bits a WriteMultipleCoils stores (R14, R176). -/
theorem take_unpackLsb_getD (data : List Byte) {n k : Nat} (inside : k < n) :
    ((unpackLsb data).take n).getD k false = (data.getD (k / 8) 0).getLsbD (k % 8) := by
  rw [← unpackLsb_getD data (k / 8) (k % 8) (Nat.mod_lt k (by decide)), Nat.div_add_mod, List.getD_eq_getElem?_getD,
    List.getElem?_take_of_lt inside, ← List.getD_eq_getElem?_getD]

/-- The data of a well-formed WriteMultipleCoils has a bit for every coil of the range (R98). -/
theorem take_unpackLsb_length {reference count : U16} {data : List Byte}
    (wf : (Instr.writeMultipleCoils reference count data).wellFormed = true) :
    ((unpackLsb data).take count.toNat).length = count.toNat := by
  simp only [Instr.wellFormed, Bool.and_eq_true, beq_iff_eq, packedLength] at wf
  rw [List.length_take, unpackLsb_length]
  omega

/-! ### Mask writes -/

/-- Masking a masked value with the same masks changes nothing (R187). -/
theorem maskWrite_maskWrite (v andMask orMask : U16) :
    maskWrite (maskWrite v andMask orMask) andMask orMask = maskWrite v andMask orMask := by
  ext i
  simp only [maskWrite, BitVec.getElem_or, BitVec.getElem_and, BitVec.getElem_not]
  cases andMask[i] <;> simp

/-- Writing what an element holds already leaves a memory in canonical form as it is. -/
theorem write_read {β : Type} [Inhabited β] [DecidableEq β] (m : Memory β) (canonical : Memory.wf m = true) (a : Nat) :
    Memory.write m a (Memory.read m a) = m := by
  induction m with
  | nil => exact if_pos rfl
  | cons cell rest ih =>
    obtain ⟨k, w⟩ := cell
    rw [Memory.write]
    rcases Nat.lt_trichotomy a k with below | rfl | above
    · have unlisted : Memory.read ((k, w) :: rest) a = Memory.blank := Memory.read_below _ _ fun c listed => by
        rcases List.mem_cons.mp listed with rfl | listed
        · exact below
        · exact below.trans (Memory.wf_head canonical c listed)
      rw [if_pos below, if_pos unlisted]
    · have listed : w ≠ Memory.blank := ((Memory.wf_iff _).mp canonical).2 (a, w) List.mem_cons_self
      rw [if_neg (Nat.lt_irrefl a), if_pos rfl, Memory.read_cons, if_pos rfl, if_neg listed]
    · rw [if_neg (by omega), if_neg (by omega), Memory.read_cons, if_neg (by omega), ih (Memory.wf_tail canonical)]

/-- Writing to a register what it holds already leaves the image as it is. -/
theorem write_word {im : Image} (canonical : im.wf = true) (a : Nat) : im.write (.hr a (im.word .hr a)) = im := by
  obtain ⟨-, -, -, registers, -⟩ := (Image.wf_iff im).mp canonical
  rw [Image.write, Image.word, write_read im.hr registers]

/-- The image after a mask write of register `a` (R185). -/
def maskWritten (im : Image) (a : Nat) (andMask orMask : U16) : Image :=
  im.write (.hr a (maskWrite (im.word .hr a) andMask orMask))

theorem maskWritten_word {im : Image} (canonical : im.wf = true) (a : Nat) (andMask orMask : U16) :
    (maskWritten im a andMask orMask).word .hr a = maskWrite (im.word .hr a) andMask orMask := by
  rw [maskWritten, Image.word_write_hr _ canonical, if_pos rfl]

/-- A mask write made again writes to the register what it holds (R187). -/
theorem maskWritten_maskWritten {im : Image} (canonical : im.wf = true) (a : Nat) (andMask orMask : U16) :
    maskWritten (maskWritten im a andMask orMask) a andMask orMask = maskWritten im a andMask orMask := by
  have written : (maskWritten im a andMask orMask).wf = true := Image.wf_write _ canonical _
  have again : maskWrite ((maskWritten im a andMask orMask).word .hr a) andMask orMask =
      (maskWritten im a andMask orMask).word .hr a := by
    rw [maskWritten_word canonical, maskWrite_maskWrite]
  rw [maskWritten, again, write_word written]

section writes

variable {s : State} {reference : U16}

/-! ### Writes a check refuses -/

/-- A value that is no coil value, whatever the reference (R170). -/
theorem dispatchWriteCoil_illegalValue {value : U16} (illegal : ¬ coilValueLegal value = true) :
    dispatchWriteCoil reference value s = .raised .illegalValue s := by
  rw [dispatchWriteCoil, Txn.check_raises _ _ _ illegal]

/-- A legal coil value makes a WriteCoil the single write of its coil (R170). -/
theorem dispatchWriteCoil_legal {value : U16} (legal : coilValueLegal value = true) :
    dispatchWriteCoil reference value s = dispatchWriteOne Params.nCOIL (.coil reference.toNat (value == coilOn)) reference
      (.writeCoil reference value) s := by
  rw [dispatchWriteCoil, Txn.check_bind _ _ _ legal]

/-- A reference outside the space (R170, R173). -/
theorem dispatchWriteOne_outside {size : Params → Nat} {target : ElementWrite} {echo : Response}
    (outside : size s.cfg ≤ reference.toNat) : dispatchWriteOne size target reference echo s = .raised .illegalAddress s := by
  rw [dispatchWriteOne, Txn.readConfig_bind, Txn.check_raises _ _ _ ((not_validOne_iff _ _).mpr outside)]

/-- A range that ends outside the space (R176, R180). -/
theorem dispatchWriteMany_outside {α : Type} {size : Params → Nat} {target : Nat → α → ElementWrite} {n : Nat} {values : List α}
    {echo : Response} (nonempty : n ≠ 0) (outside : size s.cfg < reference.toNat + n) :
    dispatchWriteMany size target reference n values echo s = .raised .illegalAddress s := by
  rw [dispatchWriteMany, Txn.readConfig_bind, Txn.check_raises _ _ _ ((not_validWrite_iff _ _ _).mpr ⟨nonempty, outside⟩)]

/-- A register outside the space (R185). -/
theorem dispatchMaskWrite_outside {andMask orMask : U16} (outside : s.cfg.nHR ≤ reference.toNat) :
    dispatchMaskWrite reference andMask orMask s = .raised .illegalAddress s := by
  rw [dispatchMaskWrite, Txn.readConfig_bind, Txn.check_raises _ _ _ ((not_validOne_iff _ _).mpr outside)]

/-- The read count is checked before both ranges (R190). -/
theorem dispatchReadWrite_overCap {count writeRef : U16} {values : List U16} (exceeds : s.cfg.maxReadRegs < count.toNat) :
    dispatchReadWrite reference count writeRef values s = .raised .illegalValue s := by
  have fails : ¬ decide (count.toNat ≤ s.cfg.maxReadRegs) = true := by
    rw [decide_eq_true_eq]
    omega
  rw [dispatchReadWrite, Txn.readConfig_bind, Txn.readConfig_bind, Txn.check_raises _ _ _ fails]

/-- One of the two ranges is refused, with an admitted read count (R190). -/
theorem dispatchReadWrite_outside {count writeRef : U16} {values : List U16} (cap : count.toNat ≤ s.cfg.maxReadRegs)
    (outside : ¬ validRead s.cfg.nHR reference.toNat count.toNat = true ∨
      ¬ validWrite s.cfg.nHR writeRef.toNat values.length = true) :
    dispatchReadWrite reference count writeRef values s = .raised .illegalAddress s := by
  rw [dispatchReadWrite, Txn.readConfig_bind, Txn.readConfig_bind, Txn.check_bind _ _ _ (decide_eq_true cap)]
  by_cases readable : validRead s.cfg.nHR reference.toNat count.toNat = true
  · rw [Txn.check_bind _ _ _ readable, Txn.check_raises _ _ _ (outside.resolve_left (not_not.mpr readable))]
  · rw [Txn.check_raises _ _ _ readable]

/-! ### Whole instructions -/

/-- A MaskWriteRegister of a register that exists: one write, and the request echoed (R185, R186). -/
theorem exec_maskWriteRegister (quiet : s.schedule = []) (andMask orMask : U16) (inside : reference.toNat < s.cfg.nHR) :
    exec (.maskWriteRegister reference andMask orMask) s = .next (s.answered (maskWritten s.image reference.toNat andMask orMask)
      (0x16 :: (bytes16 reference ++ bytes16 andMask ++ bytes16 orMask))) := by
  rw [exec_eq_respond]
  exact respond_answered quiet (dispatchMaskWrite_quiet quiet andMask orMask ((validOne_iff _ _).mpr inside)) rfl (by simp)

/-- The image a MaskWriteRegister leaves, whether its register exists or not (R185). -/
theorem image_of_maskWriteRegister (quiet : s.schedule = []) {andMask orMask : U16} {t : State}
    (next : exec (.maskWriteRegister reference andMask orMask) s = .next t) :
    t.image = if reference.toNat < s.cfg.nHR then maskWritten s.image reference.toNat andMask orMask else s.image := by
  split
  case isTrue inside =>
    rw [exec_maskWriteRegister quiet andMask orMask inside] at next
    cases next
    rfl
  case isFalse outside =>
    rw [exec_eq_respond] at next
    have refused := respond_trapped (functionCode := 0x16) quiet
      (dispatchMaskWrite_outside (andMask := andMask) (orMask := orMask) (Nat.le_of_not_lt outside)) rfl
    cases refused.symm.trans next
    rfl

end writes

/-- Settles O38: each instruction is one write, which stores its value and leaves every other element alone. -/
theorem singleWritesStoreAndEcho : Obligations.SingleWritesStoreAndEcho := by
  intro s reference value quiet canonical
  refine ⟨fun inside legal => ⟨s.image.write (.coil reference.toNat (value == coilOn)), ?_, ?_, fun e other => ?_⟩,
    fun inside => ⟨s.image.write (.hr reference.toNat value), ?_, ?_, fun e other => ?_⟩⟩
  · have legal := (coilValueLegal_iff value).mpr legal
    have exists_ := (validOne_iff s.cfg.nCOIL reference.toNat).mpr inside
    have encodes : encodeResponse (.writeCoil reference value) = .ok (0x05 :: (bytes16 reference ++ bytes16 value)) := by
      rw [encodeResponse, legal, constructRequire_true, ok_bind]
      rfl
    rw [exec_eq_respond]
    exact respond_answered quiet ((dispatchWriteCoil_legal legal).trans
      (dispatchWriteOne_quiet quiet _ (.coil _ _) _ exists_ exists_)) encodes (by simp)
  · rw [Image.bit_write_coil _ canonical, if_pos rfl]
    rfl
  · exact Image.element_write_flat _ canonical _ e other.symm (by simp)
  · have exists_ := (validOne_iff s.cfg.nHR reference.toNat).mpr inside
    rw [exec_eq_respond]
    exact respond_answered quiet (dispatchWriteOne_quiet quiet _ (.hr _ _) _ exists_ exists_) rfl (by simp)
  · rw [Image.word_write_hr _ canonical, if_pos rfl]
  · exact Image.element_write_flat _ canonical _ e other.symm (by simp)

/-- Settles O39: the coils of the range are written from the first bits of the data, in order. -/
theorem multipleCoilWritesStoreEveryBit : Obligations.MultipleCoilWritesStoreEveryBit := by
  intro s reference count data quiet canonical wf inside
  have size := take_unpackLsb_length wf
  refine ⟨Image.writeEach .coil reference.toNat ((unpackLsb data).take count.toNat) s.image, ?_, fun k hk => ?_,
    fun e spared => ?_⟩
  · rw [exec_eq_respond]
    exact respond_answered quiet (dispatchWriteMany_quiet quiet Params.nCOIL .coil count.toNat _ _
      ((validWrite_iff _ _ _).mpr inside) size.le fun a _ => (validOne_iff s.cfg.nCOIL a).mpr) rfl (by simp)
  · rw [bit_writeEach_written canonical _ (size.symm ▸ hk), take_unpackLsb_getD data hk]
  · exact Image.element_writeEach_flat .coil (by simp) e _ _ _ canonical
      fun k hk _ same => spared ⟨k, size ▸ hk, same.symm⟩

/-- Settles O40: the registers of the range are written with the values, in order. -/
theorem multipleRegisterWritesStoreEveryWord : Obligations.MultipleRegisterWritesStoreEveryWord := by
  intro s reference values quiet canonical inside
  refine ⟨Image.writeEach .hr reference.toNat values s.image, ?_, fun k hk => word_writeEach_written canonical _ hk,
    fun e spared => ?_⟩
  · rw [exec_eq_respond]
    exact respond_answered quiet (dispatchWriteMany_quiet quiet Params.nHR .hr values.length _ _
      ((validWrite_iff _ _ _).mpr inside) le_rfl fun a _ => (validOne_iff s.cfg.nHR a).mpr) rfl (by simp)
  · exact Image.element_writeEach_flat .hr (by simp) e _ _ _ canonical fun k hk _ same => spared ⟨k, hk, same.symm⟩

/-- Settles O41: the one write of the instruction stores the masked value of what the register held. -/
theorem maskWriteStoresTheMaskedValue : Obligations.MaskWriteStoresTheMaskedValue := by
  intro s reference andMask orMask quiet canonical inside
  refine ⟨_, exec_maskWriteRegister quiet andMask orMask inside, ?_, fun e other => ?_⟩
  · rw [maskWritten_word canonical, maskWrite]
  · exact Image.element_write_flat _ canonical _ e other.symm (by simp)

/-- Settles O42: the masked value is written again, or the register does not exist and both times nothing is written. -/
theorem maskWriteReplayChangesNothing : Obligations.MaskWriteReplayChangesNothing := by
  refine ⟨maskWrite_maskWrite, by decide, by decide, fun s t u reference andMask orMask quiet canonical first second => ?_⟩
  obtain ⟨cfg, -, -⟩ := exec_keeps_ports first
  obtain ⟨-, stillQuiet⟩ := exec_keeps_inputs quiet first
  rw [image_of_maskWriteRegister stillQuiet second, cfg, image_of_maskWriteRegister quiet first]
  split
  · exact maskWritten_maskWritten canonical _ _ _
  · rfl

/-- Settles O43: the reads are made from the image that the writes of the values leave. -/
theorem readWriteMultipleReadsWhatItWrote : Obligations.ReadWriteMultipleReadsWhatItWrote := by
  intro s readRef readCount writeRef values quiet canonical small cap bound readable writable
  refine ⟨Image.writeEach .hr writeRef.toNat values s.image, ?_, fun k hk => word_writeEach_written canonical _ hk,
    fun e spared => ?_⟩
  · rw [exec_eq_respond]
    refine respond_answered quiet (dispatchReadWrite_quiet quiet readRef writeRef values cap
      ((validRead_iff _ _ _).mpr ⟨bound, readable⟩) ((validWrite_iff _ _ _).mpr writable)) ?_ ?_
    · rw [encodeResponse, encodeWords_eq, List.length_map, List.length_range, if_neg (by omega)]
    · rw [List.length_cons, List.length_cons, bytesOf_length, List.length_map, List.length_range]
      omega
  · exact Image.element_writeEach_flat .hr (by simp) e _ _ _ canonical fun k hk _ same => spared ⟨k, hk, same.symm⟩

/-- Settles O44: each dispatch by the first of its checks that fails, and the exception it then answers. -/
theorem writesTrap : Obligations.WritesTrap := by
  intro s reference a b values data quiet
  simp only [exec_eq_respond]
  refine ⟨fun notOn notOff => ?_, fun legal outside => ?_, fun outside => ⟨?_, ?_⟩, fun nonempty outside => ?_,
    fun nonempty outside => ?_, fun exceeds => ?_, fun cap outside => ?_⟩
  · have illegal : ¬ coilValueLegal a = true := fun legal => ((coilValueLegal_iff a).mp legal).elim notOn notOff
    exact respond_trapped quiet (dispatchWriteCoil_illegalValue illegal) (by decide : exceptionPdu 0x05 3 = [0x85, 3])
  · exact respond_trapped quiet ((dispatchWriteCoil_legal ((coilValueLegal_iff a).mpr legal)).trans
      (dispatchWriteOne_outside outside)) (by decide : exceptionPdu 0x05 2 = [0x85, 2])
  · exact respond_trapped quiet (dispatchWriteOne_outside outside) (by decide : exceptionPdu 0x06 2 = [0x86, 2])
  · exact respond_trapped quiet (dispatchMaskWrite_outside outside) (by decide : exceptionPdu 0x16 2 = [0x96, 2])
  · exact respond_trapped quiet (dispatchWriteMany_outside nonempty outside) (by decide : exceptionPdu 0x0F 2 = [0x8F, 2])
  · exact respond_trapped quiet (dispatchWriteMany_outside nonempty outside) (by decide : exceptionPdu 0x10 2 = [0x90, 2])
  · exact respond_trapped quiet (dispatchReadWrite_overCap exceeds) (by decide : exceptionPdu 0x17 3 = [0x97, 3])
  · refine respond_trapped quiet (dispatchReadWrite_outside cap ?_) (by decide : exceptionPdu 0x17 2 = [0x97, 2])
    rwa [not_validRead_iff, not_validWrite_iff, or_assoc]

end Sys2Proof.Scope
end

section
/-! SUPPORT. The status, FIFO and encapsulated-interface functions with no other agent active: what each answers where its checks
pass, and which exception it answers where one fails (R200 to R216, R230, R240, R242). -/

namespace Sys2Proof.Scope

open Sys2Proof.Machine

/-- A passed construct check does nothing. -/
theorem constructRequire_true_bind {α : Type} {holds : Bool} {r : ConstructReason} {next : Unit → Except ConstructReason α}
    (passes : holds = true) : (constructRequire holds r >>= next) = next () := by rw [passes]; rfl

section extended

variable {s : State} {reference : U16}

/-! ### Status and diagnostics -/

/-- The domains of the device inputs (R44). -/
theorem device_wf_iff (d : Device) : d.wf = true ↔ commStatusLegal d.commStatus = true ∧ runStatusLegal d.runStatus = true ∧
    d.events.length ≤ 64 ∧ d.deviceData.length ≤ 249 := by
  simp only [Device.wf, Bool.and_eq_true, decide_eq_true_eq, and_assoc]
  rfl

/-- Inputs in their domain are encoded as an event log (R213, R214). -/
theorem encodeResponse_readCommEventLog {status : U16} {events : List Byte} (legal : commStatusLegal status = true)
    (few : events.length ≤ Config.maxEvents) (eventCount messageCount : U16) :
    encodeResponse (.readCommEventLog status eventCount messageCount events) =
      .ok (0x0C :: u8Field (6 + events.length) ::
        (bytes16 status ++ bytes16 eventCount ++ bytes16 messageCount ++ events)) := by
  have size : (bytes16 status ++ bytes16 eventCount ++ bytes16 messageCount ++ events).length = 6 + events.length := by
    simp only [List.length_append, bytes16_length]
  rw [encodeResponse, constructRequire_true_bind (decide_eq_true few), constructRequire_true_bind legal, counted, size]
  rfl

/-- Inputs in their domain are encoded as an identification (R216, R217). -/
theorem encodeResponse_reportSlaveID {runStatus : Byte} {deviceData : List Byte} (legal : runStatusLegal runStatus = true)
    (few : deviceData.length ≤ Config.maxDeviceData) (slaveId : Byte) :
    encodeResponse (.reportSlaveID slaveId runStatus deviceData) =
      .ok (0x11 :: u8Field (deviceData.length + 2) :: slaveId :: runStatus :: deviceData) := by
  rw [encodeResponse, constructRequire_true_bind (decide_eq_true few), constructRequire_true_bind legal]
  rfl

theorem dispatchDiagnostics_eq (subFunction data : U16) : dispatchDiagnostics subFunction data s =
    .ok (.readSerialDiagnostics (s.cfg.diagHandler subFunction data).1 (s.cfg.diagHandler subFunction data).2) s := rfl

/-- Fields that no row names are answered with themselves (R205). -/
theorem diagLookup_unnamed {subFunction data : U16} {rows : List DiagRow}
    (unnamed : ∀ row ∈ rows, ¬ (row.subFunction = subFunction ∧ row.data = data)) :
    diagLookup subFunction data rows = (subFunction, data) := by
  induction rows with
  | nil => rfl
  | cons row rest ih =>
    rw [diagLookup, if_neg (unnamed row List.mem_cons_self), ih fun x hx => unnamed x (List.mem_cons_of_mem _ hx)]

/-! ### FIFO queue -/

/-- A queue within its cap is encoded (R230, R231). -/
theorem encodeResponse_readFIFOQueue {values : List U16} (few : values.length ≤ Config.maxFifo) :
    encodeResponse (.readFIFOQueue values) = .ok (0x18 ::
      (bytes16 (u16Field (2 + 2 * values.length)) ++ bytes16 (u16Field values.length) ++ bytesOf values)) := by
  rw [encodeResponse, constructRequire_true_bind (decide_eq_true few)]
  rfl

/-- There is no count register (R230). -/
theorem dispatchFifo_noRegister (outside : s.cfg.nHR ≤ reference.toNat) :
    dispatchFifo reference s = .raised .illegalAddress s := by
  rw [dispatchFifo, Txn.readConfig_bind, Txn.check_raises _ _ _ ((not_validOne_iff _ _).mpr outside)]

/-- The count is checked before the range of the values (R230). -/
theorem dispatchFifo_overCap (quiet : s.schedule = []) (inside : reference.toNat < s.cfg.nHR)
    (exceeds : 31 < (s.image.word .hr reference.toNat).toNat) : dispatchFifo reference s = .raised .illegalValue s := by
  have fails : ¬ decide ((s.image.word .hr reference.toNat).toNat ≤ Config.maxFifo) = true := by
    rw [decide_eq_true_eq, Config.maxFifo]
    omega
  rw [dispatchFifo, Txn.readConfig_bind, Txn.check_bind _ _ _ ((validOne_iff _ _).mpr inside),
    Txn.bind_ok (memReadWord_quiet s quiet .hr _ inside), Txn.check_raises _ _ _ fails]

/-- A range of values that the validator refuses, with an admitted count (R230). -/
theorem dispatchFifo_outside (quiet : s.schedule = []) (inside : reference.toNat < s.cfg.nHR)
    (cap : (s.image.word .hr reference.toNat).toNat ≤ Config.maxFifo)
    (refused : ¬ validRead s.cfg.nHR (reference.toNat + 1) (s.image.word .hr reference.toNat).toNat = true) :
    dispatchFifo reference s = .raised .illegalAddress s := by
  rw [dispatchFifo, Txn.readConfig_bind, Txn.check_bind _ _ _ ((validOne_iff _ _).mpr inside),
    Txn.bind_ok (memReadWord_quiet s quiet .hr _ inside), Txn.check_bind _ _ _ (decide_eq_true cap),
    Txn.check_raises _ _ _ refused]

/-! ### Modbus Encapsulated Interface -/

/-- Another sub-code is refused before the table is asked (R240). -/
theorem dispatchMEI_otherSubCode {subCode : Byte} (other : subCode ≠ 0x0E) (fieldLevel fieldId : Byte) :
    dispatchMEI subCode fieldLevel fieldId s = .raised .illegalFunction s := by
  have refused : ¬ (subCode == Config.meiSubcode) = true := fun same => other (beq_iff_eq.mp same)
  rw [dispatchMEI, Txn.check_raises _ _ _ refused]

/-- Sub-code 0x0E is answered by the table (R240, R242). -/
theorem dispatchMEI_of_table {fieldLevel fieldId : Byte} {answer : MeiAnswer}
    (table : s.cfg.meiTable fieldLevel fieldId = answer) :
    dispatchMEI 0x0E fieldLevel fieldId s = meiResponse 0x0E fieldLevel answer s := by
  rw [← table]
  rfl

/-- Every answer of a table whose rows and default are in the domain is in it (R242). -/
theorem meiLookup_wf {fieldLevel fieldId : Byte} {otherwise : MeiAnswer} (default_wf : otherwise.wf = true) {rows : List MeiRow}
    (rows_wf : ∀ row ∈ rows, row.answer.wf = true) : (meiLookup fieldLevel fieldId otherwise rows).wf = true := by
  induction rows with
  | nil => exact default_wf
  | cons row rest ih =>
    rw [meiLookup]
    split
    · exact rows_wf row List.mem_cons_self
    · exact ih fun x hx => rows_wf x (List.mem_cons_of_mem _ hx)

theorem meiTable_wf {p : Params} (params : p.wf = true) (fieldLevel fieldId : Byte) :
    (p.meiTable fieldLevel fieldId).wf = true := by
  simp only [Params.wf, Bool.and_eq_true, List.all_eq_true] at params
  obtain ⟨⟨⟨-, rows⟩, otherwise⟩, -⟩ := params
  exact meiLookup_wf otherwise rows

/-- The tuples of the domain (R242). -/
theorem objects_wf_iff (conformity moreFollows nextFieldId : Byte) (fields : List MeiField) :
    (MeiAnswer.objects conformity moreFollows nextFieldId fields).wf = true ↔
      moreFollowsLegal moreFollows = true ∧ fields.length ≤ 64 ∧ ∀ f ∈ fields, f.text.length ≤ 255 := by
  simp only [MeiAnswer.wf, Bool.and_eq_true, decide_eq_true_eq, List.all_eq_true, and_assoc]
  rfl

/-- A field takes at most 257 bytes (R240). -/
theorem encodeMeiFields_length_le {fields : List MeiField} (texts : ∀ f ∈ fields, f.text.length ≤ 255) :
    (encodeMeiFields fields).length ≤ 257 * fields.length := by
  induction fields with
  | nil => exact Nat.le_refl _
  | cons f rest ih =>
    have text := texts f List.mem_cons_self
    have later := ih fun g hg => texts g (List.mem_cons_of_mem _ hg)
    simp only [encodeMeiFields, List.length_cons, List.length_append]
    omega

/-- A tuple of the domain is encoded (R240, R241). -/
theorem encodeResponse_readMEI {moreFollows : Byte} {fields : List MeiField} (legal : moreFollowsLegal moreFollows = true)
    (few : fields.length ≤ Config.maxMeiFields) (texts : ∀ f ∈ fields, f.text.length ≤ 255)
    (fieldLevel conformity nextFieldId : Byte) :
    encodeResponse (.readMEI 0x0E fieldLevel conformity moreFollows nextFieldId fields) =
      .ok (0x2B :: 0x0E :: fieldLevel :: conformity :: moreFollows :: nextFieldId :: u8Field fields.length ::
        encodeMeiFields fields) := by
  have short : (fields.all fun f => decide (f.text.length ≤ 255)) = true :=
    List.all_eq_true.mpr fun f hf => decide_eq_true (texts f hf)
  rw [encodeResponse, constructRequire_true_bind (decide_eq_true few), legal, short]
  rfl

end extended

/-- Settles O46: each function by its samples, which are the inputs, and by the layout of its response. -/
theorem statusFunctionsAnswerTheInputs : Obligations.StatusFunctionsAnswerTheInputs := by
  intro s quiet domains
  obtain ⟨status, runStatus, events, deviceData⟩ := (device_wf_iff s.dev).mp domains
  simp only [exec_eq_respond]
  refine ⟨?_, ?_, ?_, ?_⟩
  · exact respond_answered quiet (dispatchExceptionStatus_quiet quiet) rfl (by simp)
  · exact respond_answered quiet (dispatchEventCounter_quiet quiet) (constructRequire_true_bind status) (by simp)
  · refine respond_answered quiet (dispatchEventLog_quiet quiet) (encodeResponse_readCommEventLog status events _ _) ?_
    simp only [List.length_cons, List.length_append, bytes16_length]
    omega
  · refine respond_answered quiet (dispatchSlaveID_quiet quiet) (encodeResponse_reportSlaveID runStatus deviceData _) ?_
    simp only [List.length_cons]
    omega

/-- Settles O47: the handler's values are the response, and a lookup that meets no row gives the fields. -/
theorem diagnosticsAnswerTheHandler : Obligations.DiagnosticsAnswerTheHandler := by
  intro s subFunction data quiet
  refine ⟨?_, diagLookup_unnamed⟩
  rw [exec_eq_respond]
  exact respond_answered quiet (dispatchDiagnostics_eq subFunction data) rfl (by simp)

/-- Settles O51: the values are the registers after the count register, as many as it holds. -/
theorem fifoReadsAnswerTheQueue : Obligations.FifoReadsAnswerTheQueue := by
  rintro s reference count quiet inside rfl cap bound fits
  rw [exec_eq_respond]
  refine respond_answered quiet (dispatchFifo_quiet quiet ((validOne_iff _ _).mpr inside) cap
    ((validRead_iff _ _ _).mpr ⟨bound, fits⟩)) ?_ ?_
  · rw [encodeResponse_readFIFOQueue (by rwa [List.length_map, List.length_range]), List.length_map, List.length_range]
  · simp only [List.length_cons, List.length_append, bytes16_length, bytesOf_length, List.length_map, List.length_range]
    omega

/-- Settles O52: the dispatch by the first of its three checks that fails, and the exception it then answers. -/
theorem fifoTraps : Obligations.FifoTraps := by
  rintro s reference count quiet rfl
  simp only [exec_eq_respond, ← not_validRead_iff]
  refine ⟨fun outside => ?_, fun inside exceeds => ?_, fun inside cap refused => ?_⟩
  · exact respond_trapped quiet (dispatchFifo_noRegister outside) (by decide : exceptionPdu 0x18 2 = [0x98, 2])
  · exact respond_trapped quiet (dispatchFifo_overCap quiet inside exceeds) (by decide : exceptionPdu 0x18 3 = [0x98, 3])
  · exact respond_trapped quiet (dispatchFifo_outside quiet inside cap refused)
      (by decide : exceptionPdu 0x18 2 = [0x98, 2])

/-- Settles O53: the tuple of the table is in its domain, so its response has an encoding. -/
theorem meiReadsAnswerTheTable : Obligations.MeiReadsAnswerTheTable := by
  intro s fieldLevel fieldId conformity moreFollows nextFieldId fields quiet params table
  obtain ⟨legal, few, texts⟩ := (objects_wf_iff _ _ _ _).mp (table ▸ meiTable_wf params fieldLevel fieldId)
  rw [exec_eq_respond, ← encodeMeiFields_eq_flatMap]
  refine respond_answered quiet (dispatchMEI_of_table table) (encodeResponse_readMEI legal few texts _ _ _) ?_
  have size := encodeMeiFields_length_le texts
  simp only [List.length_cons]
  omega

/-- Settles O54: the sub-code's check comes first, then the table's answer is the exception. -/
theorem meiTraps : Obligations.MeiTraps := by
  intro s subCode fieldLevel fieldId quiet
  simp only [exec_eq_respond]
  refine ⟨fun other => ?_, fun table => ?_, fun table => ?_⟩
  · exact respond_trapped quiet (dispatchMEI_otherSubCode other _ _) (by decide : exceptionPdu 0x2B 1 = [0xAB, 1])
  · exact respond_trapped quiet (dispatchMEI_of_table table) (by decide : exceptionPdu 0x2B 2 = [0xAB, 2])
  · exact respond_trapped quiet (dispatchMEI_of_table table) (by decide : exceptionPdu 0x2B 3 = [0xAB, 3])

end Sys2Proof.Scope
end

section
/-! SUPPORT. The file functions with no other agent active: what they answer and store where every sub-request passes its check, and
which exception they answer where one fails (R220, R221, R225, R306). -/

namespace Sys2Proof.Scope

open Sys2Proof.Machine

/-! ### The checks -/

/-- `CheckSub` as what it refuses: the reference type first, then the file, the record and the words (R221). -/
theorem checkSub_eq (p : Params) (refType : Byte) (f r n : Nat) : checkSub p refType f r n =
    if refType ≠ 6 then some .illegalValue
    else if p.nFiles ≤ f ∨ 9999 < r ∨ p.records f ≤ r ∨ p.words f r < n then some .illegalAddress
    else none := by
  simp only [checkSub, ite_or]
  rfl

theorem checkSub_illegalValue {refType : Byte} (other : refType ≠ 6) (p : Params) (f r n : Nat) :
    checkSub p refType f r n = some .illegalValue := by
  rw [checkSub_eq, if_pos other]

theorem checkSub_illegalAddress {p : Params} {refType : Byte} {f r n : Nat} (known : refType = 6)
    (absent : p.nFiles ≤ f ∨ 9999 < r ∨ p.records f ≤ r ∨ p.words f r < n) :
    checkSub p refType f r n = some .illegalAddress := by
  rw [checkSub_eq, if_neg (not_not.mpr known), if_pos absent]

/-- What passes `CheckSub` (R221). -/
theorem checkSub_passes {p : Params} {refType : Byte} {f r n : Nat}
    (admitted : refType = 6 ∧ f < p.nFiles ∧ r ≤ 9999 ∧ r < p.records f ∧ n ≤ p.words f r) :
    checkSub p refType f r n = none := by
  obtain ⟨known, file, numbered, record, words⟩ := admitted
  rw [checkSub_eq, if_neg (not_not.mpr known), if_neg (by omega)]

section dispatches

variable {s : State} {kind : ExceptionKind}

/-- An exception ends what would follow it (R13). -/
theorem txn_bind_raised {α β : Type} {m : Txn α} {next : α → Txn β} (raised : m s = .raised kind s) :
    Txn.bind m next s = .raised kind s := by
  rw [Txn.bind, raised]

/-- The first sub-request that fails its check decides a read (R220, R306). -/
theorem dispatchReadFile_refused {before after : List FileRead} {x : FileRead}
    (passed : ∀ y ∈ before, checkFileRead s.cfg y = none) (fails : checkFileRead s.cfg x = some kind) :
    dispatchReadFile (before ++ x :: after) s = .raised kind s := by
  rw [dispatchReadFile, txn_bind_raised (checkEach_fail before after x passed fails)]

/-- The first sub-request that fails its check decides a write (R225, R306). -/
theorem dispatchWriteFile_refused {before after : List FileWrite} {x : FileWrite}
    (passed : ∀ y ∈ before, checkFileWrite s.cfg y = none) (fails : checkFileWrite s.cfg x = some kind) :
    dispatchWriteFile (before ++ x :: after) s = .raised kind s := by
  rw [dispatchWriteFile, txn_bind_raised (checkEach_fail before after x passed fails)]

/-- The size of the response is checked after all sub-requests (R220). -/
theorem dispatchReadFile_tooBig {subs : List FileRead} (passed : ∀ x ∈ subs, checkFileRead s.cfg x = none)
    (tooBig : 255 < fileReadTotal subs) : dispatchReadFile subs s = .raised .illegalValue s := by
  rw [dispatchReadFile, Txn.bind_ok (checkEach_pass subs passed),
    Txn.check_raises _ _ _ (by rw [decide_eq_true_eq]; omega)]

end dispatches

/-! ### The records a read answers -/

/-- The byteCount of a ReadFileRecord response as a sum over the sub-requests (R220). -/
theorem fileReadTotal_eq_sum (subs : List FileRead) :
    fileReadTotal subs = (subs.map fun x => 2 + 2 * x.wordCount.toNat).sum := by
  induction subs with
  | nil => rfl
  | cons x rest ih => rw [fileReadTotal, ih, List.map_cons, List.sum_cons]

/-- The words that a sub-request names (R220). -/
def recordOf (im : Image) (x : FileRead) : List U16 :=
  (List.range x.wordCount.toNat).map fun k => im.fileWord x.file.toNat x.record.toNat k

theorem recordOf_length (im : Image) (x : FileRead) : (recordOf im x).length = x.wordCount.toNat := by
  rw [recordOf, List.length_map, List.length_range]

theorem recordsTotal_recordOf (im : Image) (subs : List FileRead) :
    recordsTotal (subs.map (recordOf im)) = fileReadTotal subs := by
  simp only [recordsTotal_eq_sum, fileReadTotal_eq_sum, List.map_map, Function.comp_def, recordOf_length]

/-- The counted sub-responses, in the order of the sub-requests (R220). -/
theorem counted_recordOf (im : Image) (subs : List FileRead) : counted (encodeRecords (subs.map (recordOf im))) =
    u8Field (subs.map fun x => 2 + 2 * x.wordCount.toNat).sum ::
      subs.flatMap fun x => u8Field (1 + 2 * x.wordCount.toNat) :: 0x06 :: bytesOf (recordOf im x) := by
  rw [counted, encodeRecords_length, recordsTotal_recordOf, fileReadTotal_eq_sum]
  simp only [encodeRecords_eq_flatMap, List.flatMap_map, recordOf_length]

/-- Records that fit the byte count are encoded (R220, R222). -/
theorem encodeResponse_readFileRecord {records : List (List U16)} (some_records : records ≠ [])
    (fits : recordsTotal records ≤ 255) :
    encodeResponse (.readFileRecord records) = .ok (0x14 :: counted (encodeRecords records)) := by
  have nonempty : (!records.isEmpty) = true := by simpa using some_records
  rw [encodeResponse, constructRequire_true_bind nonempty, constructRequire_true_bind (decide_eq_true fits)]
  rfl

/-! ### The image that the writes leave -/

/-- A file register that no write of the run is to keeps its value. -/
theorem fileWord_writeEach_spared {f r f' r' i : Nat} (values : List U16) : ∀ (a : Nat) (im : Image), im.wf = true →
    (∀ k < values.length, fileKey f r (a + k) ≠ fileKey f' r' i) →
    (Image.writeEach (.file f r) a values im).fileWord f' r' i = im.fileWord f' r' i := by
  induction values with
  | nil => exact fun _ _ _ _ => rfl
  | cons v values ih =>
    intro a im canonical spared
    have later : ∀ k < values.length, fileKey f r (a + 1 + k) ≠ fileKey f' r' i := fun k hk => by
      rw [Nat.add_assoc, Nat.add_comm 1 k]
      exact spared (k + 1) (Nat.succ_lt_succ hk)
    rw [Image.writeEach, ih (a + 1) _ (Image.wf_write im canonical _) later, Image.fileWord_write_file im canonical,
      if_neg (show fileKey f r a ≠ fileKey f' r' i from spared 0 (Nat.succ_pos _))]

/-- Register `a + k` of the record holds value `k` after a run of writes from register `a` on. -/
theorem fileWord_writeEach_written {f r : Nat} (values : List U16) : ∀ (a k : Nat) (im : Image), im.wf = true →
    k < values.length → (Image.writeEach (.file f r) a values im).fileWord f r (a + k) = values.getD k 0 := by
  induction values with
  | nil => exact fun _ _ _ _ none => absurd none (Nat.not_lt_zero _)
  | cons v values ih =>
    intro a k im canonical inside
    rw [Image.writeEach]
    cases k with
    | zero =>
      have other : ∀ j < values.length, fileKey f r (a + 1 + j) ≠ fileKey f r a := fun j _ same => by
        have offset : a + 1 + j = a := Nat.add_left_cancel same
        omega
      refine (fileWord_writeEach_spared values _ _ (Image.wf_write im canonical _) other).trans ?_
      rw [Image.fileWord_write_file im canonical, if_pos rfl, List.getD_cons_zero]
    | succ k =>
      rw [Nat.add_comm k 1, ← Nat.add_assoc, Nat.add_comm 1 k, List.getD_cons_succ]
      exact ih (a + 1) k _ (Image.wf_write im canonical _) (Nat.lt_of_succ_lt_succ inside)

theorem writeRecords_append (before after : List FileWrite) (im : Image) :
    Image.writeRecords (before ++ after) im = Image.writeRecords after (Image.writeRecords before im) := by
  induction before generalizing im with
  | nil => rfl
  | cons sub rest ih => exact ih _

theorem wf_writeRecords (subs : List FileWrite) {im : Image} (canonical : im.wf = true) :
    (Image.writeRecords subs im).wf = true := by
  induction subs generalizing im with
  | nil => exact canonical
  | cons sub rest ih => exact ih (Image.wf_writeEach _ _ _ _ canonical)

section writes

variable {p : Params} {file record : U16} {k : Nat}

/-- A register that a sub-request does not name is not among those it writes: references of registers that exist are distinct. -/
theorem fileKey_ne_of_unnamed (params : p.wf = true) (small : k < 65536) {sub : FileWrite} (passed : checkFileWrite p sub = none)
    (unnamed : ¬ (sub.file = file ∧ sub.record = record ∧ k < sub.data.length)) :
    ∀ j < sub.data.length, fileKey sub.file.toNat sub.record.toNat (0 + j) ≠ fileKey file.toNat record.toNat k := by
  intro j inside same
  have register := (fileExists_small params (checkSub_exists passed inside)).2
  rw [Nat.zero_add, fileKey_eq sub.record.isLt register record.isLt small] at same
  obtain ⟨sameFile, sameRecord, rfl⟩ := same
  exact unnamed ⟨BitVec.eq_of_toNat_eq sameFile, BitVec.eq_of_toNat_eq sameRecord, inside⟩

/-- A register that no sub-request names keeps its value (R225). -/
theorem fileWord_writeRecords_unnamed (params : p.wf = true) (small : k < 65536) {subs : List FileWrite}
    (passed : ∀ sub ∈ subs, checkFileWrite p sub = none)
    (unnamed : ∀ sub ∈ subs, ¬ (sub.file = file ∧ sub.record = record ∧ k < sub.data.length)) {im : Image}
    (canonical : im.wf = true) :
    (Image.writeRecords subs im).fileWord file.toNat record.toNat k = im.fileWord file.toNat record.toNat k := by
  induction subs generalizing im with
  | nil => rfl
  | cons sub rest ih =>
    have spared := fileKey_ne_of_unnamed params small (passed sub List.mem_cons_self) (unnamed sub List.mem_cons_self)
    rw [Image.writeRecords, ih (fun x hx => passed x (List.mem_cons_of_mem _ hx))
      (fun x hx => unnamed x (List.mem_cons_of_mem _ hx)) (Image.wf_writeEach _ _ _ _ canonical),
      fileWord_writeEach_spared sub.data 0 im canonical spared]

/-- A register holds the word of the last sub-request that names it (R225). -/
theorem fileWord_writeRecords_last (params : p.wf = true) {before after : List FileWrite} {sub : FileWrite}
    (passed : ∀ x ∈ before ++ sub :: after, checkFileWrite p x = none) (inside : k < sub.data.length)
    (last : ∀ later ∈ after, ¬ (later.file = sub.file ∧ later.record = sub.record ∧ k < later.data.length)) {im : Image}
    (canonical : im.wf = true) :
    (Image.writeRecords (before ++ sub :: after) im).fileWord sub.file.toNat sub.record.toNat k = sub.data.getD k 0 := by
  have small := (fileExists_small params (checkSub_exists (passed sub (by simp)) inside)).2
  have written := fileWord_writeEach_written (f := sub.file.toNat) (r := sub.record.toNat) sub.data 0 k _
    (wf_writeRecords before canonical) inside
  rw [Nat.zero_add] at written
  rw [writeRecords_append, Image.writeRecords, fileWord_writeRecords_unnamed params small
    (fun x hx => passed x (by simp [hx])) last (Image.wf_writeEach _ _ _ _ (wf_writeRecords before canonical)), written]

end writes

/-- Settles O48: the records are the words named, and they fit the byte count as the checks say. -/
theorem fileReadsAnswerTheRecords : Obligations.FileReadsAnswerTheRecords := by
  intro s subs quiet some_subs admitted fits
  rw [← fileReadTotal_eq_sum] at fits
  have size : recordsTotal (subs.map (recordOf s.image)) ≤ 255 := by rwa [recordsTotal_recordOf]
  have read : dispatchReadFile subs s = .ok (.readFileRecord (subs.map (recordOf s.image))) s :=
    dispatchReadFile_quiet quiet subs (fun x mem => checkSub_passes (admitted x mem)) fits
  have answered := respond_answered (functionCode := 0x14) quiet read
    (encodeResponse_readFileRecord (by simpa using some_subs) size)
    (by rw [counted, List.length_cons, List.length_cons, encodeRecords_length]; omega)
  rw [exec_eq_respond]
  rwa [counted_recordOf] at answered

/-- Settles O49: the image is that of the writes in order, and what no sub-request names is in the instruction's frame. -/
theorem fileWritesStoreAndEcho : Obligations.FileWritesStoreAndEcho := by
  intro s subs quiet canonical params wf admitted
  have passed : ∀ sub ∈ subs, checkFileWrite s.cfg sub = none := fun sub mem => checkSub_passes (admitted sub mem)
  have fits : (encode (.writeFileRecord subs)).length ≤ 65534 := by
    simp only [Instr.wellFormed, Bool.and_eq_true, decide_eq_true_eq] at wf
    simp only [encode, encodeBody, counted, List.length_cons, encodeFileWrites_length]
    omega
  have answered : exec (.writeFileRecord subs) s =
      .next (s.answered (Image.writeRecords subs s.image) (encode (.writeFileRecord subs))) := by
    rw [exec_eq_respond]
    exact respond_answered quiet (dispatchWriteFile_quiet quiet subs passed) (encodeResponse_writeFileRecord wf passed) fits
  refine ⟨_, answered, ?_, fun e present spared => ?_⟩
  · rintro before sub after rfl k inside last
    exact fileWord_writeRecords_last params passed inside last canonical
  · have alone : s.LeftAlone e := fun slot mem => by simp [quiet] at mem
    exact exec_keeps_element answered params canonical present spared alone

/-- Settles O50: each dispatch by the first of its checks that fails, and the exception it then answers. -/
theorem fileFunctionsTrap : Obligations.FileFunctionsTrap := by
  intro s quiet
  simp only [exec_eq_respond]
  refine ⟨fun before after x passed => ⟨fun other => ?_, fun known absent => ?_⟩, fun subs passed tooBig => ?_,
    fun before after x passed => ⟨fun other => ?_, fun known absent => ?_⟩⟩
  · exact respond_trapped quiet (dispatchReadFile_refused passed (checkSub_illegalValue other _ _ _ _))
      (by decide : exceptionPdu 0x14 3 = [0x94, 3])
  · exact respond_trapped quiet (dispatchReadFile_refused passed (checkSub_illegalAddress known absent))
      (by decide : exceptionPdu 0x14 2 = [0x94, 2])
  · exact respond_trapped quiet (dispatchReadFile_tooBig passed (fileReadTotal_eq_sum subs ▸ tooBig))
      (by decide : exceptionPdu 0x14 3 = [0x94, 3])
  · exact respond_trapped quiet (dispatchWriteFile_refused passed (checkSub_illegalValue other _ _ _ _))
      (by decide : exceptionPdu 0x15 3 = [0x95, 3])
  · exact respond_trapped quiet (dispatchWriteFile_refused passed (checkSub_illegalAddress known absent))
      (by decide : exceptionPdu 0x15 2 = [0x95, 2])

end Sys2Proof.Scope
end

section
/-! SUPPORT. What either side encodes comes back when the other side decodes it (R267 to R271, R274): a checked request record
stands for a well-formed request, and every response PDU decodes to the record it was built from. -/

namespace Sys2Proof.Scope

open Sys2Proof.Machine

/-- A construct check that what follows it went past (R273). -/
theorem constructRequire_bind_ok {α : Type} {holds : Bool} {r : ConstructReason} {next : Unit → Except ConstructReason α}
    {v : α} (built : (constructRequire holds r >>= next) = .ok v) : holds = true ∧ next () = .ok v := by
  cases holds with
  | false => cases built
  | true => exact ⟨rfl, built⟩

/-! ### Responses -/

/-- A bit response carries a byte count that is the length of its data (R151, R153). -/
theorem encodeBits_eq_ok {functionCode byteCount : Byte} {data pdu : List Byte}
    (built : encodeBits functionCode byteCount data = .ok pdu) :
    pdu = functionCode :: counted data ∧ data.length ≤ 255 ∧ u8Field data.length = byteCount := by
  obtain ⟨agree, built⟩ := constructRequire_bind_ok built
  have size : data.length = byteCount.toNat := beq_iff_eq.mp agree
  have small := byteCount.isLt
  have field : u8Field data.length = byteCount := by rw [size, u8Field_of_toNat]
  cases built
  exact ⟨by rw [counted, field], by omega, field⟩

/-- The words of a register response are read back (R155, R157, R191). -/
theorem decodeWords_of_encodeWords {functionCode : Byte} {values : List U16} {pdu : List Byte}
    (built : encodeWords functionCode values = .ok pdu) :
    pdu = functionCode :: counted (bytesOf values) ∧ decodeWords (counted (bytesOf values)) = .ok values := by
  obtain ⟨fits, built⟩ := constructRequire_bind_ok built
  have small : 2 * values.length ≤ 255 := decide_eq_true_eq.mp fits
  cases built
  exact ⟨rfl, by rw [decodeWords_counted (by rwa [bytesOf_length]) (by rw [bytesOf_length]; omega), wordsOf_bytesOf]⟩

/-- A function code that the request side does not recognize has no row on the response side either (R260). -/
theorem createModbusResponse_eq_none {functionCode : Byte} (unknown : recognized functionCode = false) :
    createModbusResponse functionCode = none := by
  have absent := (recognized_eq_true_iff functionCode).not.mp (by simp [unknown])
  simpa [createModbusResponse, responseTable, List.lookup_eq_none_iff] using absent

/-- Bit 7 marks the exception responses: one body byte and no more (R270). -/
theorem decodeResponse_exception {functionCode : Byte} (marked : isException functionCode = true) (body : List Byte) :
    decodeResponse (functionCode :: body) = decodeExceptionResponse functionCode body := by
  rw [decodeResponse, if_pos marked]

/-- The record of an exception response: its code byte and the function code with bit 7 cleared (R101, R270). -/
theorem decodeExceptionResponse_code (functionCode code : Byte) :
    decodeExceptionResponse functionCode [code] = .ok (.exception (withoutExceptionBit functionCode) code) := rfl

/-- With bit 7 clear, a code outside the table is the generic shell, its body unread (R271). -/
theorem decodeResponse_unknown {functionCode : Byte} (normal : isException functionCode = false)
    (unknown : recognized functionCode = false) (body : List Byte) :
    decodeResponse (functionCode :: body) = .ok (.unknown functionCode body) := by
  simp [decodeResponse, normal, createModbusResponse_eq_none unknown]

/-- Setting bit 7 of a byte that has it clear marks it, and clearing it again gives the byte back (R101, R301). -/
theorem withExceptionBit_of_normal {functionCode : Byte} (normal : isException functionCode = false) :
    isException (withExceptionBit functionCode) = true ∧
      withoutExceptionBit (withExceptionBit functionCode) = functionCode := by
  revert functionCode
  decide

/-- Every PDU of the response encoder decodes to the record it was built from (R274 (b)). -/
theorem decodeResponse_of_encodeResponse {record : Response} {pdu : List Byte} (built : encodeResponse record = .ok pdu) :
    decodeResponse pdu = .ok record := by
  cases record with
  | readCoils byteCount data =>
    obtain ⟨rfl, small, rfl⟩ := encodeBits_eq_ok built
    exact decodeResponse_of_format rfl (decodeBC_counted data small) rfl
  | readInputDiscretes byteCount data =>
    obtain ⟨rfl, small, rfl⟩ := encodeBits_eq_ok built
    exact decodeResponse_of_format rfl (decodeBC_counted data small) rfl
  | readMultipleRegisters values =>
    obtain ⟨rfl, read⟩ := decodeWords_of_encodeWords built
    exact decodeResponse_of_format rfl read rfl
  | readInputRegisters values =>
    obtain ⟨rfl, read⟩ := decodeWords_of_encodeWords built
    exact decodeResponse_of_format rfl read rfl
  | writeCoil reference value =>
    obtain ⟨legal, built⟩ := constructRequire_bind_ok built
    cases built
    exact decodeResponse_of_format rfl (decodeRC_bytes16 _ _) (require_true_bind legal)
  | writeSingleRegister reference value =>
    cases built
    exact decodeResponse_of_format rfl (decodeRC_bytes16 _ _) rfl
  | readExceptionStatus status =>
    cases built
    rfl
  | readSerialDiagnostics subFunction data =>
    cases built
    exact decodeResponse_of_format rfl (decodeRC_bytes16 _ _) rfl
  | readCommEventCounter status eventCount =>
    obtain ⟨legal, built⟩ := constructRequire_bind_ok built
    cases built
    exact decodeResponse_of_format rfl (decodeRC_bytes16 _ _) (require_true_bind legal)
  | readCommEventLog status eventCount messageCount events =>
    obtain ⟨few, checked⟩ := constructRequire_bind_ok built
    obtain ⟨legal, -⟩ := constructRequire_bind_ok checked
    rw [encodeResponse_readCommEventLog legal (decide_eq_true_eq.mp few)] at built
    cases built
    exact decodeResponse_of_body rfl ((decodeReadCommEventLogResponse_counted _ _ _ (decide_eq_true_eq.mp few)).trans
      (if_pos ((two_valued_eq_true _ _ _).mp legal)))
  | writeMultipleCoils reference count =>
    cases built
    exact decodeResponse_of_format rfl (decodeRC_bytes16 _ _) rfl
  | writeMultipleRegisters reference count =>
    cases built
    exact decodeResponse_of_format rfl (decodeRC_bytes16 _ _) rfl
  | reportSlaveID slaveId runStatus deviceData =>
    obtain ⟨few, checked⟩ := constructRequire_bind_ok built
    obtain ⟨legal, -⟩ := constructRequire_bind_ok checked
    rw [encodeResponse_reportSlaveID legal (decide_eq_true_eq.mp few), Nat.add_comm] at built
    cases built
    exact decodeResponse_of_body rfl ((decodeReportSlaveIDResponse_counted _ _ (decide_eq_true_eq.mp few)).trans
      (if_pos ((two_valued_eq_true _ _ _).mp legal)))
  | readFileRecord records =>
    obtain ⟨some_records, built⟩ := constructRequire_bind_ok built
    obtain ⟨fits, built⟩ := constructRequire_bind_ok built
    cases built
    exact decodeResponse_of_body rfl (decodeReadFileRecordResponse_encode (by simpa using some_records)
      (by rw [encodeRecords_length]; exact decide_eq_true_eq.mp fits))
  | writeFileRecord subs =>
    obtain ⟨some_subs, built⟩ := constructRequire_bind_ok built
    obtain ⟨-, built⟩ := constructRequire_bind_ok built
    obtain ⟨fits, built⟩ := constructRequire_bind_ok built
    cases built
    have some_subs : subs ≠ [] := by simpa using some_subs
    exact decodeResponse_of_format rfl
      (decodeFileWrites_encode subs (List.length_pos_iff.mpr some_subs) (decide_eq_true_eq.mp fits)) rfl
  | maskWriteRegister reference andMask orMask =>
    cases built
    rw [List.append_assoc]
    exact decodeResponse_of_format rfl (decodeMW_bytes16 _ _ _) rfl
  | readWriteMultiple values =>
    obtain ⟨rfl, read⟩ := decodeWords_of_encodeWords built
    exact decodeResponse_of_format rfl read rfl
  | readFIFOQueue values =>
    obtain ⟨cap, built⟩ := constructRequire_bind_ok built
    cases built
    have few : values.length ≤ 31 := decide_eq_true_eq.mp cap
    have count : (u16Field values.length).toNat = values.length := u16Field_toNat _ (by omega)
    have size := bytesOf_length values
    refine decodeResponse_of_body rfl ?_
    rw [← size, decodeReadFIFOQueueResponse_counted _ (by omega), count, if_pos ⟨size, few⟩, wordsOf_bytesOf]
  | readMEI subCode fieldLevel conformity moreFollows nextFieldId fields =>
    obtain ⟨few, built⟩ := constructRequire_bind_ok built
    obtain ⟨legal, built⟩ := constructRequire_bind_ok built
    cases built
    simp only [Bool.and_eq_true, beq_iff_eq, List.all_eq_true, decide_eq_true_eq] at few legal
    obtain ⟨⟨sub, more⟩, texts⟩ := legal
    exact decodeResponse_of_body rfl ((decodeReadMEIResponse_encode _ _ _ _ _ (few.trans (by decide)) texts).trans
      (if_pos ⟨few, (two_valued_eq_true _ _ _).mp more, sub⟩))
  | exception functionCode code =>
    obtain ⟨normal, built⟩ := constructRequire_bind_ok built
    cases built
    obtain ⟨marked, back⟩ := withExceptionBit_of_normal ((Bool.not_eq_true' _).mp normal)
    rw [decodeResponse_exception marked, decodeExceptionResponse_code, back]
  | unknown functionCode body =>
    obtain ⟨legal, built⟩ := constructRequire_bind_ok built
    cases built
    obtain ⟨normal, unknown⟩ := Bool.and_eq_true_iff.mp legal
    exact decodeResponse_unknown ((Bool.not_eq_true' _).mp normal) ((Bool.not_eq_true' _).mp unknown) body

theorem headerFor_headless (headless : Bool) (h : HeaderFields) : (headerFor headless h).headless = headless := by
  cases headless <;> rfl

/-- DEC_RSP by its header part and its PDU part (R270). -/
theorem decodeResponseADU_of_decode {headless : Bool} {input pdu : List Byte} {header : Header} {record : Response}
    (split : decodeADU headless input = .ok (header, pdu)) (decoded : decodeResponse pdu = .ok record) :
    decodeResponseADU headless input = .ok (header, record) := by
  simp only [decodeResponseADU, split, ok_bind, decoded]
  rfl

/-- The ADU of an encoded response decodes to the header with the PDU's function code and the record. -/
theorem decodeResponseADU_aduOf (h : Header) {record : Response} {pdu : List Byte} (built : encodeResponse record = .ok pdu)
    (fits : 1 + pdu.length ≤ 65535) :
    decodeResponseADU h.headless (aduOf h pdu) = .ok (responseHeader h pdu, record) := by
  have some_pdu : pdu ≠ [] := by
    obtain ⟨rest, rfl⟩ := encodeResponse_code built
    exact List.cons_ne_nil _ _
  exact decodeResponseADU_of_decode (decodeADU_aduOf h some_pdu fits) (decodeResponse_of_encodeResponse built)

/-- Settles O13: the header comes back from the ADU and the record from the PDU. -/
theorem responsesComeBack : Obligations.ResponsesComeBack := by
  intro headless h record pdu adu built encoded
  rw [encodeResponseADU, built, ok_bind] at encoded
  obtain ⟨fits, rfl⟩ := encodeADU_eq_ok encoded
  simpa only [headerFor_headless] using decodeResponseADU_aduOf (headerFor headless h) built fits

/-- Settles O14: bit 7 decides first, then the table. -/
theorem exceptionsAndUnknownResponsesDecode : Obligations.ExceptionsAndUnknownResponsesDecode := by
  intro functionCode body
  simp only [← isException_eq]
  refine ⟨fun marked => ⟨?_, ?_, fun more => ?_⟩, fun normal unknown => ?_⟩
  · rintro code rfl
    exact (decodeResponse_exception marked [code]).trans (decodeExceptionResponse_code functionCode code)
  · rintro rfl
    exact decodeResponse_exception marked []
  · match body, more with
    | _ :: _ :: _, _ => exact decodeResponse_exception marked _
  · exact decodeResponse_unknown normal (by simpa using (recognized_eq_true_iff functionCode).not.mpr unknown) body

/-! ### Requests -/

/-- The bits that a byte count can carry fit their count field (R177). -/
theorem coilBytesFit_iff (bits : List Bool) : coilBytesFit bits = true ↔ bits.length ≤ 2040 := by
  rw [coilBytesFit, decide_eq_true_eq, packedLength]
  omega

/-- A list of file sub-requests that passed its checks is not empty and fits (R222, R226). -/
theorem fileChecks_passed {α : Type} {subs : List α} {legal fits : Bool} {noSubs field size : ConstructReason}
    (passed : (constructRequire (!subs.isEmpty) noSubs >>= fun _ => constructRequire legal field >>= fun _ =>
      constructRequire fits size) = .ok ()) : 1 ≤ subs.length ∧ fits = true := by
  obtain ⟨nonempty, passed⟩ := constructRequire_bind_ok passed
  obtain ⟨-, passed⟩ := constructRequire_bind_ok passed
  have some_subs : subs ≠ [] := by simpa using nonempty
  exact ⟨List.length_pos_iff.mpr some_subs, constructRequire_ok passed⟩

/-- A record that passes its construct checks stands for a request that a PDU can carry (R98, R273). -/
theorem instr_wellFormed_of_check {p : Params} {record : RequestRecord} (passed : record.check p = .ok ()) :
    record.instr.wellFormed = true := by
  cases record
  case writeMultipleCoils reference bits =>
    have few := (coilBytesFit_iff bits).mp (constructRequire_ok passed)
    have count : (u16Field bits.length).toNat = bits.length := u16Field_toNat _ (by omega)
    simp only [RequestRecord.instr, Instr.wellFormed, packLsb_length, count, Bool.and_eq_true, beq_iff_eq, decide_eq_true_eq,
      true_and, packedLength]
    omega
  case writeMultipleRegisters reference values => exact constructRequire_ok passed
  case readFileRecord subs =>
    obtain ⟨some_subs, fits⟩ := fileChecks_passed passed
    have size : 1 + 7 * subs.length ≤ 248 := decide_eq_true_eq.mp fits
    simp only [RequestRecord.instr, Instr.wellFormed, Bool.and_eq_true, decide_eq_true_eq]
    omega
  case writeFileRecord subs =>
    obtain ⟨some_subs, fits⟩ := fileChecks_passed passed
    have size : 1 + fileWriteBytes subs ≤ 248 := decide_eq_true_eq.mp fits
    simp only [RequestRecord.instr, Instr.wellFormed, Bool.and_eq_true, decide_eq_true_eq]
    omega
  case readWriteMultiple readRef readCount writeRef values => exact (constructRequire_bind_ok passed).1
  all_goals rfl

/-- DEC_REQ by its header part and its PDU part (R261). -/
theorem decodeRequestADU_of_decode {headless : Bool} {input pdu : List Byte} {header : Header} {i : Instr}
    (split : decodeADU headless input = .ok (header, pdu)) (decoded : decode pdu = .ok i) :
    decodeRequestADU headless input = .ok (header, .instr i) := by
  simp only [decodeRequestADU, split, decoded]

/-- Settles O12: the header comes back from the ADU and the well-formed request from its PDU. -/
theorem masterRequestsComeBack : Obligations.MasterRequestsComeBack := by
  intro p headless h record adu encoded
  obtain ⟨pdu, built, encoded⟩ := bind_ok encoded
  obtain ⟨_, passed, built⟩ := bind_ok built
  cases built
  obtain ⟨fits, rfl⟩ := encodeADU_eq_ok encoded
  refine ⟨?_, ?_⟩
  · have split := decodeADU_aduOf (headerFor headless h) (List.cons_ne_nil _ _) fits
    rw [headerFor_headless] at split
    exact decodeRequestADU_of_decode split (decodeOfEncode _ (instr_wellFormed_of_check passed))
  · rintro reference bits rfl
    have few := (coilBytesFit_iff bits).mp (constructRequire_ok passed)
    refine ⟨_, _, rfl, u16Field_toNat _ (by omega), take_unpackLsb_packLsb bits _ ?_⟩
    rw [packedLength]
    omega

end Sys2Proof.Scope
end

section
/-! SUPPORT. How a step ends whatever the other agents do: it consumes its command, and leaves an outcome unless a reset was among
the events to come (R35, R42, R275, R340). -/

namespace Sys2Proof.Scope

open Sys2Proof.Machine

variable {s u : State}

/-- In the course of a command begun in `s`: the configuration and the commands to come are `s`'s, and no slot is to come that `s`
did not have. -/
structure InCourse (s u : State) : Prop where
  cfg : u.cfg = s.cfg
  commands : u.commands = s.commands
  slots : ∀ slot ∈ u.schedule, slot ∈ s.schedule

/-- Where a reset has ended a command begun in `s` (R340). -/
structure Abandoned (s u : State) : Prop where
  cfg : u.cfg = s.cfg
  commands : u.commands = s.commands
  outcome : u.outcome = none
  reset : ∃ slot ∈ s.schedule, Event.reset ∈ slot

theorem inCourse_refl (s : State) : InCourse s s := ⟨rfl, rfl, fun _ mem => mem⟩

/-- The other agents only use up slots; what ends a command early is a reset that was to come. -/
theorem inCourse_stable : Stable (InCourse s) (Abandoned s) := by
  refine stable_of_schedule s.schedule (fun _ h => h.slots) ?_ (fun _ _ _ h _ _ => ⟨h.cfg, h.commands, h.slots⟩)
    (fun _ _ h _ _ => ⟨h.cfg, h.commands, h.slots⟩) fun _ _ h reset => ⟨h.cfg, h.commands, rfl, reset⟩
  intro u slot rest h split
  exact ⟨h.cfg, h.commands, fun x hx => h.slots x (by rw [split]; exact List.mem_cons_of_mem _ hx)⟩

theorem inCourse_latchStable : LatchStable (InCourse s) :=
  latchStable_of_latches fun _ _ h => ⟨h.cfg, h.commands, h.slots⟩

theorem inCourse_followed : Followed s.cfg (InCourse s) (Abandoned s) := ⟨fun _ h => h.cfg, inCourse_stable⟩

/-- What a command begun in `s` leaves: the configuration, the commands to come, and an outcome unless a reset came. -/
structure Ended (s t : State) : Prop where
  cfg : t.cfg = s.cfg
  commands : t.commands = s.commands
  outcome : s.NoReset → ∃ result, t.outcome = some result

theorem Abandoned.ended (h : Abandoned s u) : Ended s u where
  cfg := h.cfg
  commands := h.commands
  outcome noReset := by
    obtain ⟨slot, mem, event⟩ := h.reset
    exact absurd event (noReset slot mem)

/-- Every command ends. -/
theorem runCommand_ends (command : Command) (s : State) : ∃ t, runCommand command s = .next t ∧ Ended s t :=
  runCommand_next inCourse_followed inCourse_latchStable (fun _ _ h _ _ => ⟨h.cfg, h.commands, h.slots⟩)
    (fun _ result h => ⟨h.cfg, h.commands, fun _ => ⟨result, rfl⟩⟩) (fun _ h => h.ended) command s (inCourse_refl s)

/-- Settles O22: a step is an idle one, which leaves the configuration and the commands, or it runs the first command to its end. -/
theorem everyCommandEnds : Obligations.EveryCommandEnds := by
  intro s
  cases port : s.commands with
  | nil =>
    obtain ⟨t, next, cfg, commands⟩ := idle_next (R := fun t => t.cfg = s.cfg ∧ t.commands = s.commands) inCourse_stable
      (fun _ h => ⟨h.cfg, h.commands⟩) (fun _ h => ⟨h.cfg, h.commands⟩) s (inCourse_refl s)
    exact ⟨t, by rw [step, port]; exact next, cfg, by rw [commands, port]; rfl, fun some_command => absurd rfl some_command⟩
  | cons command rest =>
    obtain ⟨t, next, ended⟩ := runCommand_ends command { s with commands := rest }
    exact ⟨t, (step_of_commands port).trans next, ended.cfg, ended.commands, fun _ => ended.outcome⟩

/-- A run of `k + 1` steps goes on from the next state. -/
theorem run_succ (next : step s = .next u) (k : Nat) : core.run (k + 1) s = core.run k u := by
  have first : core.step s = .next u := next
  simp only [Host.Core.run, first]

/-- Settles O23: by the number of steps, each of which has a next state. -/
theorem theMachineNeverStops : Obligations.TheMachineNeverStops := by
  intro s k
  induction k generalizing s with
  | zero => exact ⟨s, rfl⟩
  | succ k ih =>
    obtain ⟨u, next, -⟩ := everyCommandEnds s
    obtain ⟨t, run⟩ := ih u
    exact ⟨t, (run_succ next k).trans run⟩

end Sys2Proof.Scope
end

section
/-! SUPPORT. What a SERVE runs: the instruction its bytes decode to, or nothing (R261, R265, R266). -/

namespace Sys2Proof.Scope

open Sys2Proof.Machine

/-- Settles O17: the decode of the ADU is the request that is latched and run. -/
theorem stepRunsTheDecodedInstruction : Obligations.StepRunsTheDecodedInstruction := by
  intro s headless input pdu rest h i command split decoded
  rw [step_of_commands command, runCommand, serve, decodeRequestADU_of_decode split decoded]
  rfl

/-- What the decoder reads from a table word, it reads from the PDU of the word. -/
theorem decode_tableWordPdu {nbits w : Nat} {i : Instr} (decoded : decodeTableWord nbits w = some i) :
    decode (tableWordPdu nbits w) = .ok i := by
  unfold decodeTableWord at decoded
  split at decoded
  · next read =>
    cases decoded
    exact read
  · cases decoded

/-- Settles O18: the word is placed as a headless SERVE of its PDU, which is the encoding of the instruction. -/
theorem fetchWordIsRun : Obligations.FetchWordIsRun := by
  intro s nbits w i decoded
  have read := decode_tableWordPdu decoded
  obtain ⟨-, layout⟩ := encodeOfDecode _ _ read
  have split : decodeADU true (0 :: tableWordPdu nbits w) = .ok (⟨.headless, 0, i.functionCode⟩, tableWordPdu nbits w) := by
    rw [← layout]
    exact decodeUnit_cons _ _ _ _
  rw [stepRunsTheDecodedInstruction (s.withFetchWord nbits w) true _ _ _ _ i rfl split read, List.length_cons, Nat.add_comm]
  rfl

/-- Settles O20: a decode error is the outcome at once. -/
theorem decodeErrorsTouchNothing : Obligations.DecodeErrorsTouchNothing := by
  intro s headless input rest reason quiet command refused
  rw [step_of_commands command, runCommand, serve, refused]
  exact complete_quiet _ { s with commands := rest } quiet

/-! ### The bytes that a SERVE gives -/

/-- The header that is decoded has the mode of the command (R133). -/
theorem decodeUnit_framing {framing : Framing} {input pdu : List Byte} {h : Header}
    (split : decodeUnit framing input = .ok (h, pdu)) : h.framing = framing := by
  obtain ⟨_, -, split⟩ := bind_ok split
  obtain ⟨_, -, split⟩ := bind_ok split
  cases split
  rfl

theorem decodeADU_headless {headless : Bool} {input pdu : List Byte} {h : Header}
    (split : decodeADU headless input = .ok (h, pdu)) : h.headless = headless := by
  cases headless with
  | true =>
    have framing : h.framing = .headless := decodeUnit_framing split
    rw [Header.headless, framing]
  | false =>
    obtain ⟨⟨tid, _⟩, -, split⟩ := bind_ok split
    obtain ⟨⟨pid, _⟩, -, split⟩ := bind_ok split
    obtain ⟨_, -, split⟩ := bind_ok split
    obtain ⟨_, -, split⟩ := bind_ok split
    have framing : h.framing = .framed tid pid := decodeUnit_framing split
    rw [Header.headless, framing]

/-- A request that is decoded comes from a header and a PDU; an instruction is what the PDU decodes to (R261). -/
theorem decodeRequestADU_ok {headless : Bool} {input : List Byte} {h : Header} {request : Request}
    (decoded : decodeRequestADU headless input = .ok (h, request)) :
    ∃ pdu, decodeADU headless input = .ok (h, pdu) ∧ ∀ i, request = .instr i → decode pdu = .ok i := by
  cases split : decodeADU headless input with
  | error reason => simp [decodeRequestADU, split] at decoded
  | ok v =>
    obtain ⟨header, pdu⟩ := v
    simp only [decodeRequestADU, split] at decoded
    cases read : decode pdu with
    | ok i =>
      rw [read] at decoded
      cases decoded
      exact ⟨pdu, rfl, fun j same => by cases same; exact read⟩
    | error reject =>
      rw [read] at decoded
      cases reject with
      | illegalFunction functionCode =>
        cases decoded
        exact ⟨pdu, rfl, fun _ same => by cases same⟩
      | malformed reason => cases decoded

/-- These bytes are the ADU of an encoded response under this header. -/
def IsResponseADU (h : Header) (adu : List Byte) : Prop :=
  ∃ response pdu, encodeResponse response = .ok pdu ∧ pdu.length ≤ 65534 ∧ adu = aduOf h pdu

/-- Bytes that a concluded SERVE gives. -/
theorem conclude_bytes {response : Response} {s t : State} {adu : List Byte} (next : conclude response s = .next t)
    (answer : t.outcome = some (.ok (.bytes adu))) : IsResponseADU s.latches.header adu := by
  rcases conclude_outcome next with reset | ⟨reason, refused⟩ | ⟨pdu, encoded, fits, given⟩
  · rw [reset] at answer
    cases answer
  · rw [refused] at answer
    cases answer
  · rw [given] at answer
    cases answer
    exact ⟨response, pdu, encoded, fits, rfl⟩

/-- Bytes that an instruction gives: those of its exception or of its response. -/
theorem exec_bytes {i : Instr} {s t : State} {adu : List Byte} (next : exec i s = .next t)
    (answer : t.outcome = some (.ok (.bytes adu))) : IsResponseADU s.latches.header adu := by
  rcases exec_outcome next with
    reset | ⟨reason, refused⟩ | ⟨kind, u, -, exception⟩ | ⟨response, u, pdu, -, encoded, fits, normal⟩
  · rw [reset] at answer
    cases answer
  · rw [refused] at answer
    cases answer
  · rw [exception] at answer
    cases answer
    exact ⟨_, _, encodeResponse_exception i.functionCode kind, by simp [exceptionPdu], rfl⟩
  · rw [normal] at answer
    cases answer
    exact ⟨response, pdu, encoded, fits, rfl⟩

/-- Bytes that a SERVE gives are a response's under the header that it decoded. -/
theorem serve_bytes {headless : Bool} {input adu : List Byte} {s t : State} (next : serve headless input s = .next t)
    (answer : t.outcome = some (.ok (.bytes adu))) : ∃ h : Header, h.headless = headless ∧ IsResponseADU h adu := by
  unfold serve at next
  cases decoded : decodeRequestADU headless input with
  | error reason =>
    rw [decoded] at next
    rcases complete_outcome next with refused | reset
    · rw [refused] at answer
      cases answer
    · rw [reset] at answer
      cases answer
  | ok v =>
    obtain ⟨h, request⟩ := v
    rw [decoded] at next
    obtain ⟨pdu, split, -⟩ := decodeRequestADU_ok decoded
    refine ⟨h, decodeADU_headless split, ?_⟩
    cases request with
    | instr i => exact exec_bytes next answer
    | illegalFunction functionCode => exact conclude_bytes next answer

/-- Settles O28: the bytes are an encoded response's, which decodes. -/
theorem serveOutputDecodes : Obligations.ServeOutputDecodes := by
  intro s t headless input adu rest command next answer
  rw [step_of_commands command] at next
  obtain ⟨h, rfl, response, pdu, encoded, fits, rfl⟩ := serve_bytes next answer
  exact ⟨_, response, decodeResponseADU_aduOf h encoded (by omega)⟩

end Sys2Proof.Scope
end

section
/-! SUPPORT. Every response that a dispatch gives has an encoding, if the parameters and the device inputs are in their domains
(R8, R44, R268): so a SERVE that decodes is answered with bytes. -/

namespace Sys2Proof.Scope

open Sys2Proof.Machine

/-! ### The values of a transaction -/

/-- The parameters are `c`, and the device inputs are in their domains (R35, R44). -/
structure InDomain (c : Params) (s : State) : Prop where
  cfg : s.cfg = c
  device : s.dev.wf = true

/-- Begun in the domains, whatever value the part gives meets `p`, and the part ends in the domains. -/
def Yields {α : Type} (c : Params) (m : Txn α) (p : α → Prop) : Prop :=
  ∀ s a t, InDomain c s → m s = .ok a t → InDomain c t ∧ p a

section values

variable {α β : Type} {c : Params} {p : α → Prop} {q : β → Prop}

theorem yields_pure {a : α} (value : p a) : Yields c (Txn.pure a) p := by
  intro s b t domain gives
  cases gives
  exact ⟨domain, value⟩

theorem yields_raise {kind : ExceptionKind} : Yields c (Txn.raise kind) p := fun _ _ _ _ gives => by cases gives

theorem yields_bind {m : Txn α} {f : α → Txn β} (first : Yields c m p) (later : ∀ a, p a → Yields c (f a) q) :
    Yields c (Txn.bind m f) q := by
  intro s b t domain gives
  unfold Txn.bind at gives
  cases ran : m s with
  | ok a u =>
    rw [ran] at gives
    obtain ⟨domain, value⟩ := first s a u domain ran
    exact later a value u b t domain gives
  | raised kind u => rw [ran] at gives; cases gives
  | abandoned u => rw [ran] at gives; cases gives
  | fault reason => rw [ran] at gives; cases gives

/-- Past a check, what it checked holds. -/
theorem yields_checked {b : Bool} {kind : ExceptionKind} {f : Unit → Txn β} (later : b = true → Yields c (f ()) q) :
    Yields c (Txn.bind (Txn.check b kind) f) q := by
  cases b with
  | true => exact later rfl
  | false => exact yields_raise

/-- A parameter that is read is that of `c`. -/
theorem yields_config {g : Params → α} {f : α → Txn β} (later : Yields c (f (g c)) q) :
    Yields c (Txn.bind (readConfig g) f) q := by
  intro s b t domain gives
  rw [Txn.readConfig_bind, domain.cfg] at gives
  exact later s b t domain gives

/-- The other agents change no parameter, and no device input to one outside its domain (log entry 18). -/
theorem yields_otherAgents : Yields c otherAgents fun _ => True := by
  have stable : Stable (InDomain c) fun _ => True :=
    stable_of_events (fun _ _ _ h _ => ⟨h.cfg, h.device⟩) (fun _ _ _ h _ => ⟨h.cfg, h.device⟩) (fun _ _ h wf => ⟨h.cfg, wf⟩)
      fun _ _ _ => trivial
  intro s a t domain gives
  have ends := stable s domain
  rw [gives] at ends
  exact ⟨ends, trivial⟩

/-- An access after the other agents acted: none changes the parameters or the device inputs. -/
theorem yields_access {present : State → Bool} {value : State → α} {after : State → State}
    (same : ∀ s, (after s).cfg = s.cfg ∧ (after s).dev = s.dev) :
    Yields c (Txn.bind otherAgents fun _ s => if present s then .ok (value s) (after s) else .fault .addressRange)
      fun _ => True := by
  refine yields_bind yields_otherAgents fun _ _ s a t domain gives => ?_
  split at gives
  · cases gives
    obtain ⟨cfg, dev⟩ := same s
    exact ⟨⟨cfg.trans domain.cfg, dev ▸ domain.device⟩, trivial⟩
  · cases gives

theorem yields_memReadBit (space : BitSpace) (a : Nat) : Yields c (memReadBit space a) fun _ => True :=
  yields_access fun _ => ⟨rfl, rfl⟩

theorem yields_memReadWord (space : WordSpace) (a : Nat) : Yields c (memReadWord space a) fun _ => True :=
  yields_access fun _ => ⟨rfl, rfl⟩

theorem yields_memReadFile (f r i : Nat) : Yields c (memReadFile f r i) fun _ => True :=
  yields_access fun _ => ⟨rfl, rfl⟩

theorem yields_memWrite (w : ElementWrite) : Yields c (memWrite w) fun _ => True :=
  yields_access fun _ => ⟨rfl, rfl⟩

/-- A sample is an input of some device state in the domains (R44). -/
theorem yields_sample {input : Device → α} {f : α → Txn β} (later : ∀ d, d.wf = true → Yields c (f (input d)) q) :
    Yields c (Txn.bind (sampleDevice input) f) q := by
  refine yields_bind (p := fun a => ∃ d : Device, d.wf = true ∧ a = input d) ?_ fun a ⟨d, wf, same⟩ => same ▸ later d wf
  refine yields_bind yields_otherAgents fun _ _ s a t domain gives => ?_
  cases gives
  exact ⟨domain, s.dev, domain.device, rfl⟩

/-- `n` reads give `n` values. -/
theorem yields_readEach {read : Nat → Txn α} (reads : ∀ a, Yields c (read a) fun _ => True) (n : Nat) :
    ∀ a, Yields c (readEach read a n) fun values => values.length = n := by
  induction n with
  | zero => exact fun _ => yields_pure rfl
  | succ n ih =>
    exact fun a => yields_bind (reads a) fun _ _ => yields_bind (ih (a + 1)) fun values size => yields_pure (by simp [size])

theorem yields_writeEach (target : Nat → α → ElementWrite) (values : List α) :
    ∀ a, Yields c (writeEach target a values) fun _ => True := by
  induction values with
  | nil => exact fun _ => yields_pure trivial
  | cons v values ih => exact fun a => yields_bind (yields_memWrite _) fun _ _ => ih (a + 1)

/-- Past the sub-request checks, every sub-request passed its own (R221). -/
theorem yields_checkEach {check : Params → α → Option ExceptionKind} (subs : List α) :
    Yields c (checkEach check subs) fun _ => ∀ sub ∈ subs, check c sub = none := by
  induction subs with
  | nil => exact yields_pure nofun
  | cons sub rest ih =>
    refine yields_config ?_
    cases passed : check c sub with
    | some kind => exact yields_raise
    | none =>
      exact fun s a t domain gives => (ih s a t domain gives).imp_right fun all => List.forall_mem_cons.mpr ⟨passed, all⟩

/-- The records read are as many and as long as the sub-requests ask (R220). -/
theorem yields_readRecords (subs : List FileRead) : Yields c (readRecords subs) fun records =>
    records.length = subs.length ∧ recordsTotal records = fileReadTotal subs := by
  induction subs with
  | nil => exact yields_pure ⟨rfl, rfl⟩
  | cons sub rest ih =>
    refine yields_bind (yields_readEach (yields_memReadFile _ _) _ 0) fun words size => yields_bind ih fun records same => ?_
    obtain ⟨count, total⟩ := same
    exact yields_pure ⟨by simp [count], by rw [recordsTotal, fileReadTotal, size, total]⟩

theorem yields_writeRecords (subs : List FileWrite) : Yields c (writeRecords subs) fun _ => True := by
  induction subs with
  | nil => exact yields_pure trivial
  | cons sub rest ih => exact yields_bind (yields_writeEach _ _ 0) fun _ _ => ih

end values

/-! ### The responses of the dispatches -/

/-- The response has a PDU, and it fits an ADU (R135). -/
def Encodable (response : Response) : Prop := ∃ pdu, encodeResponse response = .ok pdu ∧ pdu.length ≤ 65534

section dispatches

variable {c : Params} {reference count : U16}

theorem maxReadRegs_le (params : c.wf = true) : c.maxReadRegs ≤ 127 := by
  simp only [Params.wf, Bool.and_eq_true, decide_eq_true_eq] at params
  obtain ⟨⟨⟨⟨-, cap⟩, -⟩, -⟩, -⟩ := params
  exact cap

/-- A response of words is encodable up to the 127 that the byte count can carry (R155, R157, R191). -/
theorem encodable_words {functionCode : Byte} {response : Response} {values : List U16}
    (encodes : encodeResponse response = encodeWords functionCode values) (few : values.length ≤ 127) : Encodable response := by
  rw [encodeWords_eq, if_neg (by omega)] at encodes
  refine ⟨_, encodes, ?_⟩
  simp only [List.length_cons, bytesOf_length]
  omega

theorem dispatchReadBits_encodable (space : BitSpace) {functionCode : Byte} {respondWith : Byte → List Byte → Response}
    (encodes : ∀ byteCount data, encodeResponse (respondWith byteCount data) = encodeBits functionCode byteCount data) :
    Yields c (dispatchReadBits space respondWith reference count) Encodable := by
  refine yields_config <| yields_checked fun cap => yields_checked fun _ =>
    yields_bind (yields_readEach (yields_memReadBit space) _ _) fun bits _ => yields_pure ?_
  have few : count.toNat ≤ 2000 := decide_eq_true_eq.mp cap
  refine ⟨_, (encodes _ _).trans (encodeBits_packLsb _ _ few), ?_⟩
  simp only [List.length_cons, packLsb_length, packedLength]
  omega

theorem dispatchReadWords_encodable (params : c.wf = true) (space : WordSpace) {functionCode : Byte}
    {respondWith : List U16 → Response}
    (encodes : ∀ values, encodeResponse (respondWith values) = encodeWords functionCode values) :
    Yields c (dispatchReadWords space respondWith reference count) Encodable := by
  refine yields_config <| yields_config <| yields_checked fun cap => yields_checked fun _ =>
    yields_bind (yields_readEach (yields_memReadWord space) _ _) fun values size => yields_pure (encodable_words (encodes _) ?_)
  rw [size]
  exact (decide_eq_true_eq.mp cap).trans (maxReadRegs_le params)

theorem dispatchWriteOne_encodable {size : Params → Nat} {target : ElementWrite} {echo : Response}
    (encodable : Encodable echo) : Yields c (dispatchWriteOne size target reference echo) Encodable :=
  yields_config <| yields_checked fun _ => yields_bind (yields_memWrite _) fun _ _ => yields_pure encodable

theorem dispatchWriteMany_encodable {α : Type} {size : Params → Nat} {target : Nat → α → ElementWrite} {n : Nat}
    {values : List α} {echo : Response} (encodable : Encodable echo) :
    Yields c (dispatchWriteMany size target reference n values echo) Encodable :=
  yields_config <| yields_checked fun _ => yields_bind (yields_writeEach _ _ _) fun _ _ => yields_pure encodable

theorem dispatchWriteCoil_encodable (value : U16) : Yields c (dispatchWriteCoil reference value) Encodable :=
  yields_checked fun legal => dispatchWriteOne_encodable ⟨_, constructRequire_true_bind legal, by simp⟩

theorem dispatchMaskWrite_encodable (andMask orMask : U16) : Yields c (dispatchMaskWrite reference andMask orMask) Encodable :=
  yields_config <| yields_checked fun _ => yields_bind (yields_memReadWord _ _) fun _ _ =>
  yields_bind (yields_memWrite _) fun _ _ => yields_pure ⟨_, rfl, by simp⟩

theorem dispatchReadWrite_encodable (params : c.wf = true) (writeRef : U16) (values : List U16) :
    Yields c (dispatchReadWrite reference count writeRef values) Encodable := by
  refine yields_config <| yields_config <| yields_checked fun cap => yields_checked fun _ => yields_checked fun _ =>
    yields_bind (yields_writeEach _ _ _) fun _ _ => yields_bind (yields_readEach (yields_memReadWord _) _ _) fun read size =>
    yields_pure (encodable_words rfl ?_)
  rw [size]
  exact (decide_eq_true_eq.mp cap).trans (maxReadRegs_le params)

theorem dispatchExceptionStatus_encodable : Yields c dispatchExceptionStatus Encodable :=
  yields_sample fun _ _ => yields_pure ⟨_, rfl, by simp⟩

theorem dispatchDiagnostics_encodable (subFunction data : U16) : Yields c (dispatchDiagnostics subFunction data) Encodable :=
  yields_config <| yields_pure ⟨_, rfl, by simp⟩

theorem dispatchEventCounter_encodable : Yields c dispatchEventCounter Encodable := by
  refine yields_sample fun d wf => yields_sample fun _ _ => yields_pure ?_
  obtain ⟨legal, -⟩ := (device_wf_iff d).mp wf
  exact ⟨_, constructRequire_true_bind legal, by simp⟩

theorem dispatchEventLog_encodable : Yields c dispatchEventLog Encodable := by
  refine yields_sample fun first wf => yields_sample fun second wf' => yields_sample fun _ _ => yields_sample fun _ _ =>
    yields_pure ?_
  obtain ⟨-, -, few, -⟩ := (device_wf_iff first).mp wf
  obtain ⟨legal, -⟩ := (device_wf_iff second).mp wf'
  refine ⟨_, encodeResponse_readCommEventLog legal few _ _, ?_⟩
  simp only [List.length_cons, List.length_append, bytes16_length]
  omega

theorem dispatchSlaveID_encodable : Yields c dispatchSlaveID Encodable := by
  refine yields_sample fun first wf => yields_sample fun _ _ => yields_sample fun third wf' => yields_pure ?_
  obtain ⟨-, -, -, few⟩ := (device_wf_iff first).mp wf
  obtain ⟨-, legal, -⟩ := (device_wf_iff third).mp wf'
  refine ⟨_, encodeResponse_reportSlaveID legal few _, ?_⟩
  simp only [List.length_cons]
  omega

theorem dispatchReadFile_encodable {subs : List FileRead} (some_subs : 1 ≤ subs.length) :
    Yields c (dispatchReadFile subs) Encodable := by
  refine yields_bind (yields_checkEach subs) fun _ _ => yields_checked fun cap =>
    yields_bind (yields_readRecords subs) fun records same => yields_pure ?_
  obtain ⟨number, total⟩ := same
  have fits : recordsTotal records ≤ 255 := total.trans_le (decide_eq_true_eq.mp cap)
  refine ⟨_, encodeResponse_readFileRecord (List.length_pos_iff.mp (by omega)) fits, ?_⟩
  simp only [counted, List.length_cons, encodeRecords_length]
  omega

theorem dispatchWriteFile_encodable {subs : List FileWrite} (wf : (Instr.writeFileRecord subs).wellFormed = true) :
    Yields c (dispatchWriteFile subs) Encodable := by
  refine yields_bind (yields_checkEach subs) fun _ passed => yields_bind (yields_writeRecords subs) fun _ _ => yields_pure ?_
  refine ⟨_, encodeResponse_writeFileRecord wf passed, ?_⟩
  simp only [Instr.wellFormed, Bool.and_eq_true, decide_eq_true_eq] at wf
  obtain ⟨-, small⟩ := wf
  simp only [encode, encodeBody, counted, List.length_cons, encodeFileWrites_length]
  omega

theorem dispatchFifo_encodable : Yields c (dispatchFifo reference) Encodable := by
  refine yields_config <| yields_checked fun _ => yields_bind (yields_memReadWord _ _) fun count _ => yields_checked fun cap =>
    yields_checked fun _ => yields_bind (yields_readEach (yields_memReadWord _) _ _) fun values size => yields_pure ?_
  have few : values.length ≤ 31 := size.trans_le (decide_eq_true_eq.mp cap)
  refine ⟨_, encodeResponse_readFIFOQueue few, ?_⟩
  simp only [List.length_cons, List.length_append, bytes16_length, bytesOf_length]
  omega

theorem dispatchMEI_encodable (params : c.wf = true) (subCode fieldLevel fieldId : Byte) :
    Yields c (dispatchMEI subCode fieldLevel fieldId) Encodable := by
  refine yields_checked fun known => yields_config ?_
  have sub : subCode = 0x0E := beq_iff_eq.mp known
  subst sub
  cases table : c.meiTable fieldLevel fieldId with
  | illegalAddress => exact yields_raise
  | illegalValue => exact yields_raise
  | objects conformity moreFollows nextFieldId fields =>
    obtain ⟨legal, few, texts⟩ := (objects_wf_iff _ _ _ _).mp (table ▸ meiTable_wf params fieldLevel fieldId)
    refine yields_pure ⟨_, encodeResponse_readMEI legal few texts _ _ _, ?_⟩
    have size := encodeMeiFields_length_le texts
    simp only [List.length_cons]
    omega

/-- Every response of a well-formed request's dispatch has an encoding. -/
theorem dispatchOf_encodable {i : Instr} (params : c.wf = true) (wf : i.wellFormed = true) :
    Yields c (dispatchOf i) Encodable := by
  cases i with
  | readCoils reference count => exact dispatchReadBits_encodable _ fun _ _ => rfl
  | readInputDiscretes reference count => exact dispatchReadBits_encodable _ fun _ _ => rfl
  | readMultipleRegisters reference count => exact dispatchReadWords_encodable params _ fun _ => rfl
  | readInputRegisters reference count => exact dispatchReadWords_encodable params _ fun _ => rfl
  | writeCoil reference value => exact dispatchWriteCoil_encodable value
  | writeSingleRegister reference value => exact dispatchWriteOne_encodable ⟨_, rfl, by simp⟩
  | readExceptionStatus => exact dispatchExceptionStatus_encodable
  | readSerialDiagnostics subFunction data => exact dispatchDiagnostics_encodable subFunction data
  | readCommEventCounter => exact dispatchEventCounter_encodable
  | readCommEventLog => exact dispatchEventLog_encodable
  | writeMultipleCoils reference count data => exact dispatchWriteMany_encodable ⟨_, rfl, by simp⟩
  | writeMultipleRegisters reference values => exact dispatchWriteMany_encodable ⟨_, rfl, by simp⟩
  | reportSlaveID => exact dispatchSlaveID_encodable
  | readFileRecord subs =>
    simp only [Instr.wellFormed, Bool.and_eq_true, decide_eq_true_eq] at wf
    obtain ⟨some_subs, -⟩ := wf
    exact dispatchReadFile_encodable some_subs
  | writeFileRecord subs => exact dispatchWriteFile_encodable wf
  | maskWriteRegister reference andMask orMask => exact dispatchMaskWrite_encodable andMask orMask
  | readWriteMultiple readRef readCount writeRef values => exact dispatchReadWrite_encodable params writeRef values
  | readFIFOQueue reference => exact dispatchFifo_encodable
  | readMEI subCode fieldLevel fieldId => exact dispatchMEI_encodable params subCode fieldLevel fieldId

end dispatches

/-! ### The answer -/

section answer

variable {s u : State}

/-- What a SERVE begun in `s` leaves: bytes, or no outcome where a reset was to come. -/
def Answered (s t : State) : Prop :=
  (∃ adu, t.outcome = some (.ok (.bytes adu))) ∨ (t.outcome = none ∧ ∃ slot ∈ s.schedule, Event.reset ∈ slot)

theorem Abandoned.answered (h : Abandoned s u) : Answered s u := .inr ⟨h.outcome, h.reset⟩

/-- A response that has an encoding is answered with. -/
theorem conclude_answered {response : Response} (encodable : Encodable response) (course : InCourse s u) :
    ∃ t, conclude response u = .next t ∧ Answered s t := by
  obtain ⟨pdu, encoded, fits⟩ := encodable
  simp only [conclude, encoded, emitPdu, encodeADU_ok _ _ fits]
  exact complete_next inCourse_stable _ (fun _ _ => .inl ⟨_, rfl⟩) (fun _ h => h.answered) _
    (inCourse_latchStable.output _ _ (inCourse_latchStable.response _ _ course))

/-- An exception is answered with. -/
theorem takeException_answered (functionCode : Byte) (kind : ExceptionKind) (course : InCourse s u) :
    ∃ t, takeException functionCode kind u = .next t ∧ Answered s t :=
  conclude_answered ⟨_, encodeResponse_exception functionCode kind, by simp [exceptionPdu]⟩ course

/-- A well-formed request is answered, in the domains. -/
theorem exec_answered {i : Instr} (params : s.cfg.wf = true) (device : s.dev.wf = true) (wf : i.wellFormed = true) :
    ∃ t, exec i s = .next t ∧ Answered s t := by
  have ends := dispatchOf_triple i (inCourse_followed (s := s)).precise (fun _ _ h _ _ => ⟨h.cfg, h.commands, h.slots⟩) s
    (inCourse_refl s)
  rw [exec_eq_respond, respond]
  cases ran : dispatchOf i s with
  | ok response u =>
    rw [ran] at ends
    obtain ⟨-, encodable⟩ := dispatchOf_encodable params wf s response u ⟨rfl, device⟩ ran
    exact conclude_answered encodable ends
  | raised kind u =>
    rw [ran] at ends
    exact takeException_answered i.functionCode kind ends
  | abandoned u =>
    rw [ran] at ends
    exact ⟨u, rfl, ends.answered⟩
  | fault reason =>
    rw [ran] at ends
    exact ends.elim

end answer

/-- Settles O27: a decoded instruction is well-formed, so its response has an encoding; the placeholder is answered with code 1. -/
theorem serveAnswersEveryRequest : Obligations.ServeAnswersEveryRequest := by
  rintro s headless input rest ⟨h, request⟩ good command decoded
  obtain ⟨pdu, -, read⟩ := decodeRequestADU_ok decoded
  rw [step_of_commands command, runCommand, serve, decoded]
  cases request with
  | instr i =>
    obtain ⟨wf, -⟩ := encodeOfDecode _ _ (read i rfl)
    exact exec_answered good.params good.device wf
  | illegalFunction functionCode =>
    exact takeException_answered (s := { s with commands := rest }.latchRequest h _ _) functionCode .illegalFunction
      (inCourse_refl _)

end Sys2Proof.Scope
end

section
/-! SUPPORT. Taking an exception and the idle step, with no other agent active; and what raises an Illegal Function exception: no
dispatch but that of a ReadMEI with another sub-code than 0x0E, and the placeholder (R301, R302, R307, R317). -/

namespace Sys2Proof.Scope

open Sys2Proof.Machine

/-- Settles O21: an idle step only lets the other agents act, and none is to. -/
theorem idleEngineStays : Obligations.IdleEngineStays := by
  intro s quiet port
  rw [step, port]
  show idle s = .next s
  rw [idle, otherAgents_quiet s quiet]

/-- Settles O32: each kind by its code. -/
theorem takingAnException : Obligations.TakingAnException := fun functionCode s quiet =>
  ⟨takeException_quiet functionCode .illegalFunction s quiet, takeException_quiet functionCode .illegalAddress s quiet,
    takeException_quiet functionCode .illegalValue s quiet⟩

/-! ### The exceptions that a part of a transaction raises -/

/-- Wherever it is begun, the part does not end in this exception. -/
def Avoids {α : Type} (kind : ExceptionKind) (m : Txn α) : Prop := ∀ s u, m s ≠ .raised kind u

section parts

variable {α β : Type} {kind : ExceptionKind}

theorem avoids_pure (a : α) : Avoids kind (Txn.pure a) := fun _ _ raised => by cases raised

theorem avoids_readConfig (parameter : Params → α) : Avoids kind (readConfig parameter) := fun _ _ raised => by cases raised

theorem avoids_raise {other : ExceptionKind} (different : other ≠ kind) : Avoids kind (Txn.raise other : Txn α) := by
  intro s u raised
  cases raised
  exact different rfl

theorem avoids_check (holds : Bool) {other : ExceptionKind} (different : other ≠ kind := by decide) :
    Avoids kind (Txn.check holds other) := by
  cases holds with
  | true => exact avoids_pure ()
  | false => exact avoids_raise different

theorem Avoids.bind {m : Txn α} {f : α → Txn β} (first : Avoids kind m) (later : ∀ a, Avoids kind (f a)) :
    Avoids kind (Txn.bind m f) := by
  intro s u raised
  unfold Txn.bind at raised
  cases ran : m s with
  | ok a v => rw [ran] at raised; exact later a v u raised
  | raised other v => rw [ran] at raised; cases raised; exact first s u ran
  | abandoned v => rw [ran] at raised; cases raised
  | fault reason => rw [ran] at raised; cases raised

/-- The other agents raise no exception. -/
theorem avoids_otherAgents : Avoids kind otherAgents := by
  have stable : Stable (fun _ => True) fun _ => True :=
    stable_of_events (fun _ _ _ _ _ => trivial) (fun _ _ _ _ _ => trivial) (fun _ _ _ _ => trivial) fun _ _ _ => trivial
  intro s u raised
  have ends := stable s trivial
  rw [raised] at ends
  exact ends

/-- An access gives a value or is outside its space, after the other agents acted. -/
theorem avoids_access {present : State → Bool} {value : State → α} {after : State → State} :
    Avoids kind (Txn.bind otherAgents fun _ s => if present s then .ok (value s) (after s) else .fault .addressRange) := by
  refine avoids_otherAgents.bind fun _ s u raised => ?_
  split at raised <;> cases raised

theorem avoids_memReadBit (space : BitSpace) (a : Nat) : Avoids kind (memReadBit space a) := avoids_access

theorem avoids_memReadWord (space : WordSpace) (a : Nat) : Avoids kind (memReadWord space a) := avoids_access

theorem avoids_memReadFile (f r i : Nat) : Avoids kind (memReadFile f r i) := avoids_access

theorem avoids_memWrite (w : ElementWrite) : Avoids kind (memWrite w) := avoids_access

theorem avoids_sampleDevice (input : Device → α) : Avoids kind (sampleDevice input) :=
  avoids_otherAgents.bind fun _ _ _ raised => by cases raised

theorem avoids_readEach {read : Nat → Txn α} (reads : ∀ a, Avoids kind (read a)) (n : Nat) :
    ∀ a, Avoids kind (readEach read a n) := by
  induction n with
  | zero => exact fun _ => avoids_pure _
  | succ n ih => exact fun a => (reads a).bind fun _ => (ih (a + 1)).bind fun _ => avoids_pure _

theorem avoids_writeEach (target : Nat → α → ElementWrite) (values : List α) :
    ∀ a, Avoids kind (writeEach target a values) := by
  induction values with
  | nil => exact fun _ => avoids_pure _
  | cons v values ih => exact fun a => (avoids_memWrite _).bind fun _ => ih (a + 1)

/-- The sub-request checks raise what one of them fails with (R221). -/
theorem avoids_checkEach {check : Params → α → Option ExceptionKind} (different : ∀ p sub, check p sub ≠ some kind)
    (subs : List α) : Avoids kind (checkEach check subs) := by
  induction subs with
  | nil => exact avoids_pure _
  | cons sub rest ih =>
    intro s u raised
    rw [checkEach, Txn.readConfig_bind] at raised
    cases failed : check s.cfg sub with
    | none => rw [failed] at raised; exact ih s u raised
    | some other => rw [failed] at raised; cases raised; exact different _ _ failed

theorem avoids_readRecords (subs : List FileRead) : Avoids kind (readRecords subs) := by
  induction subs with
  | nil => exact avoids_pure _
  | cons sub rest ih =>
    exact (avoids_readEach (avoids_memReadFile _ _) _ _).bind fun _ => ih.bind fun _ => avoids_pure _

theorem avoids_writeRecords (subs : List FileWrite) : Avoids kind (writeRecords subs) := by
  induction subs with
  | nil => exact avoids_pure _
  | cons sub rest ih => exact (avoids_writeEach _ _ _).bind fun _ => ih

end parts

/-! ### The dispatches raise no Illegal Function -/

section dispatches

variable {reference count : U16}

theorem dispatchReadBits_avoids_illegalFunction (space : BitSpace) (respondWith : Byte → List Byte → Response) :
    Avoids .illegalFunction (dispatchReadBits space respondWith reference count) :=
  (avoids_readConfig _).bind fun _ => (avoids_check _).bind fun _ => (avoids_check _).bind fun _ =>
  (avoids_readEach (avoids_memReadBit _) _ _).bind fun _ => avoids_pure _

theorem dispatchReadWords_avoids_illegalFunction (space : WordSpace) (respondWith : List U16 → Response) :
    Avoids .illegalFunction (dispatchReadWords space respondWith reference count) :=
  (avoids_readConfig _).bind fun _ => (avoids_readConfig _).bind fun _ => (avoids_check _).bind fun _ =>
  (avoids_check _).bind fun _ => (avoids_readEach (avoids_memReadWord _) _ _).bind fun _ => avoids_pure _

theorem dispatchWriteOne_avoids_illegalFunction (size : Params → Nat) (target : ElementWrite) (echo : Response) :
    Avoids .illegalFunction (dispatchWriteOne size target reference echo) :=
  (avoids_readConfig _).bind fun _ => (avoids_check _).bind fun _ => (avoids_memWrite _).bind fun _ => avoids_pure _

theorem dispatchWriteMany_avoids_illegalFunction {α : Type} (size : Params → Nat) (target : Nat → α → ElementWrite) (n : Nat)
    (values : List α) (echo : Response) : Avoids .illegalFunction (dispatchWriteMany size target reference n values echo) :=
  (avoids_readConfig _).bind fun _ => (avoids_check _).bind fun _ => (avoids_writeEach _ _ _).bind fun _ => avoids_pure _

theorem dispatchMaskWrite_avoids_illegalFunction (andMask orMask : U16) :
    Avoids .illegalFunction (dispatchMaskWrite reference andMask orMask) :=
  (avoids_readConfig _).bind fun _ => (avoids_check _).bind fun _ => (avoids_memReadWord _ _).bind fun _ =>
  (avoids_memWrite _).bind fun _ => avoids_pure _

theorem dispatchReadWrite_avoids_illegalFunction (writeRef : U16) (values : List U16) :
    Avoids .illegalFunction (dispatchReadWrite reference count writeRef values) :=
  (avoids_readConfig _).bind fun _ => (avoids_readConfig _).bind fun _ => (avoids_check _).bind fun _ =>
  (avoids_check _).bind fun _ => (avoids_check _).bind fun _ => (avoids_writeEach _ _ _).bind fun _ =>
  (avoids_readEach (avoids_memReadWord _) _ _).bind fun _ => avoids_pure _

theorem dispatchDiagnostics_avoids_illegalFunction (subFunction data : U16) :
    Avoids .illegalFunction (dispatchDiagnostics subFunction data) := (avoids_readConfig _).bind fun _ => avoids_pure _

theorem dispatchEventLog_avoids_illegalFunction : Avoids .illegalFunction dispatchEventLog :=
  (avoids_sampleDevice _).bind fun _ => (avoids_sampleDevice _).bind fun _ => (avoids_sampleDevice _).bind fun _ =>
  (avoids_sampleDevice _).bind fun _ => avoids_pure _

theorem dispatchSlaveID_avoids_illegalFunction : Avoids .illegalFunction dispatchSlaveID :=
  (avoids_sampleDevice _).bind fun _ => (avoids_sampleDevice _).bind fun _ => (avoids_sampleDevice _).bind fun _ =>
  avoids_pure _

/-- A file sub-request fails its check with Illegal Address or Illegal Value (R221). -/
theorem checkSub_ne_illegalFunction (p : Params) (refType : Byte) (f r n : Nat) :
    checkSub p refType f r n ≠ some .illegalFunction := by
  rw [checkSub_eq]
  split
  · nofun
  split <;> nofun

theorem dispatchReadFile_avoids_illegalFunction (subs : List FileRead) : Avoids .illegalFunction (dispatchReadFile subs) :=
  (avoids_checkEach (fun _ _ => checkSub_ne_illegalFunction _ _ _ _ _) _).bind fun _ => (avoids_check _).bind fun _ =>
  (avoids_readRecords _).bind fun _ => avoids_pure _

theorem dispatchWriteFile_avoids_illegalFunction (subs : List FileWrite) : Avoids .illegalFunction (dispatchWriteFile subs) :=
  (avoids_checkEach (fun _ _ => checkSub_ne_illegalFunction _ _ _ _ _) _).bind fun _ => (avoids_writeRecords _).bind fun _ =>
  avoids_pure _

theorem dispatchFifo_avoids_illegalFunction : Avoids .illegalFunction (dispatchFifo reference) :=
  (avoids_readConfig _).bind fun _ => (avoids_check _).bind fun _ => (avoids_memReadWord _ _).bind fun _ =>
  (avoids_check _).bind fun _ => (avoids_check _).bind fun _ =>
  (avoids_readEach (avoids_memReadWord _) _ _).bind fun _ => avoids_pure _

/-- The table's exceptions are Illegal Address and Illegal Value (R242). -/
theorem meiResponse_avoids_illegalFunction (subCode fieldLevel : Byte) (answer : MeiAnswer) :
    Avoids .illegalFunction (meiResponse subCode fieldLevel answer) := by
  cases answer with
  | illegalAddress => exact avoids_raise (by decide)
  | illegalValue => exact avoids_raise (by decide)
  | objects _ _ _ _ => exact avoids_pure _

/-- An Illegal Function is raised by no dispatch but that of a ReadMEI with another sub-code than 0x0E (R302). -/
theorem dispatchOf_avoids_illegalFunction {i : Instr}
    (known : ∀ subCode fieldLevel fieldId, i = .readMEI subCode fieldLevel fieldId → subCode = 0x0E) :
    Avoids .illegalFunction (dispatchOf i) := by
  cases i with
  | readCoils reference count => exact dispatchReadBits_avoids_illegalFunction _ _
  | readInputDiscretes reference count => exact dispatchReadBits_avoids_illegalFunction _ _
  | readMultipleRegisters reference count => exact dispatchReadWords_avoids_illegalFunction _ _
  | readInputRegisters reference count => exact dispatchReadWords_avoids_illegalFunction _ _
  | writeCoil reference value => exact (avoids_check _).bind fun _ => dispatchWriteOne_avoids_illegalFunction _ _ _
  | writeSingleRegister reference value => exact dispatchWriteOne_avoids_illegalFunction _ _ _
  | readExceptionStatus => exact (avoids_sampleDevice _).bind fun _ => avoids_pure _
  | readSerialDiagnostics subFunction data => exact dispatchDiagnostics_avoids_illegalFunction subFunction data
  | readCommEventCounter =>
    exact (avoids_sampleDevice _).bind fun _ => (avoids_sampleDevice _).bind fun _ => avoids_pure _
  | readCommEventLog => exact dispatchEventLog_avoids_illegalFunction
  | writeMultipleCoils reference count data => exact dispatchWriteMany_avoids_illegalFunction _ _ _ _ _
  | writeMultipleRegisters reference values => exact dispatchWriteMany_avoids_illegalFunction _ _ _ _ _
  | reportSlaveID => exact dispatchSlaveID_avoids_illegalFunction
  | readFileRecord subs => exact dispatchReadFile_avoids_illegalFunction subs
  | writeFileRecord subs => exact dispatchWriteFile_avoids_illegalFunction subs
  | maskWriteRegister reference andMask orMask => exact dispatchMaskWrite_avoids_illegalFunction andMask orMask
  | readWriteMultiple readRef readCount writeRef values => exact dispatchReadWrite_avoids_illegalFunction writeRef values
  | readFIFOQueue reference => exact dispatchFifo_avoids_illegalFunction
  | readMEI subCode fieldLevel fieldId =>
    obtain rfl := known _ _ _ rfl
    exact fun s u raised =>
      meiResponse_avoids_illegalFunction _ _ _ s u ((dispatchMEI_of_table rfl).symm.trans raised)

end dispatches

/-! ### The function code of the header -/

section header

variable {headless : Bool} {input : List Byte} {h : Header}

/-- The header's function code is the first byte of the PDU (R133). -/
theorem decodeUnit_functionCode {framing : Framing} {pdu : List Byte} (split : decodeUnit framing input = .ok (h, pdu)) :
    ∃ body, pdu = h.functionCode :: body := by
  obtain ⟨_, -, split⟩ := bind_ok split
  obtain ⟨⟨_, body⟩, first, split⟩ := bind_ok split
  cases split
  exact ⟨body, u8_ok first⟩

theorem decodeADU_functionCode {pdu : List Byte} (split : decodeADU headless input = .ok (h, pdu)) :
    ∃ body, pdu = h.functionCode :: body := by
  cases headless with
  | true => exact decodeUnit_functionCode split
  | false =>
    obtain ⟨_, -, split⟩ := bind_ok split
    obtain ⟨_, -, split⟩ := bind_ok split
    obtain ⟨_, -, split⟩ := bind_ok split
    obtain ⟨_, -, split⟩ := bind_ok split
    exact decodeUnit_functionCode split

/-- An instruction that is decoded has the header's function code. -/
theorem functionCode_of_instr {i : Instr} (decoded : decodeRequestADU headless input = .ok (h, .instr i)) :
    i.functionCode = h.functionCode := by
  obtain ⟨pdu, split, read⟩ := decodeRequestADU_ok decoded
  obtain ⟨body, rfl⟩ := decodeADU_functionCode split
  obtain ⟨-, layout⟩ := encodeOfDecode _ _ (read i rfl)
  exact (List.cons.inj layout).1

/-- The placeholder that a PDU decodes to has the PDU's function code (R99, R261). -/
theorem functionCode_of_reject {functionCode c : Byte} {body : List Byte}
    (rejected : decode (functionCode :: body) = .error (.illegalFunction c)) : c = functionCode := by
  rw [decode] at rejected
  split at rejected
  · cases rejected
    rfl
  · split at rejected <;> cases rejected

/-- The placeholder that is decoded has the header's function code. -/
theorem functionCode_of_placeholder {c : Byte} (decoded : decodeRequestADU headless input = .ok (h, .illegalFunction c)) :
    c = h.functionCode := by
  unfold decodeRequestADU at decoded
  split at decoded
  · cases decoded
  · next split =>
    obtain ⟨body, rfl⟩ := decodeADU_functionCode split
    split at decoded
    · cases decoded
    · next rejected =>
      cases decoded
      exact functionCode_of_reject rejected
    · cases decoded

end header

/-! ### The answer of code 1 -/

/-- An instruction that answers with the exception of this code has raised it. -/
theorem raisedCode_of_exceptionAnswer {i : Instr} {s t : State} {code : Byte} (next : exec i s = .next t)
    (answer : t.outcome = some (.ok (.bytes (aduOf s.latches.header (exceptionPdu i.functionCode code))))) :
    ∃ kind u, dispatchOf i s = .raised kind u ∧ kind.code = code := by
  obtain ⟨kind, u, raised⟩ := raised_of_exceptionAnswer next answer
  rcases exec_outcome next with reset | ⟨_, refused⟩ | ⟨kind, u, raised, exception⟩ | ⟨_, _, _, given, -⟩
  · rw [reset] at answer
    cases answer
  · rw [refused] at answer
    cases answer
  · have same := aduOf_injective (by simpa using exception.symm.trans answer)
    simp only [exceptionPdu, List.cons.injEq, and_true, true_and] at same
    exact ⟨kind, u, raised, same⟩
  · rw [raised] at given
    cases given

theorem illegalFunction_of_code {kind : ExceptionKind} (one : kind.code = 1) : kind = .illegalFunction := by
  cases kind with
  | illegalFunction => rfl
  | illegalAddress => exact absurd one (by decide)
  | illegalValue => exact absurd one (by decide)

/-- With no reset to come, an instruction is answered with code 1 exactly if it is a ReadMEI with another sub-code than 0x0E
(R240, R302). -/
theorem exec_illegalFunction_iff {i : Instr} {s t : State} (next : exec i s = .next t) (noReset : s.NoReset) :
    t.outcome = some (.ok (.bytes (aduOf s.latches.header (exceptionPdu i.functionCode 1)))) ↔
      ∃ subCode fieldLevel fieldId, i = .readMEI subCode fieldLevel fieldId ∧ subCode ≠ 0x0E := by
  constructor
  · intro answer
    obtain ⟨kind, u, raised, one⟩ := raisedCode_of_exceptionAnswer next answer
    rw [illegalFunction_of_code one] at raised
    by_contra others
    push Not at others
    exact dispatchOf_avoids_illegalFunction others s u raised
  · rintro ⟨subCode, fieldLevel, fieldId, rfl, other⟩
    obtain ⟨t', taken, answer⟩ := takeException_of_noReset 0x2B .illegalFunction noReset
    have raised := respond_raised (functionCode := 0x2B) (dispatchMEI_otherSubCode (s := s) other fieldLevel fieldId)
    rw [exec_eq_respond] at next
    cases next.symm.trans (raised.trans taken)
    exact answer

/-- Settles O34: an instruction by what its dispatch can raise; the placeholder has the header's function code and is answered with
code 1. -/
theorem causesOfIllegalFunction : Obligations.CausesOfIllegalFunction := by
  intro s t headless input rest h request noReset command decoded next
  rw [step_of_commands command, runCommand, serve, decoded] at next
  cases request with
  | instr i =>
    rw [← functionCode_of_instr decoded]
    have ran : exec i ({ s with commands := rest }.latchRequest h (.instr i) input.length) = .next t := next
    simpa using exec_illegalFunction_iff ran noReset
  | illegalFunction c =>
    obtain rfl := functionCode_of_placeholder decoded
    obtain ⟨t', taken, answer⟩ := takeException_of_noReset (s := { s with commands := rest }.latchRequest h _ _) h.functionCode
      .illegalFunction noReset
    cases next.symm.trans taken
    exact ⟨fun _ => .inl rfl, fun _ => answer⟩

end Sys2Proof.Scope
end

section
/-! SUPPORT. What can fall between two accesses: nothing, between a write and a read of the same range; a write by another agent,
between the read and the write of a mask write; a reset, between two writes of a run (R74, R340, R341, R344, R346). -/

namespace Sys2Proof.Scope

open Sys2Proof.Machine

/-! ### A read after a write -/

/-- Settles O45: the registers that the write leaves, as the read of the same range answers them. -/
theorem writeThenReadGivesTheValues : Obligations.WriteThenReadGivesTheValues := by
  intro s t reference values quiet canonical small cap bound inside wrote
  obtain ⟨im, written, stored, -⟩ := multipleRegisterWritesStoreEveryWord s reference values quiet canonical (.inr inside)
  obtain ⟨pdu, rfl⟩ : ∃ pdu, t = s.answered im pdu := ⟨_, by simpa using wrote.symm.trans written⟩
  have count : (u16Field values.length).toNat = values.length := u16Field_toNat _ (by omega)
  have read : ((List.range values.length).map fun k => im.word .hr (reference.toNat + k)) = values := by
    refine List.ext_getElem (by simp) fun k _ hk => ?_
    rw [List.getElem_map, List.getElem_range, stored k hk, List.getD_eq_getElem _ _ hk]
  have admitted := registerReadsAnswerTheElements (s.answered im pdu) reference (u16Field values.length) quiet small
  rw [count, State.answered_image, read] at admitted
  exact (admitted cap bound).1 (.inr inside)

section interleaving

variable {α : Type} {s u v : State} {reference : U16}

/-! ### A write between the read and the write of a mask write -/

/-- A write takes effect on what the other agents have left (R66, R68). -/
theorem memWrite_after_others (others : otherAgents s = .ok () u) {w : ElementWrite} (inside : w.exists u.cfg = true) :
    memWrite w s = .ok () (u.write w) := by
  rw [memWrite, Txn.bind_ok others]
  simp [inside]

/-- A mask write stores the masked value of what it has read, in the state in which the other agents let it write (R74, R185). -/
theorem dispatchMaskWrite_after_others (beforeRead : otherAgents s = .ok () u) (beforeWrite : otherAgents u = .ok () v)
    (andMask orMask : U16) (inside : reference.toNat < s.cfg.nHR) (readable : reference.toNat < u.cfg.nHR)
    (writable : reference.toNat < v.cfg.nHR) :
    dispatchMaskWrite reference andMask orMask s = .ok (.maskWriteRegister reference andMask orMask)
      (v.write (.hr reference.toNat (maskWrite (u.image.word .hr reference.toNat) andMask orMask))) := by
  rw [dispatchMaskWrite, Txn.readConfig_bind, Txn.check_bind _ _ _ ((validOne_iff _ _).mpr inside),
    Txn.bind_ok (memReadWord_after_others beforeRead (space := .hr) readable),
    Txn.bind_ok (memWrite_after_others beforeWrite (w := .hr _ _) ((validOne_iff _ _).mpr writable))]
  rfl

/-- Settles O55: the value written is the masked one of the first read, and no event is left to come before the answer. -/
theorem maskWriteLosesAWriteBetween : Obligations.MaskWriteLosesAWriteBetween := by
  intro s t reference andMask orMask value canonical inside slots next
  have exists_ : (ElementWrite.hr reference.toNat value).exists s.cfg = true := (validOne_iff _ _).mpr inside
  have beforeRead : otherAgents s = .ok () (s.withSchedule [[.write .application (.hr reference.toNat value)]]) :=
    otherAgents_of_schedule slots
  have beforeWrite : otherAgents (s.withSchedule [[.write .application (.hr reference.toNat value)]]) =
      .ok () ((s.withSchedule []).write (.hr reference.toNat value)) :=
    (otherAgents_of_schedule rfl).trans (applyEvents_application [] exists_)
  have dispatched : dispatchOf (.maskWriteRegister reference andMask orMask) s = _ :=
    dispatchMaskWrite_after_others beforeRead beforeWrite andMask orMask inside inside inside
  rw [exec_eq_respond, respond_ok dispatched, conclude_quiet _ _ rfl _ rfl (by simp)] at next
  cases next
  have overwritten : (s.image.write (.hr reference.toNat value)).wf = true := Image.wf_write _ canonical _
  exact ⟨(Image.word_write_hr _ overwritten _ _ _).trans (if_pos rfl), rfl⟩

/-! ### A reset between two writes -/

/-- A slot with a reset only abandons the transaction; the rest of the slot, which is empty, is still to come (R340). -/
theorem otherAgents_reset (slots : s.schedule = [[.reset]]) : otherAgents s = .abandoned (s.engineReset.withSchedule [[]]) :=
  otherAgents_of_schedule slots

/-- A part that a reset abandons ends the whole. -/
theorem bind_abandoned {β : Type} {m : Txn α} {f : α → Txn β} (abandoned : m s = .abandoned u) :
    Txn.bind m f s = .abandoned u := by
  simp [Txn.bind, abandoned]

theorem respond_abandoned {functionCode : Byte} {dispatch : Txn Response} (abandoned : dispatch s = .abandoned u) :
    respond functionCode dispatch s = .next u := by
  simp [respond, abandoned]

theorem complete_reset (result : Result) (slots : s.schedule = [[.reset]]) :
    complete result s = .next (s.engineReset.withSchedule [[]]) := by
  simp [complete, otherAgents_reset slots]

/-- A reset before the outcome: whatever the response was, neither it nor a latch survives (R340). -/
theorem conclude_reset (response : Response) (slots : s.schedule = [[.reset]]) :
    conclude response s = .next (s.engineReset.withSchedule [[]]) := by
  unfold conclude
  cases encodeResponse response with
  | error reason => exact complete_reset _ slots
  | ok pdu =>
    simp only [emitPdu]
    split
    · exact complete_reset _ slots
    · exact complete_reset _ slots

/-- The first of these writes with an empty slot before each: they are all made, and the slots after these are still to come. -/
theorem writeEach_emptySlots {target : Nat → α → ElementWrite} {rest : List (List Event)} (left : List α) (done : List α) :
    ∀ (a : Nat) (s : State), s.schedule = List.replicate done.length [] ++ rest →
      (∀ k v, done[k]? = some v → (target (a + k) v).exists s.cfg = true) →
      writeEach target a (done ++ left) s = writeEach target (a + done.length) left
        { s with image := Image.writeEach target a done s.image, schedule := rest } := by
  induction done with
  | nil =>
    intro a s slots _
    obtain rfl : s.schedule = rest := slots
    rfl
  | cons v done ih =>
    intro a s slots inside
    have first : memWrite (target a v) s =
        .ok () ((s.withSchedule (List.replicate done.length [] ++ rest)).write (target a v)) :=
      memWrite_after_others (otherAgents_of_schedule slots) (inside 0 v (by simp))
    rw [List.cons_append, writeEach, Txn.bind_ok first, ih (a + 1) _ rfl fun k w hk => ?_]
    · rw [List.length_cons, Nat.add_right_comm, Nat.add_assoc]
      rfl
    · rw [Nat.add_right_comm, Nat.add_assoc]
      exact inside (k + 1) w (by simpa using hk)

/-- A multiple write with an empty slot before each of its first writes and then a reset: these writes are made, and the reset is
all that happens after them, whether more writes were to come or only the answer (R340, R341). -/
theorem respond_dispatchWriteMany_reset {functionCode : Byte} {size : Params → Nat} {target : Nat → α → ElementWrite}
    {n : Nat} {echo : Response} {done left : List α} (slots : s.schedule = List.replicate done.length [] ++ [[.reset]])
    (valid : validWrite (size s.cfg) reference.toNat n = true)
    (inside : ∀ k v, done[k]? = some v → (target (reference.toNat + k) v).exists s.cfg = true) :
    respond functionCode (dispatchWriteMany size target reference n (done ++ left) echo) s = .next
      { s with
        image := Image.writeEach target reference.toNat done s.image
        schedule := [[]]
        latches := Latches.idle
        outcome := none } := by
  have dispatched : dispatchWriteMany size target reference n (done ++ left) echo s =
      Txn.bind (writeEach target (reference.toNat + done.length) left) (fun _ => Txn.pure echo)
        { s with image := Image.writeEach target reference.toNat done s.image, schedule := [[.reset]] } := by
    rw [dispatchWriteMany, Txn.readConfig_bind, Txn.check_bind _ _ _ valid, Txn.bind,
      writeEach_emptySlots left done _ _ slots inside]
    rfl
  cases left with
  | nil => rw [respond_ok dispatched, conclude_reset echo rfl]; rfl
  | cons v left =>
    refine respond_abandoned (dispatched.trans (bind_abandoned ?_))
    exact bind_abandoned (bind_abandoned (otherAgents_reset rfl))

/-- Settles O57: the values split into the `k` written before the reset and the others. -/
theorem resetLeavesAPrefixOfTheWrites : Obligations.ResetLeavesAPrefixOfTheWrites := by
  intro s reference values k canonical few inside slots
  obtain ⟨done, left, rfl, rfl⟩ : ∃ done left, values = done ++ left ∧ k = done.length :=
    ⟨values.take k, values.drop k, (List.take_append_drop k values).symm, (List.length_take_of_le few).symm⟩
  have valid := (validWrite_iff s.cfg.nHR reference.toNat (done ++ left).length).mpr inside
  have written {j : Nat} (hj : j < done.length) : reference.toNat + j < s.cfg.nHR := validWrite_bound valid (hj.trans_le few)
  refine ⟨Image.writeEach .hr reference.toNat done s.image, ?_, fun j hj => ?_, fun e spared => ?_⟩
  · rw [exec_eq_respond]
    exact respond_dispatchWriteMany_reset slots valid fun j v hj =>
      (validOne_iff _ _).mpr (written (List.getElem?_eq_some_iff.mp hj).1)
  · rw [word_writeEach_written canonical _ hj, List.getD_append _ _ _ _ hj]
  · exact Image.element_writeEach_flat .hr (by simp) e _ _ _ canonical fun j hj _ same => spared j hj same.symm

end interleaving

end Sys2Proof.Scope
end
